-- ==== Sys2Proof/Word.lean ====
section
/-! DEFINITION. The word types of the PDU (rule R11): the `i32` element and register word, the `u16` table entry,
the `u8` sample. A bit vector is used because the spec masks, slices, wraps and sign-extends these values. -/

namespace Sys2Proof

/-- A sample of a pixel memory: the `u8` of rule R11. -/
abbrev Byte := BitVec 8

/-- A quantization-table entry: the `u16` of rule R11. -/
abbrev Entry := BitVec 16

/-- A control register, a command word, or a block element: 32 bits, an element being read as the two's-complement
`i32` of rule R11. -/
abbrev Word := BitVec 32

end Sys2Proof
end

