-- ==== Sys2Proof/Syntax.lean ====
section
/-! DEFINITION. The command set (rules R70 to R85): the 13 commands of rule R76 with their operands, the error codes of
rule R201 that the decoder already needs, and the pseudo-instructions of rule R82. -/

namespace Sys2Proof

/-- The table selector `TSEL` (rule R74). -/
inductive TSel
  /-- `L`, 0: the luma table `QT[0]`. -/
  | l
  /-- `C`, 1: the chroma table `QT[1]`. -/
  | c
deriving DecidableEq, Repr

/-- The plane selector `PSEL` (rule R73). It also names the memory the plane lies in. -/
inductive PSel
  /-- `Y`, 0: memory `YP`. -/
  | y
  /-- `CB`, 1: memory `CBP`. -/
  | cb
  /-- `CR`, 2: memory `CRP`. -/
  | cr
  /-- `PIX`, 3: memory `PIX` taken as one single-channel plane. -/
  | pix
deriving DecidableEq, Repr

/-- The commands, one constructor for each row of the opcode table (rules R76 and R85). A block index is a natural
number; that it fits its 12-bit field (rule R75) is checked in WellFormed. -/
inductive Instr
  | nop
  | qtgen (t : TSel)
  | fdct
  | quant (t : TSel)
  | dequant (t : TSel)
  | idct
  | xform (t : TSel)
  | ldblk (p : PSel) (br bc : Nat)
  | stblk (p : PSel) (br bc : Nat)
  | cplane (p : PSel) (t : TSel)
  | split
  | merge
  | compress
deriving DecidableEq, Repr

/-- The error codes of rule R201. Codes 9 to 15 are never produced, so the type has eight constructors. -/
inductive ErrCode
  /-- 1, `E_OPC`: `OPC` is 13..31. -/
  | opc
  /-- 2, `E_FIELD`: a field the command does not use is non-zero. -/
  | field
  /-- 3, `E_DIM`: `WIDTH` = 0 or `HEIGHT` = 0. -/
  | dim
  /-- 4, `E_FMT`: reserved ratio code, or a buffer shape the command does not fit. -/
  | fmt
  /-- 5, `E_PRESET`: `QCFG.PRESET` ≥ `N_PRESETS`. -/
  | preset
  /-- 6, `E_SIZE`: the geometry exceeds a memory's capacity. -/
  | size
  /-- 7, `E_NOTABLE`: the selected table has not been built since reset. -/
  | noTable
  /-- 8, `E_RANGE`: block index outside the plane. -/
  | range
deriving DecidableEq, Repr

/-- The pseudo-instructions of rule R82. -/
inductive Pseudo
  | qtgenl
  | qtgenc
  | cgray
  | block (t : TSel)
  | tile (p : PSel) (t : TSel) (br bc : Nat)
deriving DecidableEq, Repr

end Sys2Proof
end

