-- ==== Sys2Proof/WellFormed.lean ====
section
/-! DEFINITION. Which instructions have a word: a block-row and a block-column index is an unsigned 12-bit immediate,
0..4095 (rule R75). Every other operand is an enumeration whose values are all legal (rules R73 and R74). -/

namespace Sys2Proof

/-- The 12-bit immediate range of rule R75. -/
abbrev FitsBlockField (n : Nat) : Prop := n < 4096

/-- Every operand fits its field of the command word (rule R71). -/
def Instr.wellFormed (i : Instr) : Bool :=
  match i with
  | .ldblk _ br bc => decide (FitsBlockField br) && decide (FitsBlockField bc)
  | .stblk _ br bc => decide (FitsBlockField br) && decide (FitsBlockField bc)
  | .nop => true
  | .qtgen _ => true
  | .fdct => true
  | .quant _ => true
  | .dequant _ => true
  | .idct => true
  | .xform _ => true
  | .cplane _ _ => true
  | .split => true
  | .merge => true
  | .compress => true

end Sys2Proof
end

