-- ==== Sys2Proof/Decode.lean ====
section
/-! DEFINITION. The command encoding (rules R70 to R85): the decoder, total on every 32-bit word, and the encoder.
A command arrives as one 32-bit word written to `CMD`; no byte order arises (rules R52 and R67). -/

namespace Sys2Proof

/-- One row of the opcode map: the mask and match of rule R77. -/
structure CommandRow where
  mask      : Word
  matchWord : Word
deriving DecidableEq, Repr

/-- The 13 rows of rule R77, in the order of `OPC`. -/
def commandRows : List CommandRow :=
  [ ⟨0xFFFFFFFF, 0x00000000⟩   -- NOP
  , ⟨0xFFFFFF7F, 0x00000001⟩   -- QTGEN
  , ⟨0xFFFFFFFF, 0x00000002⟩   -- FDCT
  , ⟨0xFFFFFF7F, 0x00000003⟩   -- QUANT
  , ⟨0xFFFFFF7F, 0x00000004⟩   -- DEQUANT
  , ⟨0xFFFFFFFF, 0x00000005⟩   -- IDCT
  , ⟨0xFFFFFF7F, 0x00000006⟩   -- XFORM
  , ⟨0x0000009F, 0x00000007⟩   -- LDBLK
  , ⟨0x0000009F, 0x00000008⟩   -- STBLK
  , ⟨0xFFFFFF1F, 0x00000009⟩   -- CPLANE
  , ⟨0xFFFFFFFF, 0x0000000A⟩   -- SPLIT
  , ⟨0xFFFFFFFF, 0x0000000B⟩   -- MERGE
  , ⟨0xFFFFFFFF, 0x0000000C⟩ ] -- COMPRESS

/-- Does `w` select the command of row `r` (rule R77)? -/
abbrev CommandRow.Selects (r : CommandRow) (w : Word) : Prop := w &&& r.mask = r.matchWord

/-- `OPC` = w[4:0] (rules R71 and R72). -/
def opcField (w : Word) : Nat := (w.extractLsb' 0 5).toNat

/-- `PSEL` = w[6:5] (rules R71 and R73). -/
def pselField (w : Word) : PSel :=
  match (w.extractLsb' 5 2).toNat with
  | 0 => .y
  | 1 => .cb
  | 2 => .cr
  | _ => .pix

/-- `TSEL` = w[7] (rules R71 and R74). -/
def tselField (w : Word) : TSel :=
  match (w.extractLsb' 7 1).toNat with
  | 0 => .l
  | _ => .c

/-- `BCOL` = w[19:8], unsigned (rules R71 and R75). -/
def bcolField (w : Word) : Nat := (w.extractLsb' 8 12).toNat

/-- `BROW` = w[31:20], unsigned (rules R71 and R75). -/
def browField (w : Word) : Nat := (w.extractLsb' 20 12).toNat

/-- The command of `OPC` = `opc` with the fields it uses (rules R76 and R77); `none` for the reserved codes. -/
def commandOf (opc : Nat) (w : Word) : Option Instr :=
  match opc with
  | 0  => some .nop
  | 1  => some (.qtgen (tselField w))
  | 2  => some .fdct
  | 3  => some (.quant (tselField w))
  | 4  => some (.dequant (tselField w))
  | 5  => some .idct
  | 6  => some (.xform (tselField w))
  | 7  => some (.ldblk (pselField w) (browField w) (bcolField w))
  | 8  => some (.stblk (pselField w) (browField w) (bcolField w))
  | 9  => some (.cplane (pselField w) (tselField w))
  | 10 => some .split
  | 11 => some .merge
  | 12 => some .compress
  | _  => none

/-- The decode procedure of rule R80: reserved `OPC` first, then the unused fields, then the command. -/
def decode (w : Word) : Except ErrCode Instr :=
  match commandRows[opcField w]?, commandOf (opcField w) w with
  | some r, some i => if r.Selects w then .ok i else .error .field
  | _, _ => .error .opc

/-- `PSEL` of a selector (rule R73). -/
def PSel.code : PSel → Nat
  | .y => 0
  | .cb => 1
  | .cr => 2
  | .pix => 3

/-- `TSEL` of a selector (rule R74). -/
def TSel.code : TSel → Nat
  | .l => 0
  | .c => 1

/-- The formula of rule R71: `OPC + 32 × PSEL + 128 × TSEL + 256 × BCOL + 1048576 × BROW`. -/
def packWord (opc psel tsel bcol brow : Nat) : Word :=
  BitVec.ofNat 32 (opc + 32 * psel + 128 * tsel + 256 * bcol + 1048576 * brow)

/-- The command word of an instruction, unused fields zero (rules R80 and R81). -/
def encode : Instr → Word
  | .nop           => packWord 0 0 0 0 0
  | .qtgen t       => packWord 1 0 t.code 0 0
  | .fdct          => packWord 2 0 0 0 0
  | .quant t       => packWord 3 0 t.code 0 0
  | .dequant t     => packWord 4 0 t.code 0 0
  | .idct          => packWord 5 0 0 0 0
  | .xform t       => packWord 6 0 t.code 0 0
  | .ldblk p br bc => packWord 7 p.code 0 bc br
  | .stblk p br bc => packWord 8 p.code 0 bc br
  | .cplane p t    => packWord 9 p.code t.code 0 0
  | .split         => packWord 10 0 0 0 0
  | .merge         => packWord 11 0 0 0 0
  | .compress      => packWord 12 0 0 0 0

/-- What the decoder reads from an instruction whose first `nbits` bits are `w` and whose other bits are 0. -/
def decodeTableWord (nbits w : Nat) : Option Instr :=
  match decode (BitVec.ofNat 32 (w % 2 ^ nbits)) with
  | .ok i => some i
  | .error _ => none

/-- The expansions of rule R82. -/
def Pseudo.expand : Pseudo → List Instr
  | .qtgenl => [.qtgen .l]
  | .qtgenc => [.qtgen .c]
  | .cgray => [.cplane .pix .l]
  | .block t => [.fdct, .quant t, .dequant t, .idct]
  | .tile p t br bc => [.ldblk p br bc, .xform t, .stblk p br bc]

/-- The name of a table operand in the notation of rule R81. -/
def TSel.name : TSel → String
  | .l => "L"
  | .c => "C"

/-- The name of a plane operand in the notation of rule R81. -/
def PSel.name : PSel → String
  | .y => "Y"
  | .cb => "CB"
  | .cr => "CR"
  | .pix => "PIX"

/-- The assembler notation of rule R81. -/
def Instr.assembly : Instr → String
  | .nop           => "NOP"
  | .qtgen t       => "QTGEN " ++ t.name
  | .fdct          => "FDCT"
  | .quant t       => "QUANT " ++ t.name
  | .dequant t     => "DEQUANT " ++ t.name
  | .idct          => "IDCT"
  | .xform t       => "XFORM " ++ t.name
  | .ldblk p br bc => "LDBLK " ++ p.name ++ ", " ++ toString br ++ ", " ++ toString bc
  | .stblk p br bc => "STBLK " ++ p.name ++ ", " ++ toString br ++ ", " ++ toString bc
  | .cplane p t    => "CPLANE " ++ p.name ++ ", " ++ t.name
  | .split         => "SPLIT"
  | .merge         => "MERGE"
  | .compress      => "COMPRESS"

end Sys2Proof
end

