-- ==== Sys2Proof/Config.lean ====
section
/-! DEFINITION. What an implementation fixes (rules R8, R9, R41, R56) and the free values.
`Config` is the record of the parameters the spec calls OPEN, with the constant record `NUM`. The step takes a state
only, so the record is carried in `State.cfg` and no step changes it (log entry 2): a statement about every state is a
statement about every configuration. The `opaque` functions have no body, so nothing can be proved of what they give:
contents no rule states (log entries 5, 6 and 7), a division the spec excludes (log entry 13), and the values a constant
record other than the reference one can ask for and no rule gives (log entry 25). -/

namespace Sys2Proof

/-- The record `NUM` of rule R9: every numeric constant of the datapath, under the spec's names. The reference
values are in `Num.reference` (Machine/Reference.lean). -/
structure Num where
  /-- `CONST_BITS` -/
  constBits : Nat
  /-- `PASS1_BITS` -/
  pass1Bits : Nat
  /-- `OUT_BITS` -/
  outBits : Nat
  fix_0_298631336 : Word
  fix_0_390180644 : Word
  fix_0_541196100 : Word
  fix_0_765366865 : Word
  fix_0_899976223 : Word
  fix_1_175875602 : Word
  fix_1_501321110 : Word
  fix_1_847759065 : Word
  fix_1_961570560 : Word
  fix_2_053119869 : Word
  fix_2_562915447 : Word
  fix_3_072711026 : Word
  /-- Forward colour weights, one row each for Y, Cb and Cr (rule R143). -/
  yR : Int
  yG : Int
  yB : Int
  cbR : Int
  cbG : Int
  cbB : Int
  crR : Int
  crG : Int
  crB : Int
  /-- The forward rounding constant and the fraction bits of the forward weights. -/
  fwdRound : Int
  fwdShift : Nat
  /-- Inverse colour weights (rule R148): R from v, G from u and v, B from u. -/
  rV : Int
  gU : Int
  gV : Int
  bU : Int
  /-- The inverse rounding constant and the fraction bits of the inverse weights. -/
  invRound : Int
  invShift : Nat
  /-- Quality scaling (rules R92 and R97): `qLow / q` below `qSeam`, `qHigh - qSlope × q` from it. -/
  qSeam : Nat
  qLow : Nat
  qHigh : Nat
  qSlope : Nat
  stepRound : Nat
  stepDivisor : Nat
  stepMin : Nat
  stepMax : Nat
deriving DecidableEq, Repr

/-- One preset of the `BASE` ROM (rule R23): its luma and its chroma base matrix, row-major. -/
structure Preset where
  luma   : Vector Nat 64
  chroma : Vector Nat 64
deriving DecidableEq, Repr

/-- The OPEN parameters of rules R8 and R56 and the constants of rule R9. Presets 0 and 1 are fixed by rules R94 and
R95; `extraPresets` are those from number 2 on, so `N_PRESETS` is 2 plus their number. -/
structure Config where
  /-- `PIX_BYTES` -/
  pixBytes : Nat
  /-- `PLANE_BYTES` -/
  planeBytes : Nat
  /-- `BASE[p]` for p ≥ 2 -/
  extraPresets : List Preset
  /-- `NUM` -/
  num : Num
  /-- The width of the host address, in bits. -/
  busBits : Nat
  /-- `PDU_BASE` and the bases of the four pixel-memory windows. -/
  pduBase : Nat
  pixBase : Nat
  ypBase  : Nat
  cbpBase : Nat
  crpBase : Nat
deriving DecidableEq, Repr

/-- A free value: the content of element `i` of `BLK` at the draw numbered `n` (rules R39, R232). -/
opaque Config.freeWord (n i : Nat) : Word

/-- A free value: the content of entry `i` of table `t` at the draw numbered `n` (rules R39, R232). -/
opaque Config.freeEntry (n t i : Nat) : Entry

/-- A free value: what the host reads at entry `i` of table `t` while the table is not valid and holds `e` there, after
draw number `n` (rule R60, log entry 7). It is no content that a reset leaves. -/
opaque Config.unbuiltEntry (n t i : Nat) (e : Entry) : Entry

/-- A free value: the content of byte `a` of pixel memory number `m` at the draw numbered `n` (rules R39, R232). -/
opaque Config.freeByte (n m a : Nat) : Byte

/-- A free value: what quantizing `c` by a zero entry would give. The spec says that a table is never read before it
is built and that no division by a zero entry can occur (rules R22, R207); no run reaches this value. -/
opaque Config.quotientByZero (c : Word) : Word

/-- A free value: a left shift of `a` by a count `n` outside 0..31, where rule R12 defines none (log entry 25). -/
opaque Config.shlBeyond (a : Word) (n : Nat) : Word

/-- A free value: `DESCALE` of `a` by a count `n` outside 1..31, where rule R12 defines none (log entry 25). -/
opaque Config.descaleBeyond (a : Word) (n : Nat) : Word

/-- A free value: the `u8` stored for a forward colour value `z` outside 0..255. The spec says that such a value is stored
as it is and that with the reference weights none occurs (rules R143, R144); it gives no byte (log entry 25). -/
opaque Config.sampleBeyond (z : Int) : Byte

/-- A free value: the quotient of `z` by a step divisor of 0, where rule R13 defines no `fdiv` (log entry 25). -/
opaque Config.quotientByZeroDivisor (z : Int) : Int

/-- A free value: the `u16` held for a table entry `n` beyond 65535 (rules R22 and R98; log entry 25). -/
opaque Config.entryBeyond (n : Nat) : Entry

end Sys2Proof
end

