-- ==== Sys2Proof/Machine/Arith.lean ====
section
/-! DEFINITION. The integer primitives of rules R12 and R13. `add32`, `sub32` and `mul32` are `+`, `-` and `*` of
`Word`, which wrap modulo 2^32; `Z` is `Int`, or `Nat` where a value cannot be negative. -/

namespace Sys2Proof.Machine

/-- `wrap32(z)`: the `i32` congruent to z modulo 2^32 (rule R12). -/
def wrap32 (z : Int) : Word := BitVec.ofInt 32 z

/-- `shl32(a, n)` = `wrap32(a × 2^n)` for 0 ≤ n ≤ 31 (rule R12); a free value for any other count, which the reference
constants never ask for (DESIGN CHOICE, log entry 25). -/
def shl32 (a : Word) (n : Nat) : Word := if n ≤ 31 then a <<< n else Config.shlBeyond a n

/-- `sar32(a, n)` = floor(a / 2^n): the arithmetic right shift (rule R12). -/
def sar32 (a : Word) (n : Nat) : Word := a.sshiftRight n

/-- `DESCALE(a, n)` for 1 ≤ n ≤ 31: divide by 2^n rounding to nearest, ties up, the rounding add wrapping (rule R12); a
free value for any other count (DESIGN CHOICE, log entry 25). -/
def descale (a : Word) (n : Nat) : Word :=
  if 1 ≤ n ∧ n ≤ 31 then sar32 (a + BitVec.ofNat 32 (2 ^ (n - 1))) n else Config.descaleBeyond a n

/-- `clamp(v, lo, hi)` in `Z` (rule R13). -/
def clamp (v lo hi : Int) : Int := if v < lo then lo else if hi < v then hi else v

/-- `clamp8(v)` in `Z` (rule R13). -/
def clamp8 (v : Int) : Int := clamp v 0 255

/-- `clamp` on natural numbers. -/
def clampNat (v lo hi : Nat) : Nat := if v < lo then lo else if hi < v then hi else v

/-- `cdiv(a, b)` for b ≥ 1: the quotient rounded up (rule R13). -/
def cdiv (a b : Nat) : Nat := (a + b - 1) / b

/-- `fdiv(a, b)` for b ≥ 1: the quotient rounded toward minus infinity (rule R13). -/
def fdiv (a b : Int) : Int := a / b

/-- The sign extension of 16 bits to an `i32` element: `sext_16` of rule R10. -/
def sext16 (z : Int) : Word := (BitVec.ofInt 16 z).signExtend 32

end Sys2Proof.Machine
end

