-- ==== Sys2Proof/Machine/Memory.lean ====
section
/-! DEFINITION. A pixel memory (rules R15, R31, R50): a byte array indexed from 0, held as the sorted list of its
non-zero bytes. Every access of a command is one byte at one index, so no width, alignment or byte order arises
(rules R15, R52, R54). Capacities are checked where the spec checks them (rules R61 and R206), not here. -/

namespace Sys2Proof.Machine

/-- The listed bytes of a memory, addresses strictly rising; an address not listed reads as `unwritten`. -/
abbrev Memory := List Host.Cell

/-- What an unlisted address reads as. The spec leaves the power-on content open (rule R39): DESIGN CHOICE, log
entry 11. -/
def Memory.unwritten : Byte := 0

/-- `MemRead(m, a, 1)` of rule R15. -/
def Memory.read : Memory → Nat → Byte
  | [], _ => unwritten
  | c :: m, a => if c.1 = a then c.2 else Memory.read m a

/-- The memory without its entry at `a`. -/
def Memory.erase : Memory → Nat → Memory
  | [], _ => []
  | c :: m, a => if c.1 = a then Memory.erase m a else c :: Memory.erase m a

/-- The memory with an entry put at its place in the order. -/
def Memory.insert : Memory → Nat → Byte → Memory
  | [], a, v => [(a, v)]
  | c :: m, a, v => if a < c.1 then (a, v) :: c :: m else c :: Memory.insert m a v

/-- `MemWrite(m, a, 1, v)` of rule R15, keeping the canonical form. -/
def Memory.write (m : Memory) (a : Nat) (v : Byte) : Memory :=
  if v = unwritten then Memory.erase m a else Memory.insert (Memory.erase m a) a v

/-- The canonical form: addresses strictly rising, and no entry equal to what an unlisted address reads as. -/
abbrev Memory.wf (m : Memory) : Prop :=
  m.Pairwise (fun c d => c.1 < d.1) ∧ ∀ c ∈ m, c.2 ≠ Memory.unwritten

/-- Every listed address is below the capacity `n`. -/
abbrev Memory.Within (m : Memory) (n : Nat) : Prop := ∀ c ∈ m, c.1 < n

/-- Writes number 0 to `n - 1` in turn: number `k` stores `val k` at `addr k`, or nothing where `addr k` is `none`.
Every store loop of the spec (rules R146, R149, R164) is one call of this. -/
def Memory.writeMany (m : Memory) (n : Nat) (addr : Nat → Option Nat) (val : Nat → Byte) : Memory :=
  (List.range n).foldl
    (fun m k =>
      match addr k with
      | some a => Memory.write m a (val k)
      | none => m)
    m

end Sys2Proof.Machine
end

