-- ==== Sys2Proof/Machine/Reference.lean ====
section
/-! DEFINITION. The reference values of the configuration: `NUM` (rule R9), the matrices of presets 0 and 1 (rules R94
and R95), and the configuration that the spec's test vectors use (95_test_vectors.md, "Test configuration"). -/

namespace Sys2Proof.Machine

/-- The reference instantiation of `NUM`, the table of rule R9 with the weights of rules R143 and R148 and the scaling
of rules R92 and R97. -/
def referenceNum : Num where
  constBits := 13
  pass1Bits := 2
  outBits := 3
  fix_0_298631336 := 2446
  fix_0_390180644 := 3196
  fix_0_541196100 := 4433
  fix_0_765366865 := 6270
  fix_0_899976223 := 7373
  fix_1_175875602 := 9633
  fix_1_501321110 := 12299
  fix_1_847759065 := 15137
  fix_1_961570560 := 16069
  fix_2_053119869 := 16819
  fix_2_562915447 := 20995
  fix_3_072711026 := 25172
  yR := 19595
  yG := 38470
  yB := 7471
  cbR := -11059
  cbG := -21709
  cbB := 32768
  crR := 32768
  crG := -27439
  crB := -5329
  fwdRound := 32767
  fwdShift := 16
  rV := 91881
  gU := -22554
  gV := -46802
  bU := 116130
  invRound := 32768
  invShift := 16
  qSeam := 50
  qLow := 5000
  qHigh := 200
  qSlope := 2
  stepRound := 50
  stepDivisor := 100
  stepMin := 1
  stepMax := 255

/-- `BASE[0][0]`, the luma matrix of preset Default (rule R94). -/
def defaultLuma : Vector Nat 64 := #v[
  16, 11, 10, 16,  24,  40,  51,  61,
  12, 12, 14, 19,  26,  58,  60,  55,
  14, 13, 16, 24,  40,  57,  69,  56,
  14, 17, 22, 29,  51,  87,  80,  62,
  18, 22, 37, 56,  68, 109, 103,  77,
  24, 35, 55, 64,  81, 104, 113,  92,
  49, 64, 78, 87, 103, 121, 120, 101,
  72, 92, 95, 98, 112, 100, 103,  99]

/-- `BASE[0][1]`, the chroma matrix of preset Default (rule R94). -/
def defaultChroma : Vector Nat 64 := #v[
  17, 18, 24, 47, 99, 99, 99, 99,
  18, 21, 26, 66, 99, 99, 99, 99,
  24, 26, 56, 99, 99, 99, 99, 99,
  47, 66, 99, 99, 99, 99, 99, 99,
  99, 99, 99, 99, 99, 99, 99, 99,
  99, 99, 99, 99, 99, 99, 99, 99,
  99, 99, 99, 99, 99, 99, 99, 99,
  99, 99, 99, 99, 99, 99, 99, 99]

/-- Preset 0, Default (rule R94). -/
def defaultPreset : Preset := ⟨defaultLuma, defaultChroma⟩

/-- Preset 1, Flat: every entry of both matrices is 16 (rule R95). -/
def flatPreset : Preset := ⟨Vector.replicate 64 16, Vector.replicate 64 16⟩

/-- The ROM: presets 0 and 1, then the configuration's own (rules R8 and R93). -/
def presetRom (c : Config) : List Preset := defaultPreset :: flatPreset :: c.extraPresets

/-- Preset number `p`; `none` where `p` ≥ `N_PRESETS`. -/
def presetOf (c : Config) (p : Nat) : Option Preset := (presetRom c)[p]?

/-- The configuration of the spec's test vectors: `N_PRESETS` = 2, `PIX_BYTES` = 1024, `PLANE_BYTES` = 256. The bus
bases are free of the spec; they are chosen here so that no two windows overlap (DESIGN CHOICE, log entry 2). -/
def testConfig : Config where
  pixBytes := 1024
  planeBytes := 256
  extraPresets := []
  num := referenceNum
  busBits := 16
  pduBase := 0x0000
  pixBase := 0x1000
  ypBase  := 0x2000
  cbpBase := 0x3000
  crpBase := 0x4000

/-- An entry of the ROM is an integer in 1..255 (rules R8 and R93). -/
abbrev RomEntry (n : Nat) : Prop := 1 ≤ n ∧ n ≤ 255

/-- Every entry of both matrices of a preset is a ROM entry. -/
abbrev PresetInRange (p : Preset) : Prop := ∀ i : Fin 64, RomEntry p.luma[i] ∧ RomEntry p.chroma[i]

/-- The windows of rule R55 as (base, length). -/
def busWindows (c : Config) : List (Nat × Nat) :=
  [(c.pduBase, 0x400), (c.pixBase, c.pixBytes), (c.ypBase, c.planeBytes),
   (c.cbpBase, c.planeBytes), (c.crpBase, c.planeBytes)]

/-- What rules R8 and R56 ask of a configuration: positive capacities, 2 ≤ `N_PRESETS` ≤ 16, ROM entries in 1..255,
windows inside the host address space and not overlapping. -/
abbrev ConfigOk (c : Config) : Prop :=
  0 < c.pixBytes ∧ 0 < c.planeBytes ∧ c.extraPresets.length ≤ 14 ∧
  (∀ p ∈ c.extraPresets, PresetInRange p) ∧
  (∀ w ∈ busWindows c, w.1 + w.2 ≤ 2 ^ c.busBits) ∧
  (busWindows c).Pairwise (fun v w => v.1 + v.2 ≤ w.1 ∨ w.1 + w.2 ≤ v.1)

end Sys2Proof.Machine
end

