-- ==== Sys2Proof/Machine/State.lean ====
section
/-! DEFINITION. The state of the PDU (rule R20), the events of the two agents (rules R18 and R230), the reasons a step
can end without a next state, and the state right after reset (rule R39). -/

namespace Sys2Proof.Machine

/-- A block: 64 `i32` elements, row-major (rules R17 and R21). -/
abbrev Block := Vector Word 64

/-- A quantization table: 64 `u16` entries, row-major (rule R22). -/
abbrev Table := Vector Entry 64

/-- One operation at the host port (20_memory.md section 4), by element index or by bus address. -/
inductive HostOp
  /-- `HostReadReg(k)`, rule R57. -/
  | readReg (k : Fin 16)
  /-- `HostWriteReg(k, v)`, rule R58. -/
  | writeReg (k : Fin 16) (v : Word)
  /-- `HostReadBlk(i)`, rule R59. -/
  | readBlk (i : Fin 64)
  /-- `HostWriteBlk(i, v)`, rule R59. -/
  | writeBlk (i : Fin 64) (v : Word)
  /-- `HostReadQT(t, i)`, rule R60. -/
  | readQT (t : TSel) (i : Fin 64)
  /-- A host write to the `QT` region, which is ignored, rule R60. -/
  | writeQT (t : TSel) (i : Fin 64) (v : Word)
  /-- `HostReadMem(m, a)`, rule R61; the memory is named by the selector of the plane it holds. -/
  | readMem (m : PSel) (a : Nat)
  /-- `HostWriteMem(m, a, v)`, rule R61. -/
  | writeMem (m : PSel) (a : Nat) (v : Byte)
  /-- A read of `n` bytes at a bus address, rules R53 and R55. -/
  | busRead (addr n : Nat)
  /-- A write of the low `n` bytes of `v` at a bus address, rules R53 and R55. -/
  | busWrite (addr n : Nat) (v : Word)
deriving DecidableEq, Repr

/-- What happens next: an operation of the host, a turn of the unit (its completion step where a command runs, rule
R182), or a hard reset (rule R230). -/
inductive Event
  | host (op : HostOp)
  | unit
  | hardReset
deriving DecidableEq, Repr

/-- The whole state. The fields down to `ecode` are the spec's (rule R20); `cfg`, `schedule`, `portData` and `draw` are
the model's own (log entries 2, 3, 8 and 5). -/
structure State where
  /-- The parameters of the step (rule R41). No step changes them. -/
  cfg : Config
  /-- `BLK[0..63]` (rule R21). -/
  blk : Block
  /-- `QT[0]` (rule R22). -/
  qt0 : Table
  /-- `QT[1]` (rule R22). -/
  qt1 : Table
  /-- `QTV[0]`, also seen as `STATUS.QTV0`. -/
  qtv0 : Bool
  /-- `QTV[1]`, also seen as `STATUS.QTV1`. -/
  qtv1 : Bool
  /-- `PIX`, `YP`, `CBP`, `CRP` (rule R31). -/
  pix : Memory
  yp  : Memory
  cbp : Memory
  crp : Memory
  /-- `CTRL` (rule R29). -/
  ctrl : Word
  /-- `CMD` (rule R32). -/
  cmd : Word
  /-- `WIDTH` and `HEIGHT` (rule R25). -/
  width  : Word
  height : Word
  /-- `FMT` (rule R26). -/
  fmt : Word
  /-- `QCFG` (rule R27). -/
  qcfg : Word
  /-- `STATUS.BUSY`, `DONE`, `ERR`, `OVR`, `NOOP`, `DCONLY` (rule R30). -/
  busy   : Bool
  done   : Bool
  err    : Bool
  ovr    : Bool
  noop   : Bool
  dconly : Bool
  /-- `STATUS.ECODE` (rules R30 and R201). -/
  ecode : BitVec 4
  /-- The events to come, next first: what the host will do and when the unit gets its turn (log entry 3). -/
  schedule : List Event
  /-- The data the host port gave at its last read, zero-extended (log entry 8). -/
  portData : Word
  /-- How many times unspecified contents have been drawn (log entry 5). -/
  draw : Nat
deriving DecidableEq, Repr

/-- The reasons the machine stops with a fault. There are none: what the spec calls an error is latched in `STATUS` and
the unit goes on (rules R200 and R208), and no access outside a memory occurs (rules R15 and R170). -/
inductive Fault
deriving DecidableEq, Repr

/-- The reasons the model gives a host access no step. The spec gives these accesses no meaning (93, U17 to U19), so a
stop is SAFE: nothing can be proved of what follows one. -/
inductive Refusal
  /-- No meaning for the instruction yet. Raised by no arm of `exec`. Safe. -/
  | notModelled (mnemonic : String)
  /-- The host reads or writes `BLK`, `QT` or a pixel memory, or writes `WIDTH`, `HEIGHT`, `FMT` or `QCFG`, while
  `STATUS.BUSY` = 1 (rules R62 and R236). Raised by the host operations. Safe. -/
  | hostAccessWhileBusy
  /-- The host names a pixel-memory index at or beyond the capacity (rule R61). Raised by `readMem`, `writeMem`. Safe. -/
  | hostIndexBeyondCapacity
  /-- A bus access of the wrong width or alignment for its region (rule R53). Raised by `busRead`, `busWrite`. Safe. -/
  | busWidthOrAlignment
  /-- A bus address in none of the unit's windows (rule R55): it does not reach the unit. Raised by `busRead`,
  `busWrite`. Safe. -/
  | busAddressUnmapped
deriving DecidableEq, Repr

/-- The state after reset. Control registers and status are rule R39's. The contents the spec leaves unspecified
(`BLK`, `QT`, the pixel memories) are zero: DESIGN CHOICE, log entry 1. The configuration is that of the spec's test
vectors: DESIGN CHOICE, log entry 2. Nothing is scheduled. -/
def State.reset : State where
  cfg := testConfig
  blk := Vector.replicate 64 0
  qt0 := Vector.replicate 64 0
  qt1 := Vector.replicate 64 0
  qtv0 := false
  qtv1 := false
  pix := []
  yp  := []
  cbp := []
  crp := []
  ctrl := 0
  cmd := 0
  width := 0
  height := 0
  fmt := 0
  qcfg := 0x00000064
  busy := false
  done := false
  err := false
  ovr := false
  noop := false
  dconly := false
  ecode := 0
  schedule := []
  portData := 0
  draw := 0

end Sys2Proof.Machine
end

