-- ==== Sys2Proof/Machine/Operands.lean ====
section
/-! DEFINITION. The operands of a command: the fields of the control registers (rules R25 to R28), the ratio (rule R35),
the plane a selector names with its geometry (rule R34), the table a selector names (rule R74), and the tile addressing
(rules R161, R162 and R164), the unit's one addressing mode (rule R174). -/

namespace Sys2Proof.Machine

/-- Writable bits of `CTRL`, `WIDTH`, `HEIGHT`, `FMT` and `QCFG` (rule R33). -/
def ctrlMask : Word := 0x00000001
def dimMask  : Word := 0x00007FFF
def fmtMask  : Word := 0x00000077
def qcfgMask : Word := 0x00000F7F

/-- W = `WIDTH[14:0]` (rule R25). -/
def State.imgW (s : State) : Nat := (s.width.extractLsb' 0 15).toNat

/-- H = `HEIGHT[14:0]` (rule R25). -/
def State.imgH (s : State) : Nat := (s.height.extractLsb' 0 15).toNat

/-- `FMT.CH`, bits [2:0] (rules R26 and R36). -/
def State.ch (s : State) : Nat := (s.fmt.extractLsb' 0 3).toNat

/-- `FMT.SUBSAMP`, bits [6:4] (rules R26 and R35). -/
def State.subsamp (s : State) : Nat := (s.fmt.extractLsb' 4 3).toNat

/-- `QCFG.QUALITY`, bits [6:0] (rule R27). -/
def State.quality (s : State) : Nat := (s.qcfg.extractLsb' 0 7).toNat

/-- `QCFG.PRESET`, bits [11:8] (rule R27). -/
def State.preset (s : State) : Nat := (s.qcfg.extractLsb' 8 4).toNat

/-- The factors (hor, ver) of a `SUBSAMP` code; code 7 is reserved (rule R35). -/
def ratioOf (code : Nat) : Option (Nat × Nat) :=
  match code with
  | 0 => some (1, 1)
  | 1 => some (1, 2)
  | 2 => some (1, 4)
  | 3 => some (2, 1)
  | 4 => some (2, 2)
  | 5 => some (4, 1)
  | 6 => some (4, 2)
  | _ => none

/-- The ratio `FMT.SUBSAMP` selects (rule R35). -/
def State.ratio (s : State) : Option (Nat × Nat) := ratioOf s.subsamp

/-- The size (width, height) of the chroma planes (rules R34 and R142); `none` for the reserved ratio. -/
def State.chromaDims (s : State) : Option (Nat × Nat) :=
  match s.ratio with
  | some (hor, ver) => some (cdiv s.imgW hor, cdiv s.imgH ver)
  | none => none

/-- (`pw(p)`, `ph(p)`) of rule R34; `none` where p is a chroma plane and the ratio is reserved. -/
def State.planeDims (s : State) (p : PSel) : Option (Nat × Nat) :=
  match p with
  | .y   => some (s.imgW, s.imgH)
  | .cb  => s.chromaDims
  | .cr  => s.chromaDims
  | .pix => some (s.imgW, s.imgH)

/-- `mem(p)` of rule R34. -/
def State.mem (s : State) (p : PSel) : Memory :=
  match p with
  | .y   => s.yp
  | .cb  => s.cbp
  | .cr  => s.crp
  | .pix => s.pix

/-- `mem(p)` replaced. -/
def State.setMem (s : State) (p : PSel) (m : Memory) : State :=
  match p with
  | .y   => { s with yp := m }
  | .cb  => { s with cbp := m }
  | .cr  => { s with crp := m }
  | .pix => { s with pix := m }

/-- The capacity of `mem(p)`: `PIX_BYTES` for `PIX`, else `PLANE_BYTES` (rules R31 and R206). -/
def capacity (c : Config) (p : PSel) : Nat :=
  match p with
  | .y   => c.planeBytes
  | .cb  => c.planeBytes
  | .cr  => c.planeBytes
  | .pix => c.pixBytes

/-- `QT[t]` (rules R22 and R74). -/
def State.table (s : State) (t : TSel) : Table :=
  match t with
  | .l => s.qt0
  | .c => s.qt1

/-- `QTV[t]` (rule R22). -/
def State.valid (s : State) (t : TSel) : Bool :=
  match t with
  | .l => s.qtv0
  | .c => s.qtv1

/-- `QT[t]` replaced and `QTV[t]` set. -/
def State.buildTable (s : State) (t : TSel) (v : Table) : State :=
  match t with
  | .l => { s with qt0 := v, qtv0 := true }
  | .c => { s with qt1 := v, qtv1 := true }

/-- `QT[t]` replaced, `QTV[t]` untouched. -/
def State.setTable (s : State) (t : TSel) (v : Table) : State :=
  match t with
  | .l => { s with qt0 := v }
  | .c => { s with qt1 := v }

/-- The matrix of flavour t of a preset: luma for `L`, chroma for `C` (rules R74 and R96). -/
def presetMatrix (p : Preset) (t : TSel) : Vector Nat 64 :=
  match t with
  | .l => p.luma
  | .c => p.chroma

/-- The number of block rows or block columns of a plane dimension: `nbr`, `nbc` of rule R161. -/
def blockCount (dim : Nat) : Nat := cdiv dim 8

/-- The effective address of the sample gathered for tile element `k` of block (br, bc) in a plane of width w and height
h: the coordinates clamped to the plane, then `y × w + x` (rule R162). -/
def gatherAddr (w h br bc k : Nat) : Nat :=
  min (8 * br + k / 8) (h - 1) * w + min (8 * bc + k % 8) (w - 1)

/-- The effective address tile element `k` is written back to, or `none` where the cell lies outside the plane (rule
R164). -/
def scatterAddr (w h br bc k : Nat) : Option Nat :=
  if 8 * br + k / 8 < h ∧ 8 * bc + k % 8 < w then some ((8 * br + k / 8) * w + (8 * bc + k % 8)) else none

/-- The tile gather `gather(p, br, bc)` with level shift -128 (rule R162). -/
def gather (m : Memory) (w h br bc : Nat) : Block :=
  Vector.ofFn fun k : Fin 64 => (Memory.read m (gatherAddr w h br bc k)).setWidth 32 - 128

/-- Element `k` of a block, 0 past its end. -/
def blockElem (b : Block) (k : Nat) : Word := b.toList.getD k 0

/-- The bounded write-back of rule R164: the low 8 bits of each in-bounds element. -/
def scatter (m : Memory) (w h br bc : Nat) (b : Block) : Memory :=
  Memory.writeMany m 64 (scatterAddr w h br bc) fun k => (blockElem b k).setWidth 8

end Sys2Proof.Machine
end

