-- ==== Sys2Proof/Machine/Flags.lean ====
section
/-! DEFINITION. `STATUS` (rules R30 and R40): the word a host reads, the write-one-to-clear write, and the error code.
`QTV[t]` is stored once and mirrored. -/

namespace Sys2Proof.Machine

/-- The number of an error code (rule R201). -/
def errNumber : ErrCode → Nat
  | .opc     => 1
  | .field   => 2
  | .dim     => 3
  | .fmt     => 4
  | .preset  => 5
  | .size    => 6
  | .noTable => 7
  | .range   => 8

/-- The `ECODE` field of an error code (rules R30 and R201). -/
def ecodeOf (e : ErrCode) : BitVec 4 := BitVec.ofNat 4 (errNumber e)

/-- A one-bit field as a number. -/
def bitOf (b : Bool) : Nat := if b then 1 else 0

/-- The 32-bit content of `STATUS`: `BUSY` [0], `DONE` [1], `ERR` [2], `OVR` [3], `NOOP` [4], `DCONLY` [5], `QTV0` [6],
`QTV1` [7], `ECODE` [11:8], the rest 0 (rule R30). -/
def State.statusWord (s : State) : Word :=
  BitVec.ofNat 32 (bitOf s.busy + 2 * bitOf s.done + 4 * bitOf s.err + 8 * bitOf s.ovr + 16 * bitOf s.noop
    + 32 * bitOf s.dconly + 64 * bitOf s.qtv0 + 128 * bitOf s.qtv1 + 256 * s.ecode.toNat)

/-- The host's acknowledgement of an error: `ERR` <- 0 and `ECODE` <- 0, the unit's return (rule R212). -/
def State.ackError (s : State) : State := { s with err := false, ecode := 0 }

/-- A host write of `v` to `STATUS`: clears those of `DONE`, `ERR`, `OVR` whose written bit is 1 (rules R30, R58). -/
def State.clearStatus (s : State) (v : Word) : State :=
  let s1 := if v.getLsbD 1 then { s with done := false } else s
  let s2 := if v.getLsbD 2 then s1.ackError else s1
  if v.getLsbD 3 then { s2 with ovr := false } else s2

/-- The interrupt line: `CTRL.IE` AND `STATUS.DONE` at every moment (rule R214). -/
def State.irq (s : State) : Bool := s.ctrl.getLsbD 0 && s.done

end Sys2Proof.Machine
end

