-- ==== Sys2Proof/Machine/Ops.lean ====
section
/-! DEFINITION. The operations every command shares: launch and completion (rule R182), taking an error (rule R208) and
the geometry checks (rules R146, R165, R206 and R209). -/

namespace Sys2Proof.Machine

/-- What evaluating a command's rule gives: the state with its writes, or the error it raises (rules R16 and R182). -/
abbrev Effect := Except ErrCode State

/-- Launch: the part of an accepted write of `w` to `CMD` (rule R182). -/
def State.launch (s : State) (w : Word) : State := { s with cmd := w, busy := true, done := false }

/-- Completion sets `BUSY` <- 0 and `DONE` <- 1 (rule R182). -/
def State.finish (s : State) : State := { s with busy := false, done := true }

/-- Taking an error, the unit's whole trap entry: the first un-cleared error is kept, the command ends, nothing else
changes (rule R208). -/
def State.raiseError (s : State) (e : ErrCode) : State :=
  if s.err then s.finish else { s with err := true, ecode := ecodeOf e }.finish

/-- The completion step on the state the command was evaluated in (rule R182): all its writes take effect, or none does
and the error is latched. -/
def complete (s : State) (r : Effect) : Host.Outcome State Fault Refusal :=
  .next (match r with
    | .ok t => t.finish
    | .error e => s.raiseError e)

/-- The word the running command was launched with, decoded (rules R182 and R80). A command is not fetched; it stands in
`CMD` (rule R67). -/
def State.runningCommand (s : State) : Except ErrCode Instr := decode s.cmd

/-- The checks of rule R165 for the plane of selector p, in its order; the size of the plane where all pass. -/
def State.planeChecked (s : State) (p : PSel) : Except ErrCode (Nat × Nat) :=
  if s.imgW = 0 ∨ s.imgH = 0 then .error .dim
  else if p = .pix ∧ ¬ (s.ch = 0 ∨ s.ch = 1) then .error .fmt
  else match s.planeDims p with
    | none => .error .fmt
    | some (w, h) => if capacity s.cfg p < w * h then .error .size else .ok (w, h)

/-- The checks of SPLIT and MERGE, in the order of rule R146; the ratio where all pass. -/
def State.colourChecked (s : State) : Except ErrCode (Nat × Nat) :=
  if s.imgW = 0 ∨ s.imgH = 0 then .error .dim
  else if s.ch ≠ 3 then .error .fmt
  else match s.ratio with
    | none => .error .fmt
    | some r =>
      if s.cfg.pixBytes < 3 * s.imgW * s.imgH ∨ s.cfg.planeBytes < s.imgW * s.imgH then .error .size else .ok r

end Sys2Proof.Machine
end

