-- ==== Sys2Proof/Machine/Colour.lean ====
section
/-! DEFINITION. The colour-plane codec and chroma subsampler: SPLIT, MERGE (42_colour.md). -/

namespace Sys2Proof.Machine

/-- Three samples: (Y, Cb, Cr) or (R, G, B). -/
structure Triple where
  fst : Byte
  snd : Byte
  trd : Byte
deriving DecidableEq, Repr

/-- A value of `Z` stored as a sample, as it is (rules R143 and R144). With constants other than the reference ones (93
U12) a forward value can leave 0..255, and the spec gives no byte for it: a free value (DESIGN CHOICE, log entry 25). -/
def toByte (z : Int) : Byte := if 0 ≤ z ∧ z ≤ 255 then BitVec.ofInt 8 z else Config.sampleBeyond z

/-- A value of `Z` clamped to 0..255 and stored as a sample (rule R148). -/
def clampedByte (z : Int) : Byte := BitVec.ofInt 8 (clamp8 z)

/-- The luma sample of rule R143, in `Z`. -/
def lumaOf (k : Num) (r g b : Int) : Int :=
  fdiv (k.yR * r + k.yG * g + k.yB * b + k.fwdRound) (2 ^ k.fwdShift)

/-- The Cb sample of rule R143, in `Z`; the bias is 128 in the fixed-point form of the forward weights. -/
def cbOf (k : Num) (r g b : Int) : Int :=
  fdiv (k.cbR * r + k.cbG * g + k.cbB * b + 128 * 2 ^ k.fwdShift + k.fwdRound) (2 ^ k.fwdShift)

/-- The Cr sample of rule R143, in `Z`. -/
def crOf (k : Num) (r g b : Int) : Int :=
  fdiv (k.crR * r + k.crG * g + k.crB * b + 128 * 2 ^ k.fwdShift + k.fwdRound) (2 ^ k.fwdShift)

/-- `rgb2ycc(R, G, B)` of rule R143. With the reference weights no value leaves 0..255 (rule R144). -/
def rgb2ycc (k : Num) (p : Triple) : Triple :=
  ⟨toByte (lumaOf k p.fst.toNat p.snd.toNat p.trd.toNat),
   toByte (cbOf k p.fst.toNat p.snd.toNat p.trd.toNat),
   toByte (crOf k p.fst.toNat p.snd.toNat p.trd.toNat)⟩

/-- The R, G and B values of rule R148 before the clamp, from Y and the centred chroma u, v. -/
def redOf (k : Num) (y v : Int) : Int := y + fdiv (k.rV * v + k.invRound) (2 ^ k.invShift)
def greenOf (k : Num) (y u v : Int) : Int := y + fdiv (k.gU * u + k.gV * v + k.invRound) (2 ^ k.invShift)
def blueOf (k : Num) (y u : Int) : Int := y + fdiv (k.bU * u + k.invRound) (2 ^ k.invShift)

/-- `ycc2rgb(Y, Cb, Cr)` of rule R148. -/
def ycc2rgb (k : Num) (p : Triple) : Triple :=
  ⟨clampedByte (redOf k p.fst.toNat ((p.trd.toNat : Int) - 128)),
   clampedByte (greenOf k p.fst.toNat ((p.snd.toNat : Int) - 128) ((p.trd.toNat : Int) - 128)),
   clampedByte (blueOf k p.fst.toNat ((p.snd.toNat : Int) - 128))⟩

/-- The pixel in raster position n of the interleaved buffer (rules R63 and R141). -/
def pixelAt (m : Memory) (n : Nat) : Triple :=
  ⟨Memory.read m (3 * n), Memory.read m (3 * n + 1), Memory.read m (3 * n + 2)⟩

/-- Component number c of three. -/
def Triple.get (p : Triple) (c : Nat) : Byte :=
  match c with
  | 0 => p.fst
  | 1 => p.snd
  | _ => p.trd

/-- Where SPLIT stores the chroma pair of the pixel in raster position n: the pixel is at (x, y) = (n % w, n / w), and
only the top-left pixel of a grid cell gives a pair (rules R142 and R145). -/
def chromaStore (w hor ver n : Nat) : Option Nat :=
  if (n / w) % ver = 0 ∧ (n % w) % hor = 0 then some ((n / w) / ver * cdiv w hor + (n % w) / hor) else none

/-- Where MERGE looks up the chroma pair of the pixel in raster position n (rule R147). -/
def chromaLookup (w hor ver n : Nat) : Nat := (n / w) / ver * cdiv w hor + (n % w) / hor

/-- SPLIT without its checks, at ratio (hor, ver) (rule R146). -/
def splitPlanes (hor ver : Nat) (s : State) : State :=
  let w := s.imgW
  let n := w * s.imgH
  let ycc := fun j => rgb2ycc s.cfg.num (pixelAt s.pix j)
  { s with
    yp  := Memory.writeMany s.yp n some fun j => (ycc j).fst
    cbp := Memory.writeMany s.cbp n (chromaStore w hor ver) fun j => (ycc j).snd
    crp := Memory.writeMany s.crp n (chromaStore w hor ver) fun j => (ycc j).trd }

/-- The pixel MERGE reconstructs in raster position n (rule R149). -/
def mergedPixel (hor ver : Nat) (s : State) (n : Nat) : Triple :=
  ycc2rgb s.cfg.num
    ⟨Memory.read s.yp n, Memory.read s.cbp (chromaLookup s.imgW hor ver n),
     Memory.read s.crp (chromaLookup s.imgW hor ver n)⟩

/-- MERGE without its checks, at ratio (hor, ver) (rule R149): byte k of the buffer is channel k % 3 of pixel k / 3. -/
def mergePlanes (hor ver : Nat) (s : State) : State :=
  { s with
    pix := Memory.writeMany s.pix (3 * (s.imgW * s.imgH)) some fun k => (mergedPixel hor ver s (k / 3)).get (k % 3) }

/-- SPLIT (rule R146). -/
def effSplit (s : State) : Effect :=
  match s.colourChecked with
  | .error e => .error e
  | .ok (hor, ver) => .ok (splitPlanes hor ver s)

/-- MERGE (rule R149). -/
def effMerge (s : State) : Effect :=
  match s.colourChecked with
  | .error e => .error e
  | .ok (hor, ver) => .ok (mergePlanes hor ver s)

/-- The completion of SPLIT. -/
def execSplit (s : State) : Host.Outcome State Fault Refusal := complete s (effSplit s)

/-- The completion of MERGE. -/
def execMerge (s : State) : Host.Outcome State Fault Refusal := complete s (effMerge s)

end Sys2Proof.Machine
end

