-- ==== Sys2Proof/Machine/Butterfly.lean ====
section
/-! DEFINITION. The forward and the inverse butterfly and the passes over a block (41_dct.md rules R111 to R122). -/

namespace Sys2Proof.Machine

/-- Eight `i32` values: a row or a column of a block. -/
structure Oct where
  x0 : Word
  x1 : Word
  x2 : Word
  x3 : Word
  x4 : Word
  x5 : Word
  x6 : Word
  x7 : Word
deriving DecidableEq, Repr

/-- Value number k of eight. -/
def Oct.get (o : Oct) (k : Nat) : Word :=
  match k with
  | 0 => o.x0
  | 1 => o.x1
  | 2 => o.x2
  | 3 => o.x3
  | 4 => o.x4
  | 5 => o.x5
  | 6 => o.x6
  | _ => o.x7

/-- Row r of a block (rule R17). -/
def blockRow (b : Block) (r : Nat) : Oct :=
  ⟨blockElem b (8 * r), blockElem b (8 * r + 1), blockElem b (8 * r + 2), blockElem b (8 * r + 3),
   blockElem b (8 * r + 4), blockElem b (8 * r + 5), blockElem b (8 * r + 6), blockElem b (8 * r + 7)⟩

/-- Column c of a block (rule R17). -/
def blockCol (b : Block) (c : Nat) : Oct :=
  ⟨blockElem b c, blockElem b (8 + c), blockElem b (16 + c), blockElem b (24 + c),
   blockElem b (32 + c), blockElem b (40 + c), blockElem b (48 + c), blockElem b (56 + c)⟩

/-- The block whose row r is `f r`. -/
def ofRows (f : Nat → Oct) : Block := Vector.ofFn fun i : Fin 64 => (f (i.val / 8)).get (i.val % 8)

/-- The block whose column c is `f c`. -/
def ofCols (f : Nat → Oct) : Block := Vector.ofFn fun i : Fin 64 => (f (i.val % 8)).get (i.val / 8)

/-- `FB(d, n, first)`: the forward butterfly of rule R111. -/
def fwdButterfly (k : Num) (d : Oct) (n : Nat) (first : Bool) : Oct :=
  let t0 := d.x0 + d.x7
  let t7 := d.x0 - d.x7
  let t1 := d.x1 + d.x6
  let t6 := d.x1 - d.x6
  let t2 := d.x2 + d.x5
  let t5 := d.x2 - d.x5
  let t3 := d.x3 + d.x4
  let t4 := d.x3 - d.x4
  -- even part
  let t10 := t0 + t3
  let t13 := t0 - t3
  let t11 := t1 + t2
  let t12 := t1 - t2
  let o0 := if first then shl32 (t10 + t11) k.pass1Bits else descale (t10 + t11) k.pass1Bits
  let o4 := if first then shl32 (t10 - t11) k.pass1Bits else descale (t10 - t11) k.pass1Bits
  let e1 := (t12 + t13) * k.fix_0_541196100
  let o2 := descale (e1 + t13 * k.fix_0_765366865) n
  let o6 := descale (e1 + t12 * (-k.fix_1_847759065)) n
  -- odd part
  let z1 := t4 + t7
  let z2 := t5 + t6
  let z3 := t4 + t6
  let z4 := t5 + t7
  let z5 := (z3 + z4) * k.fix_1_175875602
  let m4 := t4 * k.fix_0_298631336
  let m5 := t5 * k.fix_2_053119869
  let m6 := t6 * k.fix_3_072711026
  let m7 := t7 * k.fix_1_501321110
  let y1 := z1 * (-k.fix_0_899976223)
  let y2 := z2 * (-k.fix_2_562915447)
  let y3 := z3 * (-k.fix_1_961570560) + z5
  let y4 := z4 * (-k.fix_0_390180644) + z5
  let o7 := descale (m4 + y1 + y3) n
  let o5 := descale (m5 + y2 + y4) n
  let o3 := descale (m6 + y2 + y3) n
  let o1 := descale (m7 + y1 + y4) n
  ⟨o0, o1, o2, o3, o4, o5, o6, o7⟩

/-- Forward pass 1, rows (rule R112). A negative shift count is held as 0, which is as much outside rule R12's range. -/
def fwdPass1 (k : Num) (b : Block) : Block :=
  ofRows fun r => fwdButterfly k (blockRow b r) (k.constBits - k.pass1Bits) true

/-- Forward pass 2, columns (rule R113). -/
def fwdPass2 (k : Num) (b : Block) : Block :=
  ofCols fun c => fwdButterfly k (blockCol b c) (k.constBits + k.pass1Bits) false

/-- The forward transform of a block: rows, then columns (rule R114). -/
def fdctBlock (k : Num) (b : Block) : Block := fwdPass2 k (fwdPass1 k b)

/-- `IB(x, n)`: the inverse butterfly of rule R119. -/
def invButterfly (k : Num) (x : Oct) (n : Nat) : Oct :=
  -- even part
  let e1 := (x.x2 + x.x6) * k.fix_0_541196100
  let t2 := e1 + x.x6 * (-k.fix_1_847759065)
  let t3 := e1 + x.x2 * k.fix_0_765366865
  let t0 := shl32 (x.x0 + x.x4) k.constBits
  let t1 := shl32 (x.x0 - x.x4) k.constBits
  let t10 := t0 + t3
  let t13 := t0 - t3
  let t11 := t1 + t2
  let t12 := t1 - t2
  -- odd part
  let u0 := x.x7
  let u1 := x.x5
  let u2 := x.x3
  let u3 := x.x1
  let z1 := u0 + u3
  let z2 := u1 + u2
  let z3 := u0 + u2
  let z4 := u1 + u3
  let z5 := (z3 + z4) * k.fix_1_175875602
  let m0 := u0 * k.fix_0_298631336
  let m1 := u1 * k.fix_2_053119869
  let m2 := u2 * k.fix_3_072711026
  let m3 := u3 * k.fix_1_501321110
  let y1 := z1 * (-k.fix_0_899976223)
  let y2 := z2 * (-k.fix_2_562915447)
  let y3 := z3 * (-k.fix_1_961570560) + z5
  let y4 := z4 * (-k.fix_0_390180644) + z5
  let v0 := m0 + y1 + y3
  let v1 := m1 + y2 + y4
  let v2 := m2 + y2 + y3
  let v3 := m3 + y1 + y4
  -- output stage
  ⟨descale (t10 + v3) n, descale (t11 + v2) n, descale (t12 + v1) n, descale (t13 + v0) n,
   descale (t13 - v0) n, descale (t12 - v1) n, descale (t11 - v2) n, descale (t10 - v3) n⟩

/-- The descale shift of inverse pass 1: `CONST_BITS - PASS1_BITS + OUT_BITS` (rule R120), a negative count held as 0,
which is as much outside rule R12's range. -/
def invShift1 (k : Num) : Nat := k.constBits + k.outBits - k.pass1Bits

/-- The descale shift of inverse pass 2: `CONST_BITS + PASS1_BITS + 3` (rule R120). -/
def invShift2 (k : Num) : Nat := k.constBits + k.pass1Bits + 3

/-- Inverse pass 1, columns (rule R120). -/
def invPass1 (k : Num) (b : Block) : Block := ofCols fun c => invButterfly k (blockCol b c) (invShift1 k)

/-- Inverse pass 2, rows (rule R120). -/
def invPass2 (k : Num) (b : Block) : Block := ofRows fun r => invButterfly k (blockRow b r) (invShift2 k)

/-- The inverse level shift and the clamp to a sample, on the wrapped sum (rules R120 and R125). -/
def levelUp (v : Word) : Word := BitVec.ofInt 32 (clamp8 (v + 128).toInt)

/-- The general path of the inverse transform (rule R120). -/
def idctGeneral (k : Num) (b : Block) : Block :=
  let v := invPass2 k (invPass1 k b)
  Vector.ofFn fun i : Fin 64 => levelUp v[i]

/-- The sample of the DC-only fast path (rule R121). -/
def dcSample (k : Num) (dc : Word) : Word :=
  let w0 := descale (shl32 dc k.constBits) (invShift1 k)
  levelUp (descale (shl32 w0 k.constBits) (invShift2 k))

/-- The DC-only fast path (rule R121). -/
def idctFast (k : Num) (b : Block) : Block := Vector.replicate 64 (dcSample k b[0])

/-- The condition of the fast path: every element but element 0 is zero (rule R121). -/
abbrev AcZero (b : Block) : Prop := ∀ i : Fin 64, 0 < i.val → b[i] = 0

/-- The inverse transform of a block: the samples and whether the fast path was taken (rule R123). -/
def idctBlock (k : Num) (b : Block) : Block × Bool :=
  if AcZero b then (idctFast k b, true) else (idctGeneral k b, false)

end Sys2Proof.Machine
end

