-- ==== Sys2Proof/Machine/QTable.lean ====
section
/-! DEFINITION. The quantization-table generator and the block quantizer and dequantizer: QTGEN, QUANT, DEQUANT
(40_qtable.md). -/

namespace Sys2Proof.Machine

/-- `Qeff` = `clamp(QUALITY, 1, 100)` (rule R91). -/
def effectiveQuality (quality : Nat) : Nat := clampNat quality 1 100

/-- The scale factor S(q) of rule R92, in `Z`. -/
def scaleFactor (k : Num) (q : Nat) : Int := if q < k.qSeam then fdiv k.qLow q else k.qHigh - k.qSlope * q

/-- The quotient that rule R97 clamps, in `Z`. A step divisor of 0, which the reference constants do not have, is outside
rule R13: a free value (DESIGN CHOICE, log entry 25). -/
def stepQuotient (k : Num) (base q : Nat) : Int :=
  if k.stepDivisor = 0 then Config.quotientByZeroDivisor (base * scaleFactor k q + k.stepRound)
  else fdiv (base * scaleFactor k q + k.stepRound) k.stepDivisor

/-- `step(p, l, i)` of rule R97, from the base entry and the effective quality: both bounds of the clamp are natural
numbers, so the step is one. -/
def tableStep (k : Num) (base q : Nat) : Nat := (clamp (stepQuotient k base q) k.stepMin k.stepMax).toNat

/-- The `u16` that holds a table entry; a free value for one beyond 65535, which the reference constants never give
(DESIGN CHOICE, log entry 25). -/
def entryWord (n : Nat) : Entry := if n < 65536 then BitVec.ofNat 16 n else Config.entryBeyond n

/-- `entry(p, l, i)` of rule R98: the step times 2^`OUT_BITS`, held as a `u16`. -/
def tableEntry (k : Num) (base q : Nat) : Entry := entryWord (tableStep k base q * 2 ^ k.outBits)

/-- The table of flavour t that QTGEN builds from a preset and the value of `QUALITY` (rules R96 to R100). -/
def generatedTable (k : Num) (p : Preset) (t : TSel) (quality : Nat) : Table :=
  Vector.ofFn fun i : Fin 64 => tableEntry k (presetMatrix p t)[i] (effectiveQuality quality)

/-- QTGEN t without its check, from the preset already looked up (rule R100). -/
def buildFrom (p : Preset) (t : TSel) (s : State) : State :=
  s.buildTable t (generatedTable s.cfg.num p t s.quality)

/-- QTGEN t (rule R100). -/
def effQtgen (t : TSel) (s : State) : Effect :=
  match presetOf s.cfg s.preset with
  | none => .error .preset
  | some p => .ok (buildFrom p t s)

/-- The quotient of rule R101 in `Z`: round to nearest, ties away from zero. -/
def quotient (c : Word) (T : Nat) : Int :=
  if 0 ≤ c.toInt then ((c.toInt.natAbs + T / 2) / T : Nat) else -((c.toInt.natAbs + T / 2) / T : Nat)

/-- `quantize(c, T)` of rule R101: the low 16 bits of the quotient, sign-extended. A zero entry, which no run holds in a
valid table, gives a free value (log entry 13). -/
def quantize (c : Word) (T : Entry) : Word :=
  if T = 0 then Config.quotientByZero c else sext16 (quotient c T.toNat)

/-- `dequantize(q, T)` = `mul32(q, T)` of rule R103. -/
def dequantize (q : Word) (T : Entry) : Word := q * T.setWidth 32

/-- QUANT on a block (rule R102). -/
def quantBlock (t : Table) (b : Block) : Block := Vector.ofFn fun i : Fin 64 => quantize b[i] t[i]

/-- DEQUANT on a block (rule R104). -/
def dequantBlock (t : Table) (b : Block) : Block := Vector.ofFn fun i : Fin 64 => dequantize b[i] t[i]

/-- QUANT t (rule R102). -/
def effQuant (t : TSel) (s : State) : Effect :=
  if s.valid t then .ok { s with blk := quantBlock (s.table t) s.blk } else .error .noTable

/-- DEQUANT t (rule R104). -/
def effDequant (t : TSel) (s : State) : Effect :=
  if s.valid t then .ok { s with blk := dequantBlock (s.table t) s.blk } else .error .noTable

/-- The completion of QTGEN t. -/
def execQtgen (t : TSel) (s : State) : Host.Outcome State Fault Refusal := complete s (effQtgen t s)

/-- The completion of QUANT t. -/
def execQuant (t : TSel) (s : State) : Host.Outcome State Fault Refusal := complete s (effQuant t s)

/-- The completion of DEQUANT t. -/
def execDequant (t : TSel) (s : State) : Host.Outcome State Fault Refusal := complete s (effDequant t s)

end Sys2Proof.Machine
end

