-- ==== Sys2Proof/Machine/Dct.lean ====
section
/-! DEFINITION. FDCT, IDCT and XFORM (41_dct.md). -/

namespace Sys2Proof.Machine

/-- The Block Transform of rule R127: forward transform, quantize, dequantize, inverse transform. -/
def transformBlock (k : Num) (t : Table) (b : Block) : Block × Bool :=
  idctBlock k (dequantBlock t (quantBlock t (fdctBlock k b)))

/-- FDCT (rule R114). -/
def effFdct (s : State) : Effect := .ok { s with blk := fdctBlock s.cfg.num s.blk }

/-- IDCT (rule R123). -/
def effIdct (s : State) : Effect :=
  .ok { s with blk := (idctBlock s.cfg.num s.blk).1, dconly := (idctBlock s.cfg.num s.blk).2 }

/-- XFORM t (rule R127). -/
def effXform (t : TSel) (s : State) : Effect :=
  if s.valid t then
    .ok { s with
      blk := (transformBlock s.cfg.num (s.table t) s.blk).1
      dconly := (transformBlock s.cfg.num (s.table t) s.blk).2 }
  else .error .noTable

/-- The completion of FDCT. -/
def execFdct (s : State) : Host.Outcome State Fault Refusal := complete s (effFdct s)

/-- The completion of IDCT. -/
def execIdct (s : State) : Host.Outcome State Fault Refusal := complete s (effIdct s)

/-- The completion of XFORM t. -/
def execXform (t : TSel) (s : State) : Host.Outcome State Fault Refusal := complete s (effXform t s)

end Sys2Proof.Machine
end

