-- ==== Sys2Proof/Machine/Tiler.lean ====
section
/-! DEFINITION. The block tiler and edge-clamp controller: LDBLK, STBLK, CPLANE (43_tiler.md). -/

namespace Sys2Proof.Machine

/-- LDBLK p, br, bc (rule R163). -/
def effLdblk (p : PSel) (br bc : Nat) (s : State) : Effect :=
  match s.planeChecked p with
  | .error e => .error e
  | .ok (w, h) =>
    if blockCount h ≤ br ∨ blockCount w ≤ bc then .error .range
    else .ok { s with blk := gather (s.mem p) w h br bc }

/-- STBLK p, br, bc (rule R164). -/
def effStblk (p : PSel) (br bc : Nat) (s : State) : Effect :=
  match s.planeChecked p with
  | .error e => .error e
  | .ok (w, h) =>
    if blockCount h ≤ br ∨ blockCount w ≤ bc then .error .range
    else .ok (s.setMem p (scatter (s.mem p) w h br bc s.blk))

/-- What the loop of CPLANE carries from block to block: the plane's memory, and the leftovers `BLK` and `DCONLY` (rules
R172 and R173). -/
structure PlaneRun where
  mem    : Memory
  blk    : Block
  dconly : Bool
deriving DecidableEq, Repr

/-- One block of CPLANE: gather, transform, write back (rule R166). -/
def planeBlock (k : Num) (t : Table) (w h br bc : Nat) (r : PlaneRun) : PlaneRun :=
  let x := transformBlock k t (gather r.mem w h br bc)
  { mem := scatter r.mem w h br bc x.1, blk := x.1, dconly := x.2 }

/-- The loop of CPLANE over the blocks in raster order (rules R166 and R167): block number n is block
(n / nbc, n % nbc). -/
def planeLoop (k : Num) (t : Table) (w h : Nat) (r : PlaneRun) : PlaneRun :=
  (List.range (blockCount h * blockCount w)).foldl
    (fun r n => planeBlock k t w h (n / blockCount w) (n % blockCount w) r) r

/-- CPLANE p, t without its checks, on a plane of width w and height h (rule R166). -/
def compressPlane (p : PSel) (t : TSel) (w h : Nat) (s : State) : State :=
  let r := planeLoop s.cfg.num (s.table t) w h { mem := s.mem p, blk := s.blk, dconly := s.dconly }
  { s.setMem p r.mem with blk := r.blk, dconly := r.dconly }

/-- CPLANE p, t (rule R166). -/
def effCplane (p : PSel) (t : TSel) (s : State) : Effect :=
  match s.planeChecked p with
  | .error e => .error e
  | .ok (w, h) => if s.valid t then .ok (compressPlane p t w h s) else .error .noTable

/-- The completion of LDBLK p, br, bc. -/
def execLdblk (p : PSel) (br bc : Nat) (s : State) : Host.Outcome State Fault Refusal := complete s (effLdblk p br bc s)

/-- The completion of STBLK p, br, bc. -/
def execStblk (p : PSel) (br bc : Nat) (s : State) : Host.Outcome State Fault Refusal := complete s (effStblk p br bc s)

/-- The completion of CPLANE p, t. -/
def execCplane (p : PSel) (t : TSel) (s : State) : Host.Outcome State Fault Refusal := complete s (effCplane p t s)

end Sys2Proof.Machine
end

