-- ==== Sys2Proof/Machine/Sequencer.lean ====
section
/-! DEFINITION. The sequencer's own commands: NOP and COMPRESS (44_sequencer.md). -/

namespace Sys2Proof.Machine

/-- NOP (rule R183): nothing beside the completion every command has. -/
def effNop (s : State) : Effect := .ok s

/-- The path COMPRESS takes (rule R184). -/
inductive Path
  /-- `FMT.CH` = 3 (rule R187). -/
  | colour
  /-- `FMT.CH` in {0, 1} (rule R185). -/
  | gray
  /-- Every other channel count (rule R186). -/
  | passThrough
deriving DecidableEq, Repr

/-- The dispatch of COMPRESS on `FMT.CH` (rule R184). -/
def compressPath (ch : Nat) : Path :=
  if ch = 3 then .colour else if ch = 0 ∨ ch = 1 then .gray else .passThrough

/-- Both tables built from one preset: `QTGEN L`, then `QTGEN C` (rule R188). -/
def buildBoth (p : Preset) (s : State) : State := buildFrom p .c (buildFrom p .l s)

/-- The gray path (rule R185). -/
def effGray (s : State) : Effect :=
  if s.imgW = 0 ∨ s.imgH = 0 then .error .dim
  else match presetOf s.cfg s.preset with
    | none => .error .preset
    | some p =>
      if s.cfg.pixBytes < s.imgW * s.imgH then .error .size
      else .ok (compressPlane .pix .l s.imgW s.imgH (buildBoth p { s with noop := false }))

/-- The work of the colour path once every check has passed (rule R187): SPLIT, both tables, the three planes, MERGE. -/
def colourPath (p : Preset) (hor ver : Nat) (s : State) : State :=
  let cw := cdiv s.imgW hor
  let ch := cdiv s.imgH ver
  let s1 := splitPlanes hor ver { s with noop := false }
  let s2 := buildBoth p s1
  let s3 := compressPlane .y .l s.imgW s.imgH s2
  let s4 := compressPlane .cb .c cw ch s3
  let s5 := compressPlane .cr .c cw ch s4
  mergePlanes hor ver s5

/-- The colour path (rule R187). -/
def effColour (s : State) : Effect :=
  if s.imgW = 0 ∨ s.imgH = 0 then .error .dim
  else match s.ratio with
    | none => .error .fmt
    | some (hor, ver) =>
      match presetOf s.cfg s.preset with
      | none => .error .preset
      | some p =>
        if s.cfg.pixBytes < 3 * s.imgW * s.imgH ∨ s.cfg.planeBytes < s.imgW * s.imgH then .error .size
        else .ok (colourPath p hor ver s)

/-- COMPRESS (rules R184 to R188). -/
def effCompress (s : State) : Effect :=
  match compressPath s.ch with
  | .colour => effColour s
  | .gray => effGray s
  | .passThrough => .ok { s with noop := true }

/-- The completion of NOP. -/
def execNop (s : State) : Host.Outcome State Fault Refusal := complete s (effNop s)

/-- The completion of COMPRESS. -/
def execCompress (s : State) : Host.Outcome State Fault Refusal := complete s (effCompress s)

end Sys2Proof.Machine
end

