-- ==== Sys2Proof/Machine/Dispatch.lean ====
section
/-! DEFINITION. The completion of a decoded command: one arm per constructor of `Instr` (rule R76). -/

namespace Sys2Proof.Machine

def exec (i : Instr) (s : State) : Host.Outcome State Fault Refusal :=
  match i with
  | .nop => Sys2Proof.Machine.execNop s
  | .qtgen t => Sys2Proof.Machine.execQtgen t s
  | .fdct => Sys2Proof.Machine.execFdct s
  | .quant t => Sys2Proof.Machine.execQuant t s
  | .dequant t => Sys2Proof.Machine.execDequant t s
  | .idct => Sys2Proof.Machine.execIdct s
  | .xform t => Sys2Proof.Machine.execXform t s
  | .ldblk p br bc => Sys2Proof.Machine.execLdblk p br bc s
  | .stblk p br bc => Sys2Proof.Machine.execStblk p br bc s
  | .cplane p t => Sys2Proof.Machine.execCplane p t s
  | .split => Sys2Proof.Machine.execSplit s
  | .merge => Sys2Proof.Machine.execMerge s
  | .compress => Sys2Proof.Machine.execCompress s

end Sys2Proof.Machine
end

