-- ==== Sys2Proof/Machine/ResetEvents.lean ====
section
/-! DEFINITION. Hard reset, soft reset, and what a reset leaves of a command it abandons (70_reset_and_hazards.md).
Contents the spec calls unspecified become free values: `Config.freeWord`, `freeEntry` and `freeByte` of the current
draw number, which the event then advances (log entries 5 and 6). -/

namespace Sys2Proof.Machine

/-- `BLK` with unspecified contents. -/
def State.loseBlk (s : State) : State := { s with blk := Vector.ofFn fun i : Fin 64 => Config.freeWord s.draw i }

/-- A table with unspecified contents. -/
def lostTable (draw : Nat) (t : TSel) : Table := Vector.ofFn fun i : Fin 64 => Config.freeEntry draw t.code i

/-- `QT[t]` with unspecified contents. -/
def State.loseTable (s : State) (t : TSel) : State := s.setTable t (lostTable s.draw t)

/-- The first n bytes of `mem(p)`, as far as the memory reaches, with unspecified contents. -/
def State.loseBytes (s : State) (p : PSel) (n : Nat) : State :=
  s.setMem p (Memory.writeMany (s.mem p) (min n (capacity s.cfg p)) some (Config.freeByte s.draw p.code))

/-- The whole of `mem(p)` with unspecified contents. -/
def State.loseMemory (s : State) (p : PSel) : State := s.loseBytes p (capacity s.cfg p)

/-- The cells of `mem(p)` inside block (br, bc), as far as the memory reaches, with unspecified contents. For a chroma
plane at the reserved ratio rule R193 gives the block no range: the whole memory (DESIGN CHOICE, log entry 6). -/
def State.loseTile (s : State) (p : PSel) (br bc : Nat) : State :=
  match s.planeDims p with
  | none => s.loseMemory p
  | some (w, h) =>
    s.setMem p (Memory.writeMany (s.mem p) 64
      (fun k => (scatterAddr w h br bc k).filter fun a => decide (a < capacity s.cfg p))
      (Config.freeByte s.draw p.code))

/-- The plane of selector p with unspecified contents; the whole memory for a chroma plane at the reserved ratio, to which
rule R193 gives no range (DESIGN CHOICE, log entry 6). -/
def State.losePlane (s : State) (p : PSel) : State :=
  match s.planeDims p with
  | none => s.loseMemory p
  | some (w, h) => s.loseBytes p (w * h)

/-- The three planes SPLIT writes, with unspecified contents. -/
def State.loseColour (s : State) : State := ((s.losePlane .y).losePlane .cb).losePlane .cr

/-- What the colour path of COMPRESS may have written: the buffer, and the three plane memories, for which the write column
of rule R193 names no range. -/
def State.loseColourPath (s : State) : State :=
  (((s.loseBytes .pix (3 * (s.imgW * s.imgH))).loseMemory .y).loseMemory .cb).loseMemory .cr

/-- The memories, `BLK` and `QT` of the write column of rule R193 for a command, with unspecified contents (rule
R232). -/
def State.loseWritesOf (s : State) (i : Instr) : State :=
  match i with
  | .nop           => s
  | .qtgen t       => s.loseTable t
  | .fdct          => s.loseBlk
  | .quant _       => s.loseBlk
  | .dequant _     => s.loseBlk
  | .idct          => s.loseBlk
  | .xform _       => s.loseBlk
  | .ldblk _ _ _   => s.loseBlk
  | .stblk p br bc => s.loseTile p br bc
  | .cplane p _    => (s.losePlane p).loseBlk
  | .split         => s.loseColour
  | .merge         => s.loseBytes .pix (3 * (s.imgW * s.imgH))
  | .compress      =>
    match compressPath s.ch with
    | .passThrough => s
    | .gray   => (((s.losePlane .pix).loseTable .l).loseTable .c).loseBlk
    | .colour => ((s.loseColourPath.loseTable .l).loseTable .c).loseBlk

/-- A reset while a command runs abandons it (rule R232). An illegal word has no write column. -/
def State.abandon (s : State) : State :=
  if s.busy then
    match s.runningCommand with
    | .ok i => { s.loseWritesOf i with draw := s.draw + 1 }
    | .error _ => s
  else s

/-- The control registers, `STATUS` and the valid bits at their reset values (rules R39, R230 and R231). -/
def State.resetRegisters (s : State) : State :=
  { s with
    ctrl := 0, cmd := 0, width := 0, height := 0, fmt := 0, qcfg := 0x00000064
    busy := false, done := false, err := false, ovr := false, noop := false, dconly := false, ecode := 0
    qtv0 := false, qtv1 := false }

/-- Soft reset (rule R231): idle, it keeps `BLK`, `QT` and the pixel memories. -/
def State.softReset (s : State) : State := s.abandon.resetRegisters

/-- A whole memory of unspecified contents. -/
def lostMemory (c : Config) (draw : Nat) (p : PSel) : Memory :=
  Memory.writeMany [] (capacity c p) some (Config.freeByte draw p.code)

/-- Hard reset (rule R230): registers at their reset values, every content unspecified. -/
def State.hardReset (s : State) : State :=
  { s.resetRegisters with
    blk := Vector.ofFn fun i : Fin 64 => Config.freeWord s.draw i
    qt0 := lostTable s.draw .l
    qt1 := lostTable s.draw .c
    pix := lostMemory s.cfg s.draw .pix
    yp  := lostMemory s.cfg s.draw .y
    cbp := lostMemory s.cfg s.draw .cb
    crp := lostMemory s.cfg s.draw .cr
    draw := s.draw + 1 }

end Sys2Proof.Machine
end

