-- ==== Sys2Proof/Machine/HostPort.lean ====
section
/-! DEFINITION. The host port (20_memory.md): reads and writes of registers, `BLK`, `QT` and the pixel memories, the
byte-addressed bus in front of them, and the directives of rule R83. -/

namespace Sys2Proof.Machine

/-- `CPW` and `CPH`: the chroma plane size at the time of the read, 0 for the reserved ratio (rule R28). -/
def State.cpw (s : State) : Word :=
  match s.chromaDims with
  | some (w, _) => BitVec.ofNat 32 w
  | none => 0
def State.cph (s : State) : Word :=
  match s.chromaDims with
  | some (_, h) => BitVec.ofNat 32 h
  | none => 0

/-- The content of register k, as `HostReadReg` returns it (rules R24 and R57). -/
def State.readReg (s : State) (k : Fin 16) : Word :=
  match k.val with
  | 0 => s.ctrl
  | 1 => s.statusWord
  | 2 => s.cmd
  | 3 => s.width
  | 4 => s.height
  | 5 => s.fmt
  | 6 => s.qcfg
  | 7 => s.cpw
  | 8 => s.cph
  | _ => 0

/-- The host port's answer to a read: the data, and no other change (rule R54). -/
def answer (s : State) (v : Word) : Host.Outcome State Fault Refusal := .next { s with portData := v }

/-- An access allowed only while no command runs (rule R62, U17). Only `BUSY` is tested: after the completion the host's
access has its step although no read of `STATUS` has yet returned `DONE` = 1, which rules R65 and R236 ask the host to wait
for (DEDUCED, unsafe, log entry 26). -/
def whileIdle (s : State) (r : Host.Outcome State Fault Refusal) : Host.Outcome State Fault Refusal :=
  if s.busy then .refused .hostAccessWhileBusy else r

/-- A write of `v` to `CTRL` (rules R29, R58 and R231). -/
def State.writeCtrl (s : State) (v : Word) : State :=
  if v.getLsbD 1 then s.softReset else { s with ctrl := v &&& ctrlMask }

/-- A write of `w` to `CMD`: a launch, or an overrun while a command runs (rules R32, R182 and R215). -/
def State.writeCmd (s : State) (w : Word) : State :=
  if s.busy then { s with ovr := true } else s.launch w

/-- `HostWriteReg(k, v)` (rule R58). -/
def hostWriteReg (k : Fin 16) (v : Word) (s : State) : Host.Outcome State Fault Refusal :=
  match k.val with
  | 0 => .next (s.writeCtrl v)
  | 1 => .next (s.clearStatus v)
  | 2 => .next (s.writeCmd v)
  | 3 => whileIdle s (.next { s with width := v &&& dimMask })
  | 4 => whileIdle s (.next { s with height := v &&& dimMask })
  | 5 => whileIdle s (.next { s with fmt := v &&& fmtMask })
  | 6 => whileIdle s (.next { s with qcfg := v &&& qcfgMask })
  | _ => .next s

/-- What `HostReadQT(t, i)` returns: the entry where the table is valid, else an unspecified value (rule R60). The spec
relates that value to nothing; the model lets it depend on the draw number, the place and the entry held, so that reading
twice gives the same answer, and relates it to no content a reset leaves (DESIGN CHOICE, log entry 7). -/
def State.readQT (s : State) (t : TSel) (i : Fin 64) : Word :=
  if s.valid t then (s.table t)[i].setWidth 32 else (Config.unbuiltEntry s.draw t.code i (s.table t)[i]).setWidth 32

/-- `HostReadBlk(i)` (rule R59). -/
def hostReadBlk (i : Fin 64) (s : State) : Host.Outcome State Fault Refusal := whileIdle s (answer s s.blk[i])

/-- `HostWriteBlk(i, v)` (rule R59). -/
def hostWriteBlk (i : Fin 64) (v : Word) (s : State) : Host.Outcome State Fault Refusal :=
  whileIdle s (.next { s with blk := s.blk.set i v })

/-- `HostReadQT(t, i)` (rule R60). -/
def hostReadQT (t : TSel) (i : Fin 64) (s : State) : Host.Outcome State Fault Refusal :=
  whileIdle s (answer s (s.readQT t i))

/-- A host write to the `QT` region is ignored (rule R60). -/
def hostWriteQT (s : State) : Host.Outcome State Fault Refusal := whileIdle s (.next s)

/-- `HostReadMem(m, a)` (rule R61). -/
def hostReadMem (m : PSel) (a : Nat) (s : State) : Host.Outcome State Fault Refusal :=
  whileIdle s
    (if a < capacity s.cfg m then answer s ((Memory.read (s.mem m) a).setWidth 32) else .refused .hostIndexBeyondCapacity)

/-- `HostWriteMem(m, a, v)` (rule R61). -/
def hostWriteMem (m : PSel) (a : Nat) (v : Byte) (s : State) : Host.Outcome State Fault Refusal :=
  whileIdle s
    (if a < capacity s.cfg m then .next (s.setMem m (Memory.write (s.mem m) a v)) else .refused .hostIndexBeyondCapacity)

/-- What a bus address reaches (rule R55). -/
inductive BusTarget
  | reg (k : Fin 16)
  /-- The reserved region: reads 0, writes ignored. -/
  | reserved
  | blk (i : Fin 64)
  | qt (t : TSel) (i : Fin 64)
  | mem (m : PSel) (a : Nat)
deriving DecidableEq, Repr

/-- The element at a word-aligned offset below 0x400 from `PDU_BASE` (rule R55). -/
def regionTarget (off : Nat) : BusTarget :=
  if off < 0x040 then .reg (Fin.ofNat 16 (off / 4))
  else if off < 0x100 then .reserved
  else if off < 0x200 then .blk (Fin.ofNat 64 ((off - 0x100) / 4))
  else if off < 0x300 then .qt .l (Fin.ofNat 64 ((off - 0x200) / 4))
  else .qt .c (Fin.ofNat 64 ((off - 0x300) / 4))

/-- The index of an address in a window of `n` bytes at `base`. -/
def inWindow (base n addr : Nat) : Option Nat := if base ≤ addr ∧ addr < base + n then some (addr - base) else none

/-- The pixel-memory byte a bus address reaches (rule R55). -/
def pixelTarget (c : Config) (addr : Nat) : Option BusTarget :=
  match inWindow c.pixBase c.pixBytes addr with
  | some a => some (.mem .pix a)
  | none =>
    match inWindow c.ypBase c.planeBytes addr with
    | some a => some (.mem .y a)
    | none =>
      match inWindow c.cbpBase c.planeBytes addr with
      | some a => some (.mem .cb a)
      | none =>
        match inWindow c.crpBase c.planeBytes addr with
        | some a => some (.mem .cr a)
        | none => none

/-- The target of an access of n bytes at a bus address: 4 bytes aligned for the register, block and table regions, 1
byte for a pixel memory; any other width or alignment is refused (rules R53 and R55, log entry 15). -/
def busTarget (c : Config) (addr n : Nat) : Except Refusal BusTarget :=
  match inWindow c.pduBase 0x400 addr with
  | some off => if n = 4 ∧ addr % 4 = 0 ∧ off % 4 = 0 then .ok (regionTarget off) else .error .busWidthOrAlignment
  | none =>
    match pixelTarget c addr with
    | some t => if n = 1 then .ok t else .error .busWidthOrAlignment
    | none => .error .busAddressUnmapped

/-- A bus read, as the element read it stands for. A read of the reserved region answers 0 (rule R55), also while a command
runs, an access rule R62's list does not name (DEDUCED, unsafe, log entry 10). -/
def busRead (addr n : Nat) (s : State) : Host.Outcome State Fault Refusal :=
  match busTarget s.cfg addr n with
  | .error r => .refused r
  | .ok (.reg k) => answer s (s.readReg k)
  | .ok .reserved => answer s 0
  | .ok (.blk i) => hostReadBlk i s
  | .ok (.qt t i) => hostReadQT t i s
  | .ok (.mem m a) => hostReadMem m a s

/-- A bus write, as the element write it stands for. A write to the reserved region is ignored (rule R55), also while a
command runs (DEDUCED, unsafe, log entry 10). -/
def busWrite (addr n : Nat) (v : Word) (s : State) : Host.Outcome State Fault Refusal :=
  match busTarget s.cfg addr n with
  | .error r => .refused r
  | .ok (.reg k) => hostWriteReg k v s
  | .ok .reserved => .next s
  | .ok (.blk i) => hostWriteBlk i v s
  | .ok (.qt _ _) => hostWriteQT s
  | .ok (.mem m a) => hostWriteMem m a (v.setWidth 8) s

/-- A step of the host (rules R18 and R57 to R62). -/
def hostStep (op : HostOp) (s : State) : Host.Outcome State Fault Refusal :=
  match op with
  | .readReg k      => answer s (s.readReg k)
  | .writeReg k v   => hostWriteReg k v s
  | .readBlk i      => hostReadBlk i s
  | .writeBlk i v   => hostWriteBlk i v s
  | .readQT t i     => hostReadQT t i s
  | .writeQT _ _ _  => hostWriteQT s
  | .readMem m a    => hostReadMem m a s
  | .writeMem m a v => hostWriteMem m a v s
  | .busRead a n    => busRead a n s
  | .busWrite a n v => busWrite a n v s

/-- The events of a command line in the notation of rule R83: write the word to `CMD`, read `STATUS` until `DONE` = 1, clear
`DONE`. The spec promises no time (rules R243, R244), so how many reads find `DONE` = 0 is open: it is the argument `polls`,
and the completion falls right before the read after them (DESIGN CHOICE, log entry 27). -/
def commandLine (polls : Nat) (i : Instr) : List Event :=
  .host (.writeReg 2 (encode i)) :: List.replicate polls (.host (.readReg 1)) ++
    [.unit, .host (.readReg 1), .host (.writeReg 1 0x2)]

/-- The directives `PUT m, a, b0 b1 ...` and `GET m, a, n` of rule R83. -/
def putBytes (m : PSel) (a : Nat) (bytes : List Byte) : List Event :=
  bytes.zipIdx.map fun b => .host (.writeMem m (a + b.2) b.1)
def getBytes (m : PSel) (a n : Nat) : List Event := (List.range n).map fun k => .host (.readMem m (a + k))

end Sys2Proof.Machine
end

