-- ==== Sys2Proof/Machine/Agents.lean ====
section
/-! DEFINITION. The turns of the two agents (rule R18) and the reset event. -/

namespace Sys2Proof.Machine

/-- The unit's turn: with a command running, its completion step (rule R182): decode `CMD`, then run the command or take
the decode error (rules R202, R203 and R208). With none running the unit does nothing (rule R181). -/
def unitStep (s : State) : Host.Outcome State Fault Refusal :=
  if s.busy then
    match s.runningCommand with
    | .ok i => exec i s
    | .error e => .next (s.raiseError e)
  else .next s

/-- One event. -/
def runEvent (e : Event) (s : State) : Host.Outcome State Fault Refusal :=
  match e with
  | .host op => hostStep op s
  | .unit => unitStep s
  | .hardReset => .next s.hardReset

end Sys2Proof.Machine
end

