-- ==== Sys2Proof/Machine/Step.lean ====
section
/-! DEFINITION. One step: the next scheduled event, or, with nothing scheduled, the unit's turn (log entry 3). -/

namespace Sys2Proof.Machine

/-- One step of the machine. -/
def step (s : State) : Host.Outcome State Fault Refusal :=
  match s.schedule with
  | [] => unitStep s
  | e :: rest => runEvent e { s with schedule := rest }

/-- The state in which the host has just written the command word whose first `nbits` bits are `w` to `CMD` and the
unit has its turn next, so that the next step runs that command (log entry 4). -/
def State.withFetchWord (s : State) (nbits w : Nat) : State :=
  { s.launch (BitVec.ofNat 32 (w % 2 ^ nbits)) with schedule := .unit :: s.schedule }

end Sys2Proof.Machine
end

