-- ==== Sys2Proof/Safety.lean ====
section
/-! DEFINITION. What a sound state is, in the terms the statements use. Each part is an invariant of the step. -/

namespace Sys2Proof.Machine

/-- The reserved bits of the control registers are 0 (rule R33). -/
abbrev RegistersOk (s : State) : Prop :=
  s.ctrl &&& ctrlMask = s.ctrl ∧ s.width &&& dimMask = s.width ∧ s.height &&& dimMask = s.height ∧
  s.fmt &&& fmtMask = s.fmt ∧ s.qcfg &&& qcfgMask = s.qcfg

/-- `STATUS` holds together: `ERR` is set exactly when an error code of 1 to 8 is latched (rules R201, R208 and R212), and
a running command has not set `DONE` (rule R182). -/
abbrev StatusOk (s : State) : Prop :=
  (s.err = true ↔ s.ecode ≠ 0) ∧ s.ecode.toNat ≤ 8 ∧ (s.busy = true → s.done = false)

/-- Every pixel memory is in canonical form and lists no index at or beyond its capacity (rules R15, R31 and R170). -/
abbrev MemoriesOk (s : State) : Prop :=
  ∀ p, Memory.wf (s.mem p) ∧ Memory.Within (s.mem p) (capacity s.cfg p)

/-- An entry QTGEN can write: a multiple of 8 in 8..2040 (rules R22 and R99). -/
abbrev BuiltEntry (e : Entry) : Prop := e.toNat % 8 = 0 ∧ 8 ≤ e.toNat ∧ e.toNat ≤ 2040

/-- A table whose valid bit is set holds built entries only, so no divisor is ever zero (rule R22). -/
abbrev TablesOk (s : State) : Prop := ∀ t, s.valid t = true → ∀ i : Fin 64, BuiltEntry (s.table t)[i]

/-- The command has ended (rule R182). -/
abbrev Completed (t : State) : Prop := t.busy = false ∧ t.done = true

/-- What no command writes (rule R193): the configuration registers, `CTRL`, `CMD`, `OVR`, and the model's own fields. -/
abbrev SameHostSide (s t : State) : Prop :=
  t.cfg = s.cfg ∧ t.ctrl = s.ctrl ∧ t.cmd = s.cmd ∧ t.width = s.width ∧ t.height = s.height ∧ t.fmt = s.fmt ∧
  t.qcfg = s.qcfg ∧ t.ovr = s.ovr ∧ t.schedule = s.schedule ∧ t.portData = s.portData ∧ t.draw = s.draw

/-- Every byte of every pixel memory reads as before. -/
abbrev SameMemories (s t : State) : Prop := ∀ p a, Memory.read (t.mem p) a = Memory.read (s.mem p) a

/-- Both tables and both valid bits are as before. -/
abbrev SameTables (s t : State) : Prop := ∀ u, t.table u = s.table u ∧ t.valid u = s.valid u

/-- `ERR` and `ECODE` are as before: the command raised no error. -/
abbrev NoNewError (s t : State) : Prop := t.err = s.err ∧ t.ecode = s.ecode

/-- Rule R165 raises nothing for selector p, and its plane has width w and height h. -/
abbrev PlaneLegal (s : State) (p : PSel) (w h : Nat) : Prop :=
  s.imgW ≠ 0 ∧ s.imgH ≠ 0 ∧ (p = .pix → s.ch = 0 ∨ s.ch = 1) ∧ s.planeDims p = some (w, h) ∧
  w * h ≤ capacity s.cfg p

/-- The checks of rule R146 raise nothing, and the ratio is (hor, ver). -/
abbrev ColourLegal (s : State) (hor ver : Nat) : Prop :=
  s.imgW ≠ 0 ∧ s.imgH ≠ 0 ∧ s.ch = 3 ∧ s.ratio = some (hor, ver) ∧
  3 * s.imgW * s.imgH ≤ s.cfg.pixBytes ∧ s.imgW * s.imgH ≤ s.cfg.planeBytes

/-- The base of a pixel memory's window on the host bus (rule R55). -/
def windowBase (c : Config) : PSel → Nat
  | .y => c.ypBase
  | .cb => c.cbpBase
  | .cr => c.crpBase
  | .pix => c.pixBase

/-- The command ends with error number n and changes nothing else (rule R208). -/
abbrev Raises (i : Instr) (s : State) (n : BitVec 4) : Prop :=
  exec i s = .next { s with err := true, ecode := n, busy := false, done := true }

/-- The commands executed one after another, each launched as soon as the one before it has completed; the launches
themselves, which write `CMD`, `BUSY` and `DONE` only, are left out. -/
def runCommands : List Instr → State → Host.Outcome State Fault Refusal
  | [], s => .next s
  | i :: rest, s =>
    match exec i s with
    | .next t => runCommands rest t
    | .fault r => .fault r
    | .refused r => .refused r

/-- The error numbers a command can raise at execution: the rows of rule R210 less `E_FIELD`, which belongs to
decode. -/
def errorNumbersOf : Instr → List Nat
  | .nop => []
  | .qtgen _ => [5]
  | .fdct => []
  | .quant _ => [7]
  | .dequant _ => [7]
  | .idct => []
  | .xform _ => [7]
  | .ldblk _ _ _ => [3, 4, 6, 8]
  | .stblk _ _ _ => [3, 4, 6, 8]
  | .cplane _ _ => [3, 4, 6, 7]
  | .split => [3, 4, 6]
  | .merge => [3, 4, 6]
  | .compress => [3, 4, 5, 6]

/-- The commands that store to no pixel memory (rule R193). -/
def storesNothing : Instr → Bool
  | .nop => true
  | .qtgen _ => true
  | .fdct => true
  | .quant _ => true
  | .dequant _ => true
  | .idct => true
  | .xform _ => true
  | .ldblk _ _ _ => true
  | .stblk _ _ _ => false
  | .cplane _ _ => false
  | .split => false
  | .merge => false
  | .compress => false

/-- The bytes in the write column of rule R193: may command i, running on s, have written byte a of `mem(p)`?
Where the reserved ratio leaves a chroma plane without a size, any byte of it (log entry 6). -/
def inWriteColumn (s : State) (i : Instr) (p : PSel) (a : Nat) : Prop :=
  match i with
  | .nop => False
  | .qtgen _ => False
  | .fdct => False
  | .quant _ => False
  | .dequant _ => False
  | .idct => False
  | .xform _ => False
  | .ldblk _ _ _ => False
  | .stblk q br bc => p = q ∧ ∀ w h, s.planeDims p = some (w, h) → ∃ k < 64, scatterAddr w h br bc k = some a
  | .cplane q _ => p = q ∧ ∀ w h, s.planeDims p = some (w, h) → a < w * h
  | .split => p ≠ .pix ∧ ∀ w h, s.planeDims p = some (w, h) → a < w * h
  | .merge => p = .pix ∧ a < 3 * (s.imgW * s.imgH)
  | .compress =>
    s.ch = 3 ∧ (p = .pix → a < 3 * (s.imgW * s.imgH)) ∨ (s.ch = 0 ∨ s.ch = 1) ∧ p = .pix ∧ a < s.imgW * s.imgH

/-- The commands that leave `BLK` alone (rules R193 and R240). -/
def keepsBlk : Instr → Bool
  | .nop => true
  | .qtgen _ => true
  | .fdct => false
  | .quant _ => false
  | .dequant _ => false
  | .idct => false
  | .xform _ => false
  | .ldblk _ _ _ => false
  | .stblk _ _ _ => true
  | .cplane _ _ => false
  | .split => true
  | .merge => true
  | .compress => false

/-- The commands that perform an inverse transform, and so write `DCONLY` (rules R40 and R193). -/
def writesDconly : Instr → Bool
  | .nop => false
  | .qtgen _ => false
  | .fdct => false
  | .quant _ => false
  | .dequant _ => false
  | .idct => true
  | .xform _ => true
  | .ldblk _ _ _ => false
  | .stblk _ _ _ => false
  | .cplane _ _ => true
  | .split => false
  | .merge => false
  | .compress => true

/-- Does the command write table u (rule R193)? -/
def writesTable (i : Instr) (u : TSel) : Bool :=
  match i with
  | .qtgen t => decide (t = u)
  | .compress => true
  | .nop => false
  | .fdct => false
  | .quant _ => false
  | .dequant _ => false
  | .idct => false
  | .xform _ => false
  | .ldblk _ _ _ => false
  | .stblk _ _ _ => false
  | .cplane _ _ => false
  | .split => false
  | .merge => false

end Sys2Proof.Machine
end

