-- ==== Sys2Proof/Certificates/Slice0/Obligations.lean ====
section
/-! DEFINITION. The statements for the provers: what the numbered rules of the spec say of the model. -/

open Sys2Proof Sys2Proof.Machine

/-! ### Encoding -/

/-- Rule R80: decode of an encoded command returns the command, for every well-formed command. -/
def Obligations.DecodeOfEncodeIsTheCommand : Prop :=
  ∀ i : Instr, i.wellFormed = true → decode (encode i) = .ok i

/-- Rule R80: encode of a decoded legal word returns the word, and what is decoded is well-formed. -/
def Obligations.EncodeOfDecodeIsTheWord : Prop :=
  ∀ (w : Word) (i : Instr), decode w = .ok i → encode i = w ∧ i.wellFormed = true

/-- Rules R78, R202, R203: `E_OPC` exactly for `OPC` 13..31; `E_FIELD` exactly where `OPC` is 0..12 and the word matches
no row of rule R77; a command otherwise. -/
def Obligations.EveryWordDecodesByRule : Prop :=
  ∀ w : Word,
    (decode w = .error .opc ↔ 13 ≤ (w.extractLsb' 0 5).toNat) ∧
    (decode w = .error .field ↔ (w.extractLsb' 0 5).toNat ≤ 12 ∧ ∀ r ∈ commandRows, w &&& r.mask ≠ r.matchWord) ∧
    ((∃ i, decode w = .ok i) ↔ ∃ r ∈ commandRows, w &&& r.mask = r.matchWord)

/-- Rule R84: the worked encodings, legal and illegal. -/
def Obligations.WorkedEncodingsDecode : Prop :=
  decode 0x00000081 = .ok (.qtgen .c) ∧ decode 0x00000006 = .ok (.xform .l) ∧ decode 0x00000086 = .ok (.xform .c) ∧
  decode 0x00000009 = .ok (.cplane .y .l) ∧ decode 0x000000A9 = .ok (.cplane .cb .c) ∧
  decode 0x000000C9 = .ok (.cplane .cr .c) ∧ decode 0x00000069 = .ok (.cplane .pix .l) ∧
  decode 0x00100247 = .ok (.ldblk .cr 1 2) ∧ decode 0x00100168 = .ok (.stblk .pix 1 1) ∧
  decode 0xFFFFFF07 = .ok (.ldblk .y 4095 4095) ∧
  decode 0x0000000D = .error .opc ∧ decode 0x0000001F = .error .opc ∧ decode 0x00000022 = .error .field ∧
  decode 0x00000087 = .error .field ∧ decode 0x00000100 = .error .field ∧ decode 0x00100009 = .error .field

/-! ### Launch, completion, the two agents -/

/-- Rules R18, R57 to R62, R69, R181 and R182: the completion step decodes `CMD` and evaluates that command on the state as
it is; with no command running the unit's turn changes nothing; a scheduled host operation is that operation. The model's
step takes the unit's turn as the scheduled event, or on its own where nothing is scheduled (log entry 3). -/
def Obligations.CompletionStepRunsTheDecodedCommand : Prop :=
  (∀ (s : State) (i : Instr), s.busy = true → decode s.cmd = .ok i →
    (s.schedule = [] → step s = exec i s) ∧
    (∀ rest, s.schedule = .unit :: rest → step s = exec i { s with schedule := rest })) ∧
  (∀ s : State, s.busy = false →
    (s.schedule = [] → step s = .next s) ∧
    (∀ rest, s.schedule = .unit :: rest → step s = .next { s with schedule := rest })) ∧
  ∀ (s : State) (op : HostOp) (rest : List Event), s.schedule = .host op :: rest →
    step s = hostStep op { s with schedule := rest }

/-- Rules R78, R202, R203, R208 and R213: an illegal word completes with its error latched where none was, keeps the
first error where one was, and changes nothing else. The completion is the scheduled turn of the unit, or comes on its
own where nothing is scheduled (log entry 3). -/
def Obligations.IllegalWordOnlyLatchesItsError : Prop :=
  ∀ (s : State) (e : ErrCode), s.busy = true → decode s.cmd = .error e →
    let after := fun u : State =>
      if s.err then { u with busy := false, done := true }
      else { u with err := true, ecode := BitVec.ofNat 4 (errNumber e), busy := false, done := true }
    (e = .opc ∧ errNumber e = 1 ∨ e = .field ∧ errNumber e = 2) ∧
    (s.schedule = [] → step s = .next (after s)) ∧
    (∀ rest, s.schedule = .unit :: rest → step s = .next (after { s with schedule := rest }))

/-- Rules R32, R182 and R215: a host write to `CMD` launches while idle; while a command runs the word is dropped and
`OVR` set, and the running command is unaffected; a read returns the last word stored, 0 after reset. -/
def Obligations.CommandWriteLaunchesOrOverruns : Prop :=
  (∀ (s : State) (w : Word) (rest : List Event), s.schedule = .host (.writeReg 2 w) :: rest →
    (s.busy = false →
      step s = .next { s with schedule := rest, cmd := w, busy := true, done := false }) ∧
    (s.busy = true → step s = .next { s with schedule := rest, ovr := true }) ∧
    (∀ t, step s = .next t → t.readReg 2 = if s.busy then s.cmd else w) ∧
    hostStep (.readReg 2) s = .next { s with portData := s.cmd }) ∧
  State.reset.readReg 2 = 0

/-- Rule R182: every command completes; it is never refused and never faults, and it leaves `BUSY` clear and `DONE` set,
with what no command writes (rule R193) as it was. -/
def Obligations.EveryCommandCompletes : Prop :=
  ∀ (i : Instr) (s : State), ∃ t, exec i s = .next t ∧ Completed t ∧ SameHostSide s t

/-- Rule R182: what the host may do while a command runs, a reset apart, changes nothing a command reads. -/
def Obligations.HostCannotDisturbARunningCommand : Prop :=
  ∀ (s t : State) (op : HostOp), s.busy = true → hostStep op s = .next t → t.busy = true →
    t.cmd = s.cmd ∧ t.blk = s.blk ∧ SameTables s t ∧ (∀ p, t.mem p = s.mem p) ∧ t.width = s.width ∧
    t.height = s.height ∧ t.fmt = s.fmt ∧ t.qcfg = s.qcfg ∧ t.cfg = s.cfg

/-! ### Taking and acknowledging an error -/

/-- Rule R208: where a command raises an error with none latched, `ERR` and `ECODE` are set, `BUSY` cleared and `DONE` set,
and nothing else changes; the same command on the same state with an error already latched sets `BUSY` and `DONE` so and
keeps everything else, the first error included. -/
def Obligations.ErrorIsLatchedAndChangesNothingElse : Prop :=
  ∀ (i : Instr) (s t : State), exec i { s with err := false } = .next t → t.err = true →
    t.ecode ≠ 0 ∧ t = { s with err := true, ecode := t.ecode, busy := false, done := true } ∧
    (s.err = true → exec i s = .next { s with busy := false, done := true })

/-- Rules R208 and R213: while `ERR` is set commands still run, and `ERR` and `ECODE` keep the first error. -/
def Obligations.FirstErrorIsKept : Prop :=
  ∀ (i : Instr) (s t : State), s.err = true → exec i s = .next t → t.err = true ∧ t.ecode = s.ecode

/-- Rule R210: a command raises only the errors of its row. -/
def Obligations.CommandRaisesOnlyItsErrors : Prop :=
  ∀ (i : Instr) (s t : State), s.err = false → exec i s = .next t → t.err = true →
    t.ecode.toNat ∈ errorNumbersOf i

/-- Rules R100, R102, R104, R127, R205 and R207: QTGEN with a preset number at or beyond `N_PRESETS` raises 5; QUANT,
DEQUANT and XFORM with an unbuilt table raise 7. -/
def Obligations.TableCommandsRaiseByRule : Prop :=
  ∀ (s : State) (t : TSel), s.err = false →
    (2 + s.cfg.extraPresets.length ≤ s.preset → Raises (.qtgen t) s 5) ∧
    (s.valid t = false → Raises (.quant t) s 7 ∧ Raises (.dequant t) s 7 ∧ Raises (.xform t) s 7)

/-- Rules R165, R204, R205, R206, R207 and R209: the checks of LDBLK, STBLK and CPLANE, in their order. -/
def Obligations.TilerCommandsRaiseByRule : Prop :=
  ∀ (s : State) (p : PSel) (br bc : Nat) (t : TSel), s.err = false →
    let all := fun n => Raises (.ldblk p br bc) s n ∧ Raises (.stblk p br bc) s n ∧ Raises (.cplane p t) s n
    (s.imgW = 0 ∨ s.imgH = 0 → all 3) ∧
    (s.imgW ≠ 0 → s.imgH ≠ 0 → p = .pix → s.ch ≠ 0 → s.ch ≠ 1 → all 4) ∧
    (s.imgW ≠ 0 → s.imgH ≠ 0 → p = .cb ∨ p = .cr → s.subsamp = 7 → all 4) ∧
    (∀ w h, s.imgW ≠ 0 → s.imgH ≠ 0 → (p = .pix → s.ch = 0 ∨ s.ch = 1) → s.planeDims p = some (w, h) →
      capacity s.cfg p < w * h → all 6) ∧
    (∀ w h, PlaneLegal s p w h → s.valid t = false → Raises (.cplane p t) s 7) ∧
    (∀ w h, PlaneLegal s p w h → cdiv h 8 ≤ br ∨ cdiv w 8 ≤ bc →
      Raises (.ldblk p br bc) s 8 ∧ Raises (.stblk p br bc) s 8)

/-- Rules R146, R149, R204, R205, R206 and R209: the checks of SPLIT and MERGE, in their order. -/
def Obligations.ColourCommandsRaiseByRule : Prop :=
  ∀ s : State, s.err = false →
    let both := fun n => Raises .split s n ∧ Raises .merge s n
    (s.imgW = 0 ∨ s.imgH = 0 → both 3) ∧
    (s.imgW ≠ 0 → s.imgH ≠ 0 → s.ch ≠ 3 ∨ s.subsamp = 7 → both 4) ∧
    (s.imgW ≠ 0 → s.imgH ≠ 0 → s.ch = 3 → s.subsamp ≠ 7 →
      s.cfg.pixBytes < 3 * s.imgW * s.imgH ∨ s.cfg.planeBytes < s.imgW * s.imgH → both 6)

/-- Rules R185, R187 and R209: the checks of COMPRESS on its gray and colour paths, in their order. -/
def Obligations.CompressRaisesByRule : Prop :=
  ∀ s : State, s.err = false →
    (s.ch = 0 ∨ s.ch = 1 ∨ s.ch = 3 → s.imgW = 0 ∨ s.imgH = 0 → Raises .compress s 3) ∧
    (s.ch = 3 → s.imgW ≠ 0 → s.imgH ≠ 0 → s.subsamp = 7 → Raises .compress s 4) ∧
    (s.ch = 0 ∨ s.ch = 1 ∨ s.ch = 3 ∧ s.subsamp ≠ 7 → s.imgW ≠ 0 → s.imgH ≠ 0 →
      2 + s.cfg.extraPresets.length ≤ s.preset → Raises .compress s 5) ∧
    (s.ch = 0 ∨ s.ch = 1 → s.imgW ≠ 0 → s.imgH ≠ 0 → s.preset < 2 + s.cfg.extraPresets.length →
      s.cfg.pixBytes < s.imgW * s.imgH → Raises .compress s 6) ∧
    (s.ch = 3 → s.subsamp ≠ 7 → s.imgW ≠ 0 → s.imgH ≠ 0 → s.preset < 2 + s.cfg.extraPresets.length →
      s.cfg.pixBytes < 3 * s.imgW * s.imgH ∨ s.cfg.planeBytes < s.imgW * s.imgH → Raises .compress s 6)

/-- Rules R30, R57, R58 and R212: a host read of `STATUS` answers each flag in its bit and 0 above bit 11, and changes
nothing (the answer goes to the model's port field, log entry 8); a host write to `STATUS` clears exactly those of `DONE`,
`ERR`, `OVR` whose written bit is 1, clearing `ECODE` with `ERR`, and has no other effect. -/
def Obligations.StatusWriteClearsOnlyTheWrittenFlags : Prop :=
  ∀ (s : State) (v : Word),
    (∃ w : Word, hostStep (.readReg 1) s = .next { s with portData := w } ∧
      w.getLsbD 0 = s.busy ∧ w.getLsbD 1 = s.done ∧ w.getLsbD 2 = s.err ∧ w.getLsbD 3 = s.ovr ∧
      w.getLsbD 4 = s.noop ∧ w.getLsbD 5 = s.dconly ∧ w.getLsbD 6 = s.valid .l ∧ w.getLsbD 7 = s.valid .c ∧
      w.extractLsb' 8 4 = s.ecode ∧ w.extractLsb' 12 20 = 0) ∧
    hostStep (.writeReg 1 v) s = .next { s with
      done := s.done && !v.getLsbD 1
      err := s.err && !v.getLsbD 2
      ecode := if v.getLsbD 2 then 0 else s.ecode
      ovr := s.ovr && !v.getLsbD 3 }

/-! ### Quantization tables -/

/-- Rules R91 to R100: QTGEN t completes for every preset below `N_PRESETS`; entry i becomes eight times the clamped step
of the base entry at the effective quality, `QTV[t]` is set, and the other table, `BLK`, the memories and the flags stay.
The digits are those of the reference constants (rule R9). -/
def Obligations.QtgenBuildsTheScaledTable : Prop :=
  ∀ (s : State) (t : TSel), s.cfg.num = referenceNum → s.preset < 2 + s.cfg.extraPresets.length →
    ∃ p u, (defaultPreset :: flatPreset :: s.cfg.extraPresets)[s.preset]? = some p ∧
      exec (.qtgen t) s = .next u ∧ Completed u ∧ u.valid t = true ∧
      (∀ i : Fin 64,
        let q := max 1 (min 100 s.quality)
        let scale := if q < 50 then 5000 / q else 200 - 2 * q
        let base := (match t with | .l => p.luma | .c => p.chroma)[i]
        (u.table t)[i].toNat = 8 * max 1 (min 255 ((base * scale + 50) / 100))) ∧
      (∀ v, v ≠ t → u.table v = s.table v ∧ u.valid v = s.valid v) ∧ u.blk = s.blk ∧ (∀ m, u.mem m = s.mem m) ∧
      NoNewError s u ∧ u.noop = s.noop ∧ u.dconly = s.dconly ∧ SameHostSide s u

/-- Rule R99: (a) every entry of a built table is a multiple of 8 in 8..2040, whatever the preset; (b) for one preset,
flavour and index the entry does not increase with the quality; (c) from quality 100 on every entry is 8, for every
preset; (d) at quality 50 the entry is eight times the base entry, where that is a ROM entry (1..255); (e) of the quality
only the effective value (clamped to 1..100) matters. -/
def Obligations.BuiltTableProperties : Prop :=
  ∀ (p : Preset) (t : TSel) (i : Fin 64),
    (∀ q, BuiltEntry (generatedTable referenceNum p t q)[i]) ∧
    (∀ q q', q ≤ q' → (generatedTable referenceNum p t q')[i].toNat ≤ (generatedTable referenceNum p t q)[i].toNat) ∧
    (∀ q, 100 ≤ q → (generatedTable referenceNum p t q)[i] = 8) ∧
    (RomEntry (presetMatrix p t)[i] → (generatedTable referenceNum p t 50)[i].toNat = 8 * (presetMatrix p t)[i]) ∧
    (∀ q q', max 1 (min 100 q) = max 1 (min 100 q') →
      generatedTable referenceNum p t q = generatedTable referenceNum p t q')

/-- Rules R101 and R102: with its table built, QUANT t completes and each element c with divisor T > 0 becomes the low 16
bits, sign-extended, of (|c| + T/2) div T with the sign of c; the rest of the state stays. -/
def Obligations.QuantRoundsToNearestTiesAway : Prop :=
  ∀ (s : State) (t : TSel), s.valid t = true →
    ∃ b : Block, exec (.quant t) s = .next { s with blk := b, busy := false, done := true } ∧
      ∀ i : Fin 64, 0 < (s.table t)[i].toNat →
        let c := s.blk[i].toInt
        let T : Int := (s.table t)[i].toNat
        (0 ≤ c → b[i] = (BitVec.ofInt 16 ((c + T / 2) / T)).signExtend 32) ∧
        (c < 0 → b[i] = (BitVec.ofInt 16 (-((-c + T / 2) / T))).signExtend 32)

/-- Rule R101: quantizing is odd wherever both results fit 16 bits. -/
def Obligations.QuantizeIsOdd : Prop :=
  ∀ (c : Word) (T : Entry), 0 < T.toNat → c ≠ 0x80000000 → c.toInt.natAbs + T.toNat / 2 < 32768 * T.toNat →
    quantize (-c) T = -quantize c T

/-- Rule R106: for |c| ≤ 32767 × T, quantize then dequantize gives a multiple of T that differs from c by at most T / 2, a
tie going away from zero, for every built entry T; with T = 8 the difference is at most 4. -/
def Obligations.QuantizeDequantizeErrorIsHalfAStep : Prop :=
  ∀ (c : Word) (T : Entry), BuiltEntry T → c.toInt.natAbs ≤ 32767 * T.toNat →
    let r := (dequantize (quantize c T) T).toInt
    (T.toNat : Int) ∣ r ∧ 2 * (r - c.toInt).natAbs ≤ T.toNat ∧
    (2 * (r - c.toInt).natAbs = T.toNat → c.toInt.natAbs < r.natAbs) ∧
    (T = 8 → (r - c.toInt).natAbs ≤ 4)

/-- Rules R103 and R104: with its table built, DEQUANT t completes, each element becomes its wrapped product with the
entry, so that zero stays zero, and the rest of the state stays. -/
def Obligations.DequantMultipliesWithWrap : Prop :=
  ∀ (s : State) (t : TSel), s.valid t = true →
    ∃ b : Block, exec (.dequant t) s = .next { s with blk := b, busy := false, done := true } ∧
      ∀ i : Fin 64, b[i] = BitVec.ofInt 32 (s.blk[i].toInt * (s.table t)[i].toNat) ∧ (s.blk[i] = 0 → b[i] = 0)

/-! ### The transforms -/

/-- Rule R111 against the matrix it factors: each of the eight outputs of the forward butterfly is the shifted direct
linear form of the inputs or of their sums and differences; outputs 0 and 4 are shifted left by `PASS1_BITS` in the first
pass and descaled by it in the second. -/
def Obligations.ForwardButterflyIsTheDirectForm : Prop :=
  ∀ (k : Sys2Proof.Num) (d : Oct) (n : Nat) (first : Bool),
    let t4 := d.x3 - d.x4
    let t5 := d.x2 - d.x5
    let t6 := d.x1 - d.x6
    let t7 := d.x0 - d.x7
    let t13 := d.x0 + d.x7 - d.x3 - d.x4
    let t12 := d.x1 + d.x6 - d.x2 - d.x5
    let a := k.fix_1_175875602
    let o := fwdButterfly k d n first
    let sum := d.x0 + d.x1 + d.x2 + d.x3 + d.x4 + d.x5 + d.x6 + d.x7
    let alt := d.x0 - d.x1 - d.x2 + d.x3 + d.x4 - d.x5 - d.x6 + d.x7
    o.x0 = (if first then shl32 sum k.pass1Bits else descale sum k.pass1Bits) ∧
    o.x4 = (if first then shl32 alt k.pass1Bits else descale alt k.pass1Bits) ∧
    o.x1 = descale (t7 * (k.fix_1_501321110 - k.fix_0_899976223 - k.fix_0_390180644 + a) + t6 * a
      + t5 * (a - k.fix_0_390180644) + t4 * (a - k.fix_0_899976223)) n ∧
    o.x3 = descale (t6 * (k.fix_3_072711026 - k.fix_2_562915447 - k.fix_1_961570560 + a) + t7 * a
      + t4 * (a - k.fix_1_961570560) + t5 * (a - k.fix_2_562915447)) n ∧
    o.x5 = descale (t5 * (k.fix_2_053119869 - k.fix_2_562915447 - k.fix_0_390180644 + a) + t4 * a
      + t7 * (a - k.fix_0_390180644) + t6 * (a - k.fix_2_562915447)) n ∧
    o.x7 = descale (t4 * (k.fix_0_298631336 - k.fix_0_899976223 - k.fix_1_961570560 + a) + t5 * a
      + t6 * (a - k.fix_1_961570560) + t7 * (a - k.fix_0_899976223)) n ∧
    o.x2 = descale (t13 * (k.fix_0_541196100 + k.fix_0_765366865) + t12 * k.fix_0_541196100) n ∧
    o.x6 = descale (t12 * (k.fix_0_541196100 - k.fix_1_847759065) + t13 * k.fix_0_541196100) n

/-- Rules R112, R113 and R114: FDCT completes; it leaves in element (v, c) output v of the column butterfly on column c of
the rows' butterflies, shifts 11 and 15 with the reference constants; the rest of the state stays. -/
def Obligations.FdctTransformsRowsThenColumns : Prop :=
  ∀ s : State, s.cfg.num = referenceNum →
    ∃ b : Block, exec .fdct s = .next { s with blk := b, busy := false, done := true } ∧
      ∀ v < 8, ∀ c < 8,
        let row := fun r => fwdButterfly referenceNum (blockRow s.blk r) 11 true
        blockElem b (8 * v + c) =
          (fwdButterfly referenceNum
            ⟨(row 0).get c, (row 1).get c, (row 2).get c, (row 3).get c,
             (row 4).get c, (row 5).get c, (row 6).get c, (row 7).get c⟩ 15 false).get v

/-- Rule R114: a constant block of value v with |v| ≤ 512 gives `BLK[0]` = 64 v and all other elements 0. -/
def Obligations.FdctOfAConstantBlock : Prop :=
  ∀ (s : State) (v : Word), s.cfg.num = referenceNum → v.toInt.natAbs ≤ 512 → s.blk = Vector.replicate 64 v →
    ∃ b : Block, exec .fdct s = .next { s with blk := b, busy := false, done := true } ∧
      b[0] = 64 * v ∧ ∀ i : Fin 64, 0 < i.val → b[i] = 0

/-- Rules R119 to R123 and R125. The inverse butterfly, for every record of constants, is the direct linear form it
factors: output k and output 7 - k are the descaled sum and difference of an even and an odd part. IDCT completes; every
element is a sample in 0..255, `DCONLY` says whether elements 1 to 63 were all zero, and with the reference constants
`BLK` is what the general path gives (columns by 14, then rows by 18, then the clamp of the wrapped sum with 128), also
where the fast path is taken, whose 64 equal samples are then the same; the rest of the state stays. -/
def Obligations.IdctEqualsTheGeneralPath : Prop :=
  (∀ (k : Sys2Proof.Num) (x : Oct) (n : Nat),
    let a := k.fix_1_175875602
    let e := k.fix_0_541196100
    let s2 := x.x2 * (e + k.fix_0_765366865) + x.x6 * e
    let s6 := x.x6 * (e - k.fix_1_847759065) + x.x2 * e
    let p0 := shl32 (x.x0 + x.x4) k.constBits + s2
    let p1 := shl32 (x.x0 - x.x4) k.constBits + s6
    let p2 := shl32 (x.x0 - x.x4) k.constBits - s6
    let p3 := shl32 (x.x0 + x.x4) k.constBits - s2
    let v3 := x.x1 * (k.fix_1_501321110 - k.fix_0_899976223 - k.fix_0_390180644 + a) + x.x3 * a
      + x.x5 * (a - k.fix_0_390180644) + x.x7 * (a - k.fix_0_899976223)
    let v2 := x.x3 * (k.fix_3_072711026 - k.fix_2_562915447 - k.fix_1_961570560 + a) + x.x1 * a
      + x.x7 * (a - k.fix_1_961570560) + x.x5 * (a - k.fix_2_562915447)
    let v1 := x.x5 * (k.fix_2_053119869 - k.fix_2_562915447 - k.fix_0_390180644 + a) + x.x7 * a
      + x.x1 * (a - k.fix_0_390180644) + x.x3 * (a - k.fix_2_562915447)
    let v0 := x.x7 * (k.fix_0_298631336 - k.fix_0_899976223 - k.fix_1_961570560 + a) + x.x5 * a
      + x.x3 * (a - k.fix_1_961570560) + x.x1 * (a - k.fix_0_899976223)
    invButterfly k x n =
      ⟨descale (p0 + v3) n, descale (p1 + v2) n, descale (p2 + v1) n, descale (p3 + v0) n,
       descale (p3 - v0) n, descale (p2 - v1) n, descale (p1 - v2) n, descale (p0 - v3) n⟩) ∧
  ∀ s : State, ∃ b : Block,
    exec .idct s = .next { s with
      blk := b, dconly := decide (∀ i : Fin 64, 0 < i.val → s.blk[i] = 0), busy := false, done := true } ∧
    (∀ i : Fin 64, 0 ≤ b[i].toInt ∧ b[i].toInt ≤ 255) ∧
    (s.cfg.num = referenceNum →
      (∀ r < 8, ∀ j < 8,
        let col := fun c => invButterfly referenceNum (blockCol s.blk c) 14
        let row := invButterfly referenceNum
          ⟨(col 0).get r, (col 1).get r, (col 2).get r, (col 3).get r,
           (col 4).get r, (col 5).get r, (col 6).get r, (col 7).get r⟩ 18
        blockElem b (8 * r + j) = wrap32 (clamp8 (row.get j + 128).toInt)) ∧
      ((∀ i : Fin 64, 0 < i.val → s.blk[i] = 0) →
        let w0 := descale (shl32 s.blk[0] 13) 14
        b = Vector.replicate 64 (wrap32 (clamp8 (descale (shl32 w0 13) 18 + 128).toInt))))

/-- Rule R127: with its table built, XFORM t completes and leaves exactly what FDCT, QUANT t, DEQUANT t, IDCT leave when
run in that order from the same start. -/
def Obligations.XformEqualsItsFourCommands : Prop :=
  ∀ (s : State) (t : TSel), s.valid t = true →
    ∃ u, exec (.xform t) s = .next u ∧ Completed u ∧ NoNewError s u ∧
      runCommands (Pseudo.block t).expand s = .next u

/-! ### The tiler -/

/-- Rules R162 and R163: with a legal geometry and a block inside the plane, LDBLK completes; element (i, j) is the sample
at the clamped coordinates minus 128, in -128..127, from an address inside the plane, and everything else stays. -/
def Obligations.LdblkGathersTheClampedTile : Prop :=
  ∀ (s : State) (p : PSel) (br bc w h : Nat), PlaneLegal s p w h → br < cdiv h 8 → bc < cdiv w 8 →
    ∃ b : Block, exec (.ldblk p br bc) s = .next { s with blk := b, busy := false, done := true } ∧
      ∀ i < 8, ∀ j < 8,
        let a := min (8 * br + i) (h - 1) * w + min (8 * bc + j) (w - 1)
        blockElem b (8 * i + j) = (Memory.read (s.mem p) a).setWidth 32 - 128 ∧ a < w * h ∧
        -128 ≤ (blockElem b (8 * i + j)).toInt ∧ (blockElem b (8 * i + j)).toInt ≤ 127

/-- Rule R162: a tile position outside the plane takes the value of the last valid row or column of its tile, never a
padding value. -/
def Obligations.TilePositionsOutsideThePlaneReplicateTheEdge : Prop :=
  ∀ (m : Memory) (w h br bc i j : Nat), 0 < w → 0 < h → br < cdiv h 8 → bc < cdiv w 8 → i < 8 → j < 8 →
    blockElem (gather m w h br bc) (8 * i + j) =
      blockElem (gather m w h br bc) (8 * min i (h - 1 - 8 * br) + min j (w - 1 - 8 * bc))

/-- Rule R164: with a legal geometry and a block inside the plane, STBLK completes; each in-bounds cell (i, j) stores the
low 8 bits of its element at row 8 br + i, column 8 bc + j; every other byte of that memory, the other memories and
everything else stay. -/
def Obligations.StblkStoresOnlyTheInBoundsCells : Prop :=
  ∀ (s : State) (p : PSel) (br bc w h : Nat), PlaneLegal s p w h → br < cdiv h 8 → bc < cdiv w 8 →
    ∃ t, exec (.stblk p br bc) s = .next t ∧ Completed t ∧
      (∀ i < 8, ∀ j < 8, 8 * br + i < h → 8 * bc + j < w →
        Memory.read (t.mem p) ((8 * br + i) * w + (8 * bc + j)) = (blockElem s.blk (8 * i + j)).setWidth 8) ∧
      (∀ a, (∀ k < 64, scatterAddr w h br bc k ≠ some a) → Memory.read (t.mem p) a = Memory.read (s.mem p) a) ∧
      (∀ q, q ≠ p → t.mem q = s.mem q) ∧ t.blk = s.blk ∧ SameTables s t ∧ NoNewError s t ∧ t.noop = s.noop ∧
      t.dconly = s.dconly ∧ SameHostSide s t

/-- Rule R171: no block reads what another block writes: writing back any block leaves the gathered tile of every other
block of the plane as it was. -/
def Obligations.BlocksOfAPlaneAreIndependent : Prop :=
  ∀ (m : Memory) (w h br bc br' bc' : Nat) (b : Block), br < cdiv h 8 → bc < cdiv w 8 → br' < cdiv h 8 →
    bc' < cdiv w 8 → (br, bc) ≠ (br', bc') →
    gather (scatter m w h br' bc' b) w h br bc = gather m w h br bc

/-- Rules R167 and R171: the order in which CPLANE visits the blocks does not matter: visiting every block once in any
order leaves every byte of the memory as the raster order leaves it. -/
def Obligations.BlockOrderDoesNotMatter : Prop :=
  ∀ (k : Sys2Proof.Num) (t : Table) (w h : Nat) (r : PlaneRun) (order : List Nat),
    order.Perm (List.range (cdiv h 8 * cdiv w 8)) →
    ∀ a, Memory.read (order.foldl (fun r n => planeBlock k t w h (n / cdiv w 8) (n % cdiv w 8) r) r).mem a =
      Memory.read (planeLoop k t w h r).mem a

/-- Rule R166: with a legal geometry and its table built, CPLANE completes and equals the sequence LDBLK, XFORM, STBLK
over all blocks in raster order. -/
def Obligations.CplaneEqualsItsTilesInRasterOrder : Prop :=
  ∀ (s : State) (p : PSel) (t : TSel) (w h : Nat), PlaneLegal s p w h → s.valid t = true →
    ∃ u, exec (.cplane p t) s = .next u ∧ Completed u ∧ NoNewError s u ∧
      runCommands
        ((List.range (cdiv h 8 * cdiv w 8)).flatMap fun n => (Pseudo.tile p t (n / cdiv w 8) (n % cdiv w 8)).expand)
        s = .next u

/-- Rules R166 and R193: CPLANE touches no byte of its memory beyond the plane, no other memory, no table, and no flag
but `DCONLY`; the block and every sample it leaves are in 0..255. -/
def Obligations.CplaneTouchesOnlyItsPlane : Prop :=
  ∀ (s u : State) (p : PSel) (t : TSel) (w h : Nat), PlaneLegal s p w h → s.valid t = true →
    exec (.cplane p t) s = .next u →
    (∀ a, w * h ≤ a → Memory.read (u.mem p) a = Memory.read (s.mem p) a) ∧ (∀ q, q ≠ p → u.mem q = s.mem q) ∧
    SameTables s u ∧ u.noop = s.noop ∧ NoNewError s u ∧ SameHostSide s u ∧
    ∀ i : Fin 64, 0 ≤ u.blk[i].toInt ∧ u.blk[i].toInt ≤ 255

/-! ### The colour codec -/

/-- Rules R143, R144 and R148: with the reference weights the two colour transforms are the integer formulas of the rules
(`/` rounds toward minus infinity), for every three bytes; the forward one needs no clamp, since Y, Cb and Cr are in
0..255; grey gives Y = v and Cb = Cr = 128, and grey chroma gives R = G = B = Y back. -/
def Obligations.ColourStaysInRangeAndGreyIsKept : Prop :=
  (∀ p : Triple,
    let r : Int := p.fst.toNat
    let g : Int := p.snd.toNat
    let b : Int := p.trd.toNat
    let o := rgb2ycc referenceNum p
    (o.fst.toNat : Int) = (19595 * r + 38470 * g + 7471 * b + 32767) / 65536 ∧
    (o.snd.toNat : Int) = (-11059 * r - 21709 * g + 32768 * b + 8388608 + 32767) / 65536 ∧
    (o.trd.toNat : Int) = (32768 * r - 27439 * g - 5329 * b + 8388608 + 32767) / 65536) ∧
  (∀ p : Triple,
    let y : Int := p.fst.toNat
    let u : Int := p.snd.toNat - 128
    let v : Int := p.trd.toNat - 128
    let o := ycc2rgb referenceNum p
    (o.fst.toNat : Int) = max 0 (min 255 (y + (91881 * v + 32768) / 65536)) ∧
    (o.snd.toNat : Int) = max 0 (min 255 (y + (-22554 * u - 46802 * v + 32768) / 65536)) ∧
    (o.trd.toNat : Int) = max 0 (min 255 (y + (116130 * u + 32768) / 65536))) ∧
  (∀ r g b : Int, 0 ≤ r → r ≤ 255 → 0 ≤ g → g ≤ 255 → 0 ≤ b → b ≤ 255 →
    (0 ≤ lumaOf referenceNum r g b ∧ lumaOf referenceNum r g b ≤ 255) ∧
    (0 ≤ cbOf referenceNum r g b ∧ cbOf referenceNum r g b ≤ 255) ∧
    (0 ≤ crOf referenceNum r g b ∧ crOf referenceNum r g b ≤ 255)) ∧
  ∀ v : Byte, rgb2ycc referenceNum ⟨v, v, v⟩ = ⟨v, 128, 128⟩ ∧ ycc2rgb referenceNum ⟨v, 128, 128⟩ = ⟨v, v, v⟩

/-- Rules R141, R143, R145 and R146: with legal checks SPLIT completes; each luma sample is that of its pixel, each chroma
sample that of the top-left pixel of its grid cell; bytes beyond the planes, `PIX` and everything else stay. -/
def Obligations.SplitSamplesTheTopLeftPixelOfEachCell : Prop :=
  ∀ (s : State) (hor ver : Nat), ColourLegal s hor ver →
    ∃ t, exec .split s = .next t ∧ Completed t ∧
      (let w := s.imgW
       let h := s.imgH
       let ycc := fun x y => rgb2ycc s.cfg.num
        ⟨Memory.read s.pix (3 * (y * w + x)), Memory.read s.pix (3 * (y * w + x) + 1),
         Memory.read s.pix (3 * (y * w + x) + 2)⟩
       (∀ x < w, ∀ y < h, Memory.read t.yp (y * w + x) = (ycc x y).fst) ∧
       (∀ cx < cdiv w hor, ∀ cy < cdiv h ver,
        Memory.read t.cbp (cy * cdiv w hor + cx) = (ycc (cx * hor) (cy * ver)).snd ∧
        Memory.read t.crp (cy * cdiv w hor + cx) = (ycc (cx * hor) (cy * ver)).trd) ∧
       (∀ a, w * h ≤ a → Memory.read t.yp a = Memory.read s.yp a) ∧
       (∀ a, cdiv w hor * cdiv h ver ≤ a →
        Memory.read t.cbp a = Memory.read s.cbp a ∧ Memory.read t.crp a = Memory.read s.crp a)) ∧
      t.pix = s.pix ∧ t.blk = s.blk ∧ SameTables s t ∧ NoNewError s t ∧ t.noop = s.noop ∧ t.dconly = s.dconly ∧
      SameHostSide s t

/-- Rules R147, R148 and R149: with legal checks MERGE completes; the three bytes of pixel (x, y) are the inverse
transform of its luma sample and its cell's chroma pair, whose index is inside the chroma planes; bytes beyond the buffer, the planes and everything else stay. -/
def Obligations.MergeReplicatesTheChromaOfEachCell : Prop :=
  ∀ (s : State) (hor ver : Nat), ColourLegal s hor ver →
    ∃ t, exec .merge s = .next t ∧ Completed t ∧
      (let w := s.imgW
       let h := s.imgH
       let k := fun x y => y / ver * cdiv w hor + x / hor
       let rgb := fun x y => ycc2rgb s.cfg.num
        ⟨Memory.read s.yp (y * w + x), Memory.read s.cbp (k x y), Memory.read s.crp (k x y)⟩
       (∀ x < w, ∀ y < h,
        Memory.read t.pix (3 * (y * w + x)) = (rgb x y).fst ∧
        Memory.read t.pix (3 * (y * w + x) + 1) = (rgb x y).snd ∧
        Memory.read t.pix (3 * (y * w + x) + 2) = (rgb x y).trd) ∧
       (∀ x < w, ∀ y < h, k x y < cdiv w hor * cdiv h ver) ∧
       (∀ a, 3 * (w * h) ≤ a → Memory.read t.pix a = Memory.read s.pix a)) ∧
      t.yp = s.yp ∧ t.cbp = s.cbp ∧ t.crp = s.crp ∧ t.blk = s.blk ∧ SameTables s t ∧ NoNewError s t ∧
      t.noop = s.noop ∧ t.dconly = s.dconly ∧ SameHostSide s t

/-! ### The sequencer -/

/-- Rule R183: NOP completes and does nothing else. -/
def Obligations.NopOnlyCompletes : Prop :=
  ∀ s : State, exec .nop s = .next { s with busy := false, done := true }

/-- Rule R186: for every channel count other than 0, 1 and 3, COMPRESS sets `NOOP`, completes, and writes nothing else,
whatever the dimensions, the preset and the ratio. -/
def Obligations.CompressPassThroughLeavesTheBuffer : Prop :=
  ∀ s : State, s.ch ≠ 0 → s.ch ≠ 1 → s.ch ≠ 3 →
    exec .compress s = .next { s with noop := true, busy := false, done := true }

/-- Rule R185: on the gray path COMPRESS completes with `NOOP` = 0, leaving what QTGEN L, QTGEN C and CPLANE PIX, L leave,
whatever the ratio code. -/
def Obligations.CompressGrayEqualsItsCommands : Prop :=
  ∀ s : State, s.ch = 0 ∨ s.ch = 1 → s.imgW ≠ 0 → s.imgH ≠ 0 → s.preset < 2 + s.cfg.extraPresets.length →
    s.imgW * s.imgH ≤ s.cfg.pixBytes →
    ∃ u, exec .compress s = .next u ∧ Completed u ∧ u.noop = false ∧ NoNewError s u ∧
      runCommands [.qtgen .l, .qtgen .c, .cplane .pix .l] s = .next { u with noop := s.noop }

/-- Rule R187: on the colour path COMPRESS completes with `NOOP` = 0 and gives exactly the state that its seven commands
give when issued one by one. -/
def Obligations.CompressColourEqualsItsSevenCommands : Prop :=
  ∀ (s : State) (hor ver : Nat), ColourLegal s hor ver → s.preset < 2 + s.cfg.extraPresets.length →
    ∃ u, exec .compress s = .next u ∧ Completed u ∧ u.noop = false ∧ NoNewError s u ∧
      runCommands [.split, .qtgen .l, .qtgen .c, .cplane .y .l, .cplane .cb .c, .cplane .cr .c, .merge] s =
        .next { u with noop := s.noop }

/-! ### Frames -/

/-- Rule R193: the commands that store nothing leave every byte of every pixel memory as it was. -/
def Obligations.NonStoringCommandsKeepTheMemories : Prop :=
  ∀ (i : Instr) (s t : State), storesNothing i = true → exec i s = .next t → SameMemories s t

/-- Rule R193: what each command leaves alone beside the memories: `BLK` where it does not write it, each table and valid
bit it does not build, `DCONLY` but for the inverse transforms, `NOOP` but for COMPRESS, and the host side always. -/
def Obligations.CommandsKeepWhatTheyDoNotWrite : Prop :=
  ∀ (i : Instr) (s t : State), exec i s = .next t →
    (keepsBlk i = true → t.blk = s.blk) ∧
    (∀ u, writesTable i u = false → t.table u = s.table u ∧ t.valid u = s.valid u) ∧
    (writesDconly i = false → t.dconly = s.dconly) ∧ (i ≠ .compress → t.noop = s.noop) ∧ SameHostSide s t

/-- Rules R187 and R193: COMPRESS with error-free outcome writes no byte of `PIX` beyond the buffer; on the gray path the
three planes stay; on the colour path no byte of a plane beyond its samples changes. -/
def Obligations.CompressTouchesOnlyTheImage : Prop :=
  ∀ (s u : State), exec .compress s = .next u →
    (s.ch = 0 ∨ s.ch = 1 → u.yp = s.yp ∧ u.cbp = s.cbp ∧ u.crp = s.crp ∧
      ∀ a, s.imgW * s.imgH ≤ a → Memory.read u.pix a = Memory.read s.pix a) ∧
    (∀ hor ver, s.ch = 3 → s.ratio = some (hor, ver) →
      (∀ a, 3 * (s.imgW * s.imgH) ≤ a → Memory.read u.pix a = Memory.read s.pix a) ∧
      (∀ a, s.imgW * s.imgH ≤ a → Memory.read u.yp a = Memory.read s.yp a) ∧
      (∀ a, cdiv s.imgW hor * cdiv s.imgH ver ≤ a →
        Memory.read u.cbp a = Memory.read s.cbp a ∧ Memory.read u.crp a = Memory.read s.crp a))

/-! ### The host port and resets -/

/-- Rules R25, R26, R27, R29, R33, R54 and R58: a host write to a control register stores the word under the register's
mask of writable bits and changes nothing else, `WIDTH`, `HEIGHT`, `FMT` and `QCFG` while no command runs, `CTRL` at any
time where the word asks for no soft reset; the register then reads as what was stored, and the fields the commands use
are the bits of the word written that the rules name. While no command runs a write to an index of 7 to 15 changes nothing;
9 to 15 read 0. -/
def Obligations.ReservedBitsReadZero : Prop :=
  ∀ (s : State) (v : Word),
    (v.getLsbD 1 = false → hostStep (.writeReg 0 v) s = .next { s with ctrl := v &&& 0x00000001 }) ∧
    (s.busy = false →
      hostStep (.writeReg 3 v) s = .next { s with width := v &&& 0x00007FFF } ∧
      hostStep (.writeReg 4 v) s = .next { s with height := v &&& 0x00007FFF } ∧
      hostStep (.writeReg 5 v) s = .next { s with fmt := v &&& 0x00000077 } ∧
      hostStep (.writeReg 6 v) s = .next { s with qcfg := v &&& 0x00000F7F }) ∧
    (∀ k : Fin 16, ∀ mask : Word,
      (k, mask) ∈ [(0, 0x00000001), (2, 0xFFFFFFFF), (3, 0x00007FFF), (4, 0x00007FFF), (5, 0x00000077),
        (6, 0x00000F7F)] →
      (k = 0 ∧ v.getLsbD 1 = false) ∨ (k ≠ 0 ∧ s.busy = false) →
      ∃ t, hostStep (.writeReg k v) s = .next t ∧ t.readReg k = v &&& mask) ∧
    ({ s with width := v &&& 0x00007FFF }.imgW = v.toNat % 32768 ∧
      { s with height := v &&& 0x00007FFF }.imgH = v.toNat % 32768 ∧
      { s with fmt := v &&& 0x00000077 }.ch = v.toNat % 8 ∧
      { s with fmt := v &&& 0x00000077 }.subsamp = v.toNat / 16 % 8 ∧
      { s with qcfg := v &&& 0x00000F7F }.quality = v.toNat % 128 ∧
      { s with qcfg := v &&& 0x00000F7F }.preset = v.toNat / 256 % 16) ∧
    (s.busy = false → ∀ k : Fin 16, 7 ≤ k.val → hostStep (.writeReg k v) s = .next s) ∧
    (∀ k : Fin 16, 9 ≤ k.val → s.readReg k = 0)

/-- Rules R28 and R35: for each of the seven ratios, its code and its factors as the table of rule R35 pairs them, `CPW`
and `CPH` read as the dimensions of the chroma planes rounded up, and as 0 for the reserved ratio, code 7; the factors are
those every command takes from the code. While no command runs, writes to them are ignored. -/
def Obligations.ChromaSizeRegistersAreDerived : Prop :=
  ∀ s : State,
    (∀ code hor ver : Nat, (code, hor, ver) ∈
      [(0, 1, 1), (1, 1, 2), (2, 1, 4), (3, 2, 1), (4, 2, 2), (5, 4, 1), (6, 4, 2)] → s.subsamp = code →
      s.ratio = some (hor, ver) ∧
      (s.readReg 7).toNat = (s.imgW + hor - 1) / hor ∧ (s.readReg 8).toNat = (s.imgH + ver - 1) / ver) ∧
    (s.subsamp = 7 → s.ratio = none ∧ s.readReg 7 = 0 ∧ s.readReg 8 = 0) ∧
    (s.busy = false → ∀ v : Word, hostStep (.writeReg 7 v) s = .next s ∧ hostStep (.writeReg 8 v) s = .next s)

/-- Rule R62: while a command runs, an access to `BLK`, `QT` or a pixel memory and a write to a configuration register
has no step: the model refuses it by name. -/
def Obligations.HostDataAccessWhileBusyIsRefused : Prop :=
  ∀ (s : State) (op : HostOp), s.busy = true →
    (match op with
      | .readBlk _ => True
      | .writeBlk _ _ => True
      | .readQT _ _ => True
      | .writeQT _ _ _ => True
      | .readMem _ _ => True
      | .writeMem _ _ _ => True
      | .writeReg k _ => 3 ≤ k.val ∧ k.val ≤ 6
      | .readReg _ => False
      | .busRead _ _ => False
      | .busWrite _ _ _ => False) →
    hostStep op s = .refused .hostAccessWhileBusy

/-- Rules R59, R60 and R61: while no command runs the host writes and reads one element and nothing else: `BLK[i]`, the
byte at an index inside a pixel memory's capacity, and, reading only, an entry of a valid table; a write to a table is
ignored and an index at or beyond the capacity is refused. -/
def Obligations.HostReadsAndWritesOneElement : Prop :=
  ∀ s : State, s.busy = false →
    (∀ (i : Fin 64) (v : Word), ∃ b : Block, hostStep (.writeBlk i v) s = .next { s with blk := b } ∧ b[i] = v ∧
      ∀ j : Fin 64, j ≠ i → b[j] = s.blk[j]) ∧
    (∀ i : Fin 64, hostStep (.readBlk i) s = .next { s with portData := s.blk[i] }) ∧
    (∀ (m : PSel) (a : Nat) (v : Byte), a < capacity s.cfg m →
      (∃ n : Memory, hostStep (.writeMem m a v) s = .next (s.setMem m n) ∧ Memory.read n a = v ∧
        ∀ c, c ≠ a → Memory.read n c = Memory.read (s.mem m) c) ∧
      hostStep (.readMem m a) s = .next { s with portData := (Memory.read (s.mem m) a).setWidth 32 }) ∧
    (∀ (m : PSel) (a : Nat) (v : Byte), capacity s.cfg m ≤ a →
      hostStep (.writeMem m a v) s = .refused .hostIndexBeyondCapacity ∧
      hostStep (.readMem m a) s = .refused .hostIndexBeyondCapacity) ∧
    (∀ (t : TSel) (i : Fin 64) (v : Word), hostStep (.writeQT t i v) s = .next s ∧
      (s.valid t = true → hostStep (.readQT t i) s = .next { s with portData := (s.table t)[i].setWidth 32 }))

/-- Rules R53, R55 and R56: on the byte-addressed bus an aligned 4-byte access in the register, block and table regions is the
access to the element at its offset, a 1-byte access in a pixel window is the access to the byte at its index, the
reserved region reads 0 and ignores writes, and any other width or alignment is refused. That the reserved region asks for
the width and alignment of its neighbours (log entry 15) and reads 0 and ignores writes also while a command runs (log
entry 10) is the model's inference (DEDUCED). -/
def Obligations.BusAccessReachesItsElement : Prop :=
  ∀ (s : State) (v : Word), ConfigOk s.cfg → s.cfg.pduBase % 4 = 0 →
    let B := s.cfg.pduBase
    (∀ k : Fin 16, hostStep (.busRead (B + 4 * k) 4) s = hostStep (.readReg k) s ∧
      hostStep (.busWrite (B + 4 * k) 4 v) s = hostStep (.writeReg k v) s) ∧
    (∀ off, 0x40 ≤ off → off < 0x100 → off % 4 = 0 → hostStep (.busRead (B + off) 4) s = .next { s with portData := 0 } ∧
      hostStep (.busWrite (B + off) 4 v) s = .next s) ∧
    (∀ i : Fin 64, hostStep (.busRead (B + 0x100 + 4 * i) 4) s = hostStep (.readBlk i) s ∧
      hostStep (.busWrite (B + 0x100 + 4 * i) 4 v) s = hostStep (.writeBlk i v) s) ∧
    (∀ i : Fin 64, hostStep (.busRead (B + 0x200 + 4 * i) 4) s = hostStep (.readQT .l i) s ∧
      hostStep (.busRead (B + 0x300 + 4 * i) 4) s = hostStep (.readQT .c i) s ∧
      hostStep (.busWrite (B + 0x200 + 4 * i) 4 v) s = hostStep (.writeQT .l i v) s ∧
      hostStep (.busWrite (B + 0x300 + 4 * i) 4 v) s = hostStep (.writeQT .c i v) s) ∧
    (∀ (m : PSel) (a : Nat), a < capacity s.cfg m →
      hostStep (.busRead (windowBase s.cfg m + a) 1) s = hostStep (.readMem m a) s ∧
      hostStep (.busWrite (windowBase s.cfg m + a) 1 v) s = hostStep (.writeMem m a (v.setWidth 8)) s) ∧
    (∀ off n, off < 0x400 → n ≠ 4 ∨ off % 4 ≠ 0 →
      hostStep (.busRead (B + off) n) s = .refused .busWidthOrAlignment ∧
      hostStep (.busWrite (B + off) n v) s = .refused .busWidthOrAlignment) ∧
    (∀ (m : PSel) (a n : Nat), a < capacity s.cfg m → n ≠ 1 →
      hostStep (.busRead (windowBase s.cfg m + a) n) s = .refused .busWidthOrAlignment ∧
      hostStep (.busWrite (windowBase s.cfg m + a) n v) s = .refused .busWidthOrAlignment)

/-- Rules R54 and R57: a host read of register k answers its content at any time, the stored register where there is one;
and every host read of an element changes no state. Only the port's own data register of the model (log entry 8) takes the
answer. -/
def Obligations.HostReadsHaveNoSideEffects : Prop :=
  (∀ (s : State) (k : Fin 16), hostStep (.readReg k) s = .next { s with portData := s.readReg k }) ∧
  (∀ s : State, s.readReg 0 = s.ctrl ∧ s.readReg 1 = s.statusWord ∧ s.readReg 2 = s.cmd ∧ s.readReg 3 = s.width ∧
    s.readReg 4 = s.height ∧ s.readReg 5 = s.fmt ∧ s.readReg 6 = s.qcfg) ∧
  ∀ (s t : State) (op : HostOp),
    (match op with
      | .readReg _ => True
      | .readBlk _ => True
      | .readQT _ _ => True
      | .readMem _ _ => True
      | .busRead _ _ => True
      | .writeReg _ _ => False
      | .writeBlk _ _ => False
      | .writeQT _ _ _ => False
      | .writeMem _ _ _ => False
      | .busWrite _ _ _ => False) →
    hostStep op s = .next t → t = { s with portData := t.portData }

/-- Rule R214: the interrupt line is `CTRL.IE` AND `STATUS.DONE`, as the two registers read, at every moment: after the
completion of any command, an illegal word's included, it is high exactly where it is enabled; it is low from a launch on;
a host write to `STATUS` lowers it where it clears `DONE` and leaves it as it was otherwise; a write to `CTRL` gates it by
`IE` and keeps `DONE`. -/
def Obligations.InterruptFollowsCompletion : Prop :=
  ∀ s : State,
    s.irq = ((s.readReg 0).getLsbD 0 && (s.readReg 1).getLsbD 1) ∧
    (∀ (i : Instr) (t : State), exec i s = .next t → t.irq = s.ctrl.getLsbD 0) ∧
    (∀ e : ErrCode, s.busy = true → decode s.cmd = .error e →
      ∃ t, unitStep s = .next t ∧ t.irq = s.ctrl.getLsbD 0) ∧
    (∀ w : Word, (s.launch w).irq = false) ∧
    (∀ v : Word, ∃ t, hostStep (.writeReg 1 v) s = .next t ∧ t.irq = (s.irq && !v.getLsbD 1)) ∧
    (∀ v : Word, v.getLsbD 1 = false →
      ∃ t, hostStep (.writeReg 0 v) s = .next t ∧ t.irq = (v.getLsbD 0 && s.done) ∧ t.done = s.done)

/-- Rules R231 and R233: a soft reset with the unit idle puts every control register and valid bit at its reset value,
whatever the other bits written, and keeps `BLK`, the tables' contents, the pixel memories and the configuration. -/
def Obligations.SoftResetWhileIdleKeepsTheContents : Prop :=
  ∀ (s : State) (v : Word), s.busy = false → v.getLsbD 1 = true →
    ∃ t, hostStep (.writeReg 0 v) s = .next t ∧
      (∀ k : Fin 16, t.readReg k = if k = 6 then 0x00000064 else 0) ∧ (∀ u, t.valid u = false) ∧
      t.blk = s.blk ∧ (∀ u, t.table u = s.table u) ∧ (∀ p, t.mem p = s.mem p) ∧ t.cfg = s.cfg ∧ t.irq = false

/-- Rules R193, R231 and R232: a soft reset is taken while a command runs too; it abandons the command and keeps the state
outside the command's write column: every byte of every memory not in it (other memories, cells outside the block, bytes beyond the plane or the buffer), `BLK` and
each table where the command does not write them, the pass-through of COMPRESS writing neither; an abandoned illegal word
has no write column, and everything is kept. (For a chroma plane at the reserved ratio the column has no range in the spec,
and the model takes the whole memory: log entry 6.) Rule R231: every control register is at its reset value, so no error is
latched and `DONE` is not set, no table is valid, no command runs and the interrupt is low. -/
def Obligations.AbandonedCommandKeepsWhatItDoesNotWrite : Prop :=
  ∀ (s : State) (v : Word), s.busy = true → v.getLsbD 1 = true → ∃ t, hostStep (.writeReg 0 v) s = .next t ∧
    (∀ i, decode s.cmd = .ok i →
      let passes := i = .compress ∧ s.ch ≠ 0 ∧ s.ch ≠ 1 ∧ s.ch ≠ 3
      (∀ p a, ¬ inWriteColumn s i p a → Memory.read (t.mem p) a = Memory.read (s.mem p) a) ∧
      (storesNothing i = true ∨ passes → ∀ p, t.mem p = s.mem p) ∧
      (keepsBlk i = true ∨ passes → t.blk = s.blk) ∧
      (∀ u, writesTable i u = false ∨ passes → t.table u = s.table u)) ∧
    (∀ e, decode s.cmd = .error e →
      (∀ p, t.mem p = s.mem p) ∧ t.blk = s.blk ∧ ∀ u, t.table u = s.table u) ∧
    (∀ k : Fin 16, t.readReg k = if k = 6 then 0x00000064 else 0) ∧ (∀ u, t.valid u = false) ∧ t.busy = false ∧
    t.irq = false ∧ t.cfg = s.cfg

/-- Rules R39 and R230: after a hard reset every control register is at its reset value, no table is valid, nothing runs
and the interrupt is low; the state the model calls `State.reset` is so too. -/
def Obligations.HardResetSetsEveryRegister : Prop :=
  ∀ (s : State) (rest : List Event), s.schedule = .hardReset :: rest →
    ∃ t, step s = .next t ∧
      ∀ u, u = t ∨ u = State.reset →
        (∀ k : Fin 16, u.readReg k = if k = 6 then 0x00000064 else 0) ∧ (∀ x, u.valid x = false) ∧
        u.busy = false ∧ u.irq = false

/-! ### Invariants -/

/-- Rule R33: a step keeps the reserved bits of every control register 0. -/
def Obligations.StepKeepsRegistersOk : Prop :=
  ∀ s t : State, RegistersOk s → step s = .next t → RegistersOk t

/-- Rules R182, R201, R208 and R212: a step keeps `STATUS` sound: `ERR` exactly with an error code, the code at most 8,
and no `DONE` while a command runs. -/
def Obligations.StepKeepsStatusOk : Prop :=
  ∀ s t : State, StatusOk s → step s = .next t → StatusOk t

/-- Rules R15 and R170: a step keeps every pixel memory canonical and inside its capacity: no command and no host access
stores outside a memory. -/
def Obligations.StepKeepsMemoriesInsideTheirCapacity : Prop :=
  ∀ s t : State, MemoriesOk s → step s = .next t → MemoriesOk t

/-- Rules R22, R41 and R99: with the reference constants, a step keeps every valid table full of multiples of 8 in
8..2040, so no divisor is ever zero; and no step changes the configuration. -/
def Obligations.StepKeepsValidTablesBuilt : Prop :=
  ∀ s t : State, step s = .next t → t.cfg = s.cfg ∧ (s.cfg.num = referenceNum → TablesOk s → TablesOk t)

/-- The state after reset meets every invariant of the step, and its configuration what rules R8 and R56 ask. The contents
and the configuration of `State.reset` are the model's choice (log entries 1 and 2). -/
def Obligations.ResetMeetsTheInvariants : Prop :=
  RegistersOk State.reset ∧ StatusOk State.reset ∧ MemoriesOk State.reset ∧ TablesOk State.reset ∧
  ConfigOk State.reset.cfg ∧ State.reset.cfg.num = referenceNum
end

