-- ==== Sys2Proof/Laws/Arith.lean ====
section
/-! SUPPORT. The i32 primitives and the block accessors, in terms of integers and of elements. -/

namespace Sys2Proof.Machine

/-! ### Clamps -/

theorem clamp8_nonneg (v : Int) : 0 ≤ clamp8 v := by unfold clamp8 clamp; split <;> (try split) <;> omega

theorem clamp8_le (v : Int) : clamp8 v ≤ 255 := by unfold clamp8 clamp; split <;> (try split) <;> omega

theorem clamp8_of_mem {v : Int} (h0 : 0 ≤ v) (h1 : v ≤ 255) : clamp8 v = v := by
  unfold clamp8 clamp
  rw [if_neg (by omega), if_neg (by omega)]

theorem clampNat_mem {v lo hi : Nat} (h : lo ≤ hi) : lo ≤ clampNat v lo hi ∧ clampNat v lo hi ≤ hi := by
  unfold clampNat
  split <;> (try split) <;> omega

theorem clampNat_mono {v v' lo hi : Nat} (hl : lo ≤ hi) (h : v ≤ v') : clampNat v lo hi ≤ clampNat v' lo hi := by
  unfold clampNat
  split_ifs <;> omega

/-! ### Division rounding up -/

theorem cdiv_mul_ge (a : Nat) {b : Nat} (hb : 0 < b) : a ≤ cdiv a b * b := by
  unfold cdiv
  have := Nat.div_add_mod (a + b - 1) b
  have hm := Nat.mod_lt (a + b - 1) hb
  rw [Nat.mul_comm] at this
  omega

theorem lt_cdiv_iff {k a b : Nat} (hb : 0 < b) : k < cdiv a b ↔ k * b < a := by
  unfold cdiv
  rw [show k < (a + b - 1) / b ↔ k + 1 ≤ (a + b - 1) / b from Iff.rfl, Nat.le_div_iff_mul_le hb, Nat.add_mul]
  omega

theorem cdiv_pos {a b : Nat} (ha : 0 < a) (hb : 0 < b) : 0 < cdiv a b := (lt_cdiv_iff hb).2 (by omega)

/-- The grid column or row of an in-bounds coordinate is inside the chroma plane (rule R147). -/
theorem div_lt_cdiv {x a b : Nat} (hb : 0 < b) (hx : x < a) : x / b < cdiv a b :=
  (lt_cdiv_iff hb).2 (lt_of_le_of_lt (Nat.div_mul_le_self x b) hx)

/-! ### Words as integers -/

theorem levelUp_toInt (v : Word) : (levelUp v).toInt = clamp8 (v + 128).toInt := by
  unfold levelUp
  rw [BitVec.toInt_ofInt]
  have h0 := clamp8_nonneg (v + 128).toInt
  have h1 := clamp8_le (v + 128).toInt
  exact Int.bmod_eq_of_le (by omega) (by omega)

theorem sar32_toInt (a : Word) (n : Nat) : (sar32 a n).toInt = a.toInt / 2 ^ n := by
  unfold sar32
  rw [BitVec.toInt_sshiftRight, Int.shiftRight_eq_div_pow]
  push_cast
  rfl

theorem shl32_of_le {n : Nat} (h : n ≤ 31) (a : Word) : shl32 a n = a <<< n := if_pos h

@[simp] theorem shl32_zero {n : Nat} (h : n ≤ 31) : shl32 0 n = 0 := by simp [shl32_of_le h]

theorem descale_of_mem {n : Nat} (h0 : 1 ≤ n) (h1 : n ≤ 31) (a : Word) :
    descale a n = sar32 (a + BitVec.ofNat 32 (2 ^ (n - 1))) n := if_pos ⟨h0, h1⟩

/-- Sixteen bits are kept and their sign extended: an integer that fits an `i16` comes through unchanged. -/
theorem sext16_toInt {z : Int} (h0 : -32768 ≤ z) (h1 : z ≤ 32767) : (sext16 z).toInt = z := by
  unfold sext16
  rw [BitVec.toInt_signExtend_of_le (by omega), BitVec.toInt_ofInt]
  exact Int.bmod_eq_of_le (by omega) (by omega)

/-! ### The steps of a table -/

/-- With the reference constants S(q) is never negative on 1..100 (rule R92), and the step is computed in `Nat`. -/
theorem tableStep_reference (base : Nat) {q : Nat} (hq : q ≤ 100) :
    tableStep referenceNum base q =
      max 1 (min 255 ((base * (if q < 50 then 5000 / q else 200 - 2 * q) + 50) / 100)) := by
  have hs : scaleFactor referenceNum q = ((if q < 50 then 5000 / q else 200 - 2 * q : Nat) : Int) := by
    unfold scaleFactor fdiv
    change (if q < 50 then _ else _) = _
    split
    · simp [referenceNum]
    · simp only [referenceNum]
      omega
  unfold tableStep stepQuotient
  rw [if_neg (by decide), hs]
  generalize (if q < 50 then 5000 / q else 200 - 2 * q : Nat) = S
  have hd : fdiv ((base : Int) * (S : Int) + referenceNum.stepRound) referenceNum.stepDivisor =
      (((base * S + 50) / 100 : Nat) : Int) := by
    simp [fdiv, referenceNum]
  rw [hd]
  generalize (base * S + 50) / 100 = n
  simp only [clamp, referenceNum]
  split_ifs <;> omega

/-- Every entry built with the reference constants is eight times its step, with nothing lost in the `u16`. -/
theorem tableEntry_reference (base : Nat) {q : Nat} (hq : q ≤ 100) :
    (tableEntry referenceNum base q).toNat =
      8 * max 1 (min 255 ((base * (if q < 50 then 5000 / q else 200 - 2 * q) + 50) / 100)) := by
  unfold tableEntry entryWord
  rw [tableStep_reference base hq]
  generalize (base * (if q < 50 then 5000 / q else 200 - 2 * q) + 50) / 100 = n
  have : max 1 (min 255 n) * 2 ^ referenceNum.outBits = 8 * max 1 (min 255 n) := by
    simp only [referenceNum]
    omega
  rw [this, if_pos (by omega), BitVec.toNat_ofNat]
  omega

/-! ### Elements of a block -/

@[simp] theorem blockElem_ofFn (f : Fin 64 → Word) {k : Nat} (h : k < 64) :
    blockElem (Vector.ofFn f) k = f ⟨k, h⟩ := by
  simp [blockElem, List.getD, h]

theorem blockElem_eq_get (b : Block) {k : Nat} (h : k < 64) : blockElem b k = b[k] := by
  simp [blockElem, List.getD, h]

@[simp] theorem blockElem_replicate (v : Word) {k : Nat} (h : k < 64) :
    blockElem (Vector.replicate 64 v) k = v := by
  rw [blockElem_eq_get _ h, Vector.getElem_replicate]

/-- Element (r, c) of the block whose row r is `f r`. -/
theorem blockElem_ofRows (f : Nat → Oct) {r c : Nat} (hr : r < 8) (hc : c < 8) :
    blockElem (ofRows f) (8 * r + c) = (f r).get c := by
  unfold ofRows
  rw [blockElem_ofFn _ (by omega)]
  have h1 : (8 * r + c) / 8 = r := by omega
  have h2 : (8 * r + c) % 8 = c := by omega
  simp only [h1, h2]

/-- Element (r, c) of the block whose column c is `f c`. -/
theorem blockElem_ofCols (f : Nat → Oct) {r c : Nat} (hr : r < 8) (hc : c < 8) :
    blockElem (ofCols f) (8 * r + c) = (f c).get r := by
  unfold ofCols
  rw [blockElem_ofFn _ (by omega)]
  have h1 : (8 * r + c) / 8 = r := by omega
  have h2 : (8 * r + c) % 8 = c := by omega
  simp only [h1, h2]

/-- Two blocks with equal elements are equal. -/
theorem block_ext {a b : Block} (h : ∀ r < 8, ∀ c < 8, blockElem a (8 * r + c) = blockElem b (8 * r + c)) : a = b := by
  apply Vector.ext
  intro i hi
  have := h (i / 8) (by omega) (i % 8) (by omega)
  rw [show 8 * (i / 8) + i % 8 = i by omega, blockElem_eq_get a hi, blockElem_eq_get b hi] at this
  exact this

/-- The row of a block built from rows. -/
theorem blockRow_ofRows (f : Nat → Oct) {r : Nat} (hr : r < 8) : blockRow (ofRows f) r = f r := by
  have h : ∀ c < 8, blockElem (ofRows f) (8 * r + c) = (f r).get c := fun c hc => blockElem_ofRows f hr hc
  have h0 := h 0 (by omega)
  rw [Nat.add_zero] at h0
  unfold blockRow
  rw [h0, h 1 (by omega), h 2 (by omega), h 3 (by omega), h 4 (by omega), h 5 (by omega), h 6 (by omega),
    h 7 (by omega)]
  rfl

/-- The column of a block built from columns. -/
theorem blockCol_ofCols (f : Nat → Oct) {c : Nat} (hc : c < 8) : blockCol (ofCols f) c = f c := by
  have h : ∀ r < 8, blockElem (ofCols f) (8 * r + c) = (f c).get r := fun r hr => blockElem_ofCols f hr hc
  have h0 := h 0 (by omega)
  rw [Nat.mul_zero, Nat.zero_add] at h0
  unfold blockCol
  rw [h0, show 8 + c = 8 * 1 + c by omega, show 16 + c = 8 * 2 + c by omega, show 24 + c = 8 * 3 + c by omega,
    show 32 + c = 8 * 4 + c by omega, show 40 + c = 8 * 5 + c by omega, show 48 + c = 8 * 6 + c by omega,
    show 56 + c = 8 * 7 + c by omega, h 1 (by omega), h 2 (by omega), h 3 (by omega), h 4 (by omega), h 5 (by omega),
    h 6 (by omega), h 7 (by omega)]
  rfl

/-- The row of a block built from columns, as its eight elements. -/
theorem blockRow_ofCols (f : Nat → Oct) {r : Nat} (hr : r < 8) :
    blockRow (ofCols f) r =
      ⟨(f 0).get r, (f 1).get r, (f 2).get r, (f 3).get r, (f 4).get r, (f 5).get r, (f 6).get r, (f 7).get r⟩ := by
  have h : ∀ c < 8, blockElem (ofCols f) (8 * r + c) = (f c).get r := fun c hc => blockElem_ofCols f hr hc
  have h0 := h 0 (by omega)
  rw [Nat.add_zero] at h0
  unfold blockRow
  rw [h0, h 1 (by omega), h 2 (by omega), h 3 (by omega), h 4 (by omega), h 5 (by omega), h 6 (by omega),
    h 7 (by omega)]

/-- The column of a block built from rows, as its eight elements. -/
theorem blockCol_ofRows (f : Nat → Oct) {c : Nat} (hc : c < 8) :
    blockCol (ofRows f) c =
      ⟨(f 0).get c, (f 1).get c, (f 2).get c, (f 3).get c, (f 4).get c, (f 5).get c, (f 6).get c, (f 7).get c⟩ := by
  have h : ∀ r < 8, blockElem (ofRows f) (8 * r + c) = (f r).get c := fun r hr => blockElem_ofRows f hr hc
  have h0 := h 0 (by omega)
  rw [Nat.mul_zero, Nat.zero_add] at h0
  unfold blockCol
  rw [h0, show 8 + c = 8 * 1 + c by omega, show 16 + c = 8 * 2 + c by omega, show 24 + c = 8 * 3 + c by omega,
    show 32 + c = 8 * 4 + c by omega, show 40 + c = 8 * 5 + c by omega, show 48 + c = 8 * 6 + c by omega,
    show 56 + c = 8 * 7 + c by omega, h 1 (by omega), h 2 (by omega), h 3 (by omega), h 4 (by omega), h 5 (by omega),
    h 6 (by omega), h 7 (by omega)]

/-! ### Tile addressing -/

/-- A gathered address lies inside the plane (rule R162). -/
theorem gatherAddr_lt {w h : Nat} (br bc k : Nat) (hw : 0 < w) (hh : 0 < h) : gatherAddr w h br bc k < w * h := by
  unfold gatherAddr
  have hy : min (8 * br + k / 8) (h - 1) ≤ h - 1 := Nat.min_le_right _ _
  have hx : min (8 * bc + k % 8) (w - 1) < w := by omega
  calc _ < min (8 * br + k / 8) (h - 1) * w + w := by omega
    _ = (min (8 * br + k / 8) (h - 1) + 1) * w := by ring
    _ ≤ h * w := Nat.mul_le_mul_right w (by omega)
    _ = w * h := Nat.mul_comm h w

/-- A written-back address lies inside the plane (rule R164). -/
theorem scatterAddr_lt {w h br bc k a : Nat} (ha : scatterAddr w h br bc k = some a) : a < w * h := by
  unfold scatterAddr at ha
  split at ha
  · rename_i hb
    obtain rfl := Option.some.inj ha
    calc _ < (8 * br + k / 8) * w + w := by omega
      _ = (8 * br + k / 8 + 1) * w := by ring
      _ ≤ h * w := Nat.mul_le_mul_right w (by omega)
      _ = w * h := Nat.mul_comm h w
  · exact absurd ha (by simp)

/-- Row and column of a plane address. -/
theorem addr_row_col {w y x : Nat} (hx : x < w) : (y * w + x) / w = y ∧ (y * w + x) % w = x := by
  constructor
  · rw [Nat.mul_comm, Nat.mul_add_div (by omega), Nat.div_eq_of_lt hx, Nat.add_zero]
  · rw [Nat.mul_comm, Nat.mul_add_mod, Nat.mod_eq_of_lt hx]

/-- No two cells of a tile are written back to one address. -/
theorem scatterAddr_inj {w h br bc j k a : Nat} (hj : scatterAddr w h br bc j = some a)
    (hk : scatterAddr w h br bc k = some a) : j = k := by
  unfold scatterAddr at hj hk
  split at hj
  · split at hk
    · rename_i h1 h2
      have e1 := Option.some.inj hj
      have e2 := Option.some.inj hk
      have r1 := addr_row_col (y := 8 * br + j / 8) h1.2
      have r2 := addr_row_col (y := 8 * br + k / 8) h2.2
      rw [e1] at r1
      rw [e2] at r2
      omega
    · exact absurd hk (by simp)
  · exact absurd hj (by simp)

/-- An address written back for block (br, bc) lies in that block's own 8 × 8 region (rule R171). -/
theorem scatterAddr_block {w h br bc k a : Nat} (hk : k < 64) (hs : scatterAddr w h br bc k = some a) :
    a / w / 8 = br ∧ a % w / 8 = bc := by
  unfold scatterAddr at hs
  split at hs
  · rename_i hb
    have r := addr_row_col (y := 8 * br + k / 8) hb.2
    rw [Option.some.inj hs] at r
    omega
  · cases hs

/-- An address gathered for a block inside the plane lies in that block's own 8 × 8 region (rule R171). -/
theorem gatherAddr_block {w h br bc k : Nat} (hk : k < 64) (hr : br < cdiv h 8) (hc : bc < cdiv w 8) :
    gatherAddr w h br bc k / w / 8 = br ∧ gatherAddr w h br bc k % w / 8 = bc := by
  rw [lt_cdiv_iff (by omega)] at hr hc
  have r := addr_row_col (w := w) (y := min (8 * br + k / 8) (h - 1)) (x := min (8 * bc + k % 8) (w - 1)) (by omega)
  unfold gatherAddr
  omega

end Sys2Proof.Machine
end

