-- ==== Sys2Proof/Laws/Memory.lean ====
section
/-! SUPPORT. Reading after writing, the canonical form, and the store loop of a pixel memory. -/

namespace Sys2Proof.Machine

@[simp] theorem Memory.read_nil (a : Nat) : Memory.read [] a = Memory.unwritten := rfl

theorem Memory.read_cons (c : Host.Cell) (m : Memory) (a : Nat) :
    Memory.read (c :: m) a = if c.1 = a then c.2 else Memory.read m a := rfl

theorem Memory.read_erase_same (m : Memory) (a : Nat) : Memory.read (Memory.erase m a) a = Memory.unwritten := by
  induction m with
  | nil => rfl
  | cons c m ih =>
    unfold Memory.erase
    split
    · exact ih
    · rw [Memory.read_cons, if_neg ‹_›, ih]

theorem Memory.read_erase_other (m : Memory) {a b : Nat} (h : b ≠ a) :
    Memory.read (Memory.erase m a) b = Memory.read m b := by
  induction m with
  | nil => rfl
  | cons c m ih =>
    unfold Memory.erase
    split
    · rename_i hc
      rw [ih, Memory.read_cons, if_neg (by omega)]
    · rw [Memory.read_cons, Memory.read_cons, ih]

theorem Memory.mem_erase {m : Memory} {a : Nat} {c : Host.Cell} (h : c ∈ Memory.erase m a) : c ∈ m ∧ c.1 ≠ a := by
  induction m with
  | nil => simp [Memory.erase] at h
  | cons d m ih =>
    unfold Memory.erase at h
    split at h
    · exact ⟨List.mem_cons_of_mem _ (ih h).1, (ih h).2⟩
    · rcases List.mem_cons.1 h with rfl | h
      · exact ⟨List.mem_cons_self, ‹_›⟩
      · exact ⟨List.mem_cons_of_mem _ (ih h).1, (ih h).2⟩

theorem Memory.read_insert_same {m : Memory} {a : Nat} (v : Byte) (h : ∀ c ∈ m, c.1 ≠ a) :
    Memory.read (Memory.insert m a v) a = v := by
  induction m with
  | nil => simp [Memory.insert, Memory.read_cons]
  | cons c m ih =>
    unfold Memory.insert
    split
    · simp [Memory.read_cons]
    · rw [Memory.read_cons, if_neg (h c List.mem_cons_self), ih fun d hd => h d (List.mem_cons_of_mem _ hd)]

theorem Memory.read_insert_other (m : Memory) {a b : Nat} (v : Byte) (h : b ≠ a) :
    Memory.read (Memory.insert m a v) b = Memory.read m b := by
  induction m with
  | nil => simp [Memory.insert, Memory.read_cons, Ne.symm h]
  | cons c m ih =>
    unfold Memory.insert
    split
    · rw [Memory.read_cons, if_neg (Ne.symm h)]
    · rw [Memory.read_cons, Memory.read_cons, ih]

/-- A read of the address just written gives the value written, whatever the memory. -/
@[simp] theorem Memory.read_write_same (m : Memory) (a : Nat) (v : Byte) :
    Memory.read (Memory.write m a v) a = v := by
  unfold Memory.write
  split
  · rw [Memory.read_erase_same, ‹v = _›]
  · exact Memory.read_insert_same v fun c hc => (Memory.mem_erase hc).2

/-- A write leaves every other address alone. -/
theorem Memory.read_write_other (m : Memory) {a b : Nat} (v : Byte) (h : b ≠ a) :
    Memory.read (Memory.write m a v) b = Memory.read m b := by
  unfold Memory.write
  split
  · exact Memory.read_erase_other m h
  · rw [Memory.read_insert_other _ v h, Memory.read_erase_other m h]

theorem Memory.read_write (m : Memory) (a b : Nat) (v : Byte) :
    Memory.read (Memory.write m a v) b = if b = a then v else Memory.read m b := by
  split
  · subst b; exact Memory.read_write_same m a v
  · exact Memory.read_write_other m v ‹_›

theorem Memory.mem_insert {m : Memory} {a : Nat} {v : Byte} {c : Host.Cell} (h : c ∈ Memory.insert m a v) :
    c = (a, v) ∨ c ∈ m := by
  induction m with
  | nil => simpa [Memory.insert] using h
  | cons d m ih =>
    unfold Memory.insert at h
    split at h
    · simpa using h
    · rcases List.mem_cons.1 h with rfl | h
      · exact .inr List.mem_cons_self
      · exact (ih h).imp_right (List.mem_cons_of_mem _)

theorem Memory.wf_nil : Memory.wf [] := ⟨List.Pairwise.nil, by simp⟩

theorem Memory.wf_erase {m : Memory} (h : Memory.wf m) (a : Nat) : Memory.wf (Memory.erase m a) := by
  refine ⟨?_, fun c hc => h.2 c (Memory.mem_erase hc).1⟩
  have hp := h.1
  clear h
  induction m with
  | nil => exact List.Pairwise.nil
  | cons c m ih =>
    rw [List.pairwise_cons] at hp
    unfold Memory.erase
    split
    · exact ih hp.2
    · exact List.pairwise_cons.2 ⟨fun d hd => hp.1 d (Memory.mem_erase hd).1, ih hp.2⟩

theorem Memory.pairwise_insert {m : Memory} {a : Nat} (v : Byte) (hp : m.Pairwise fun c d => c.1 < d.1)
    (ha : ∀ c ∈ m, c.1 ≠ a) : (Memory.insert m a v).Pairwise fun c d => c.1 < d.1 := by
  induction m with
  | nil => simp [Memory.insert]
  | cons c m ih =>
    have hc := List.pairwise_cons.1 hp
    have hne := ha c List.mem_cons_self
    unfold Memory.insert
    split
    · rename_i hlt
      refine List.pairwise_cons.2 ⟨fun d hd => ?_, hp⟩
      rcases List.mem_cons.1 hd with rfl | hd
      · exact hlt
      · exact lt_trans hlt (hc.1 d hd)
    · refine List.pairwise_cons.2 ⟨fun d hd => ?_, ih hc.2 fun d hd => ha d (List.mem_cons_of_mem _ hd)⟩
      rcases Memory.mem_insert hd with rfl | hd
      · change c.1 < a
        omega
      · exact hc.1 d hd

/-- A write keeps the canonical form. -/
theorem Memory.wf_write {m : Memory} (h : Memory.wf m) (a : Nat) (v : Byte) : Memory.wf (Memory.write m a v) := by
  unfold Memory.write
  split
  · exact Memory.wf_erase h a
  · refine ⟨Memory.pairwise_insert v (Memory.wf_erase h a).1 fun c hc => (Memory.mem_erase hc).2, fun c hc => ?_⟩
    rcases Memory.mem_insert hc with rfl | hc
    · assumption
    · exact (Memory.wf_erase h a).2 c hc

/-- A write below the capacity lists nothing at or beyond it. -/
theorem Memory.within_write {m : Memory} {n a : Nat} (h : Memory.Within m n) (ha : a < n) (v : Byte) :
    Memory.Within (Memory.write m a v) n := by
  intro c hc
  unfold Memory.write at hc
  split at hc
  · exact h c (Memory.mem_erase hc).1
  · rcases Memory.mem_insert hc with rfl | hc
    · exact ha
    · exact h c (Memory.mem_erase hc).1

/-- An address below which nothing is listed reads as unwritten. -/
theorem Memory.read_of_lt {m : Memory} {a : Nat} (h : ∀ c ∈ m, a < c.1) : Memory.read m a = Memory.unwritten := by
  induction m with
  | nil => rfl
  | cons c m ih =>
    rw [Memory.read_cons, if_neg (ne_of_gt (h c List.mem_cons_self)), ih fun d hd => h d (List.mem_cons_of_mem _ hd)]

/-- Canonical memories that read alike are equal data. -/
theorem Memory.eq_of_read {m n : Memory} (hm : Memory.wf m) (hn : Memory.wf n)
    (h : ∀ a, Memory.read m a = Memory.read n a) : m = n := by
  induction m generalizing n with
  | nil =>
    cases n with
    | nil => rfl
    | cons d n =>
      have := h d.1
      rw [Memory.read_cons, if_pos rfl] at this
      exact absurd this.symm (hn.2 d List.mem_cons_self)
  | cons c m ih =>
    have pm := List.pairwise_cons.1 hm.1
    cases n with
    | nil =>
      have := h c.1
      rw [Memory.read_cons, if_pos rfl] at this
      exact absurd this (hm.2 c List.mem_cons_self)
    | cons d n =>
      have pn := List.pairwise_cons.1 hn.1
      have key : c.1 = d.1 := by
        rcases Nat.lt_trichotomy c.1 d.1 with hl | he | hg
        · have := h c.1
          rw [Memory.read_cons, if_pos rfl, Memory.read_of_lt] at this
          · exact absurd this (hm.2 c List.mem_cons_self)
          · intro e he
            rcases List.mem_cons.1 he with rfl | he
            · exact hl
            · exact lt_trans hl (pn.1 e he)
        · exact he
        · have := h d.1
          rw [Memory.read_cons (c := d), if_pos rfl, Memory.read_of_lt] at this
          · exact absurd this.symm (hn.2 d List.mem_cons_self)
          · intro e he
            rcases List.mem_cons.1 he with rfl | he
            · exact hg
            · exact lt_trans hg (pm.1 e he)
      have hcd : c = d := by
        have := h c.1
        rw [Memory.read_cons, if_pos rfl, Memory.read_cons, if_pos key.symm] at this
        exact Prod.ext key this
      subst hcd
      have tail : ∀ a, Memory.read m a = Memory.read n a := by
        intro a
        by_cases ha : c.1 = a
        · subst ha
          rw [Memory.read_of_lt pm.1, Memory.read_of_lt pn.1]
        · have := h a
          rwa [Memory.read_cons, Memory.read_cons, if_neg ha, if_neg ha] at this
      rw [ih ⟨pm.2, fun e he => hm.2 e (List.mem_cons_of_mem _ he)⟩
        ⟨pn.2, fun e he => hn.2 e (List.mem_cons_of_mem _ he)⟩ tail]

/-! ### The store loop -/

@[simp] theorem Memory.writeMany_zero (m : Memory) (addr : Nat → Option Nat) (val : Nat → Byte) :
    Memory.writeMany m 0 addr val = m := rfl

theorem Memory.writeMany_succ (m : Memory) (n : Nat) (addr : Nat → Option Nat) (val : Nat → Byte) :
    Memory.writeMany m (n + 1) addr val =
      match addr n with
      | some a => Memory.write (Memory.writeMany m n addr val) a (val n)
      | none => Memory.writeMany m n addr val := by
  unfold Memory.writeMany
  rw [List.range_succ, List.foldl_append]
  rfl

/-- An address no store of the loop names reads as before. -/
theorem Memory.read_writeMany_other {m : Memory} {n : Nat} {addr : Nat → Option Nat} {val : Nat → Byte} {a : Nat}
    (h : ∀ k < n, addr k ≠ some a) : Memory.read (Memory.writeMany m n addr val) a = Memory.read m a := by
  induction n with
  | zero => rfl
  | succ n ih =>
    have hn := h n (Nat.lt_succ_self n)
    rw [Memory.writeMany_succ]
    cases he : addr n with
    | none => exact ih fun k hk => h k (by omega)
    | some b =>
      have : a ≠ b := fun hab => hn (by rw [he, hab])
      simp only [Memory.read_write_other _ _ this]
      exact ih fun k hk => h k (by omega)

/-- Where no two stores of the loop name one address, the address of store k reads the value of store k. -/
theorem Memory.read_writeMany_same {m : Memory} {n : Nat} {addr : Nat → Option Nat} {val : Nat → Byte} {a k : Nat}
    (hk : k < n) (ha : addr k = some a) (inj : ∀ j < n, addr j = some a → j = k) :
    Memory.read (Memory.writeMany m n addr val) a = val k := by
  induction n with
  | zero => omega
  | succ n ih =>
    rw [Memory.writeMany_succ]
    by_cases hkn : k = n
    · subst hkn
      simp [ha]
    · have hlt : k < n := by omega
      have ih' := ih hlt fun j hj => inj j (by omega)
      cases he : addr n with
      | none => exact ih'
      | some b =>
        have : a ≠ b := fun hab => hkn (inj n (by omega) (by rw [he, hab])).symm
        simp only [Memory.read_write_other _ _ this]
        exact ih'

theorem Memory.wf_writeMany {m : Memory} (h : Memory.wf m) (n : Nat) (addr : Nat → Option Nat) (val : Nat → Byte) :
    Memory.wf (Memory.writeMany m n addr val) := by
  induction n with
  | zero => exact h
  | succ n ih =>
    rw [Memory.writeMany_succ]
    cases addr n with
    | none => exact ih
    | some a => exact Memory.wf_write ih a _

theorem Memory.within_writeMany {m : Memory} {c n : Nat} {addr : Nat → Option Nat} (h : Memory.Within m c)
    (ha : ∀ k < n, ∀ a, addr k = some a → a < c) (val : Nat → Byte) :
    Memory.Within (Memory.writeMany m n addr val) c := by
  induction n with
  | zero => exact h
  | succ n ih =>
    have ih' := ih fun k hk => ha k (by omega)
    rw [Memory.writeMany_succ]
    cases he : addr n with
    | none => exact ih'
    | some a => exact Memory.within_write ih' (ha n (by omega) a he) _

end Sys2Proof.Machine
end

