-- ==== Sys2Proof/Laws/Colour.lean ====
section
/-! SUPPORT. The addresses of the colour codec (rules R141, R142, R145 and R147). -/

namespace Sys2Proof.Machine

/-- A value in 0..255 is stored as it is (rule R144). -/
theorem toByte_toNat {z : Int} (h0 : 0 ≤ z) (h1 : z ≤ 255) : ((toByte z).toNat : Int) = z := by
  unfold toByte
  rw [if_pos ⟨h0, h1⟩, BitVec.toNat_ofInt]
  omega

/-- A clamped value is stored without loss (rule R148). -/
theorem clampedByte_toNat (z : Int) : ((clampedByte z).toNat : Int) = clamp8 z := by
  have h0 := clamp8_nonneg z
  have h1 := clamp8_le z
  unfold clampedByte
  rw [BitVec.toNat_ofInt]
  omega

/-- The raster index of an in-bounds cell is below the number of cells. -/
theorem raster_lt {w h y x : Nat} (hx : x < w) (hy : y < h) : y * w + x < w * h :=
  calc y * w + x < y * w + w := by omega
    _ = (y + 1) * w := by ring
    _ ≤ h * w := Nat.mul_le_mul_right w (by omega)
    _ = w * h := Nat.mul_comm h w

/-- The top-left pixel of grid cell (cx, cy) stores its pair at the cell's index. -/
theorem chromaStore_at {w hor ver cx : Nat} (cy : Nat) (hc : cx < cdiv w hor) (h1 : 0 < hor) (h2 : 0 < ver) :
    chromaStore w hor ver (cy * ver * w + cx * hor) = some (cy * cdiv w hor + cx) := by
  have r := addr_row_col (y := cy * ver) ((lt_cdiv_iff h1).1 hc)
  unfold chromaStore
  rw [r.1, r.2, if_pos ⟨Nat.mul_mod_left _ _, Nat.mul_mod_left _ _⟩, Nat.mul_div_cancel _ h2, Nat.mul_div_cancel _ h1]

/-- No other pixel stores a pair there: each cell's index is written once. -/
theorem chromaStore_inj {w hor ver j cx cy : Nat} (hw : 0 < w) (hc : cx < cdiv w hor) (h1 : 0 < hor)
    (h : chromaStore w hor ver j = some (cy * cdiv w hor + cx)) : j = cy * ver * w + cx * hor := by
  unfold chromaStore at h
  split at h
  · rename_i hz
    have e := Option.some.inj h
    have hx : (j % w) / hor < cdiv w hor := div_lt_cdiv h1 (Nat.mod_lt _ hw)
    have r1 := addr_row_col (y := (j / w) / ver) hx
    have r2 := addr_row_col (y := cy) hc
    rw [e] at r1
    have a1 : (j / w) / ver = cy := by omega
    have a2 : (j % w) / hor = cx := by omega
    have m1 := Nat.div_add_mod (j / w) ver
    have m2 := Nat.div_add_mod (j % w) hor
    have m3 := Nat.div_add_mod j w
    rw [a1, hz.1] at m1
    rw [a2, hz.2] at m2
    rw [← m3, ← m1, ← m2]
    ring
  · cases h

/-- Every index a pair is stored at lies inside the chroma plane (rule R142). -/
theorem chromaStore_lt {w h hor ver k a : Nat} (h1 : 0 < hor) (h2 : 0 < ver) (hk : k < w * h)
    (ha : chromaStore w hor ver k = some a) : a < cdiv w hor * cdiv h ver := by
  have hw : 0 < w := Nat.pos_of_ne_zero fun e => by rw [e, Nat.zero_mul] at hk; omega
  unfold chromaStore at ha
  split at ha
  · rw [← Option.some.inj ha]
    exact raster_lt (div_lt_cdiv h1 (Nat.mod_lt _ hw))
      (div_lt_cdiv h2 (by rw [Nat.div_lt_iff_lt_mul hw, Nat.mul_comm]; exact hk))
  · cases ha

/-- The chroma pair of pixel (x, y) is looked up at its cell's index. -/
theorem chromaLookup_at {w hor ver x : Nat} (y : Nat) (hx : x < w) :
    chromaLookup w hor ver (y * w + x) = y / ver * cdiv w hor + x / hor := by
  have r := addr_row_col (y := y) hx
  unfold chromaLookup
  rw [r.1, r.2]

/-- Dividing both sides cannot enlarge a plane: the chroma planes fit where the luma plane does (rule R187). -/
theorem chroma_size_le {w h hor ver : Nat} (h1 : 0 < hor) (h2 : 0 < ver) : cdiv w hor * cdiv h ver ≤ w * h := by
  have le : ∀ {a b : Nat}, 0 < b → cdiv a b ≤ a := by
    intro a b hb
    by_contra hc
    have := (lt_cdiv_iff (k := a) (a := a) hb).1 (by omega)
    nlinarith
  exact Nat.mul_le_mul (le h1) (le h2)

end Sys2Proof.Machine
end

