-- ==== Sys2Proof/Laws/Encoding.lean ====
section
/-! SUPPORT. The fields of a packed command word (rule R71). -/

namespace Sys2Proof

/-- A packed word as a number, where every field fits. -/
theorem packWord_toNat {opc psel tsel bcol brow : Nat} (h0 : opc < 32) (h1 : psel < 4) (h2 : tsel < 2)
    (h3 : bcol < 4096) (h4 : brow < 4096) :
    (packWord opc psel tsel bcol brow).toNat = opc + 32 * psel + 128 * tsel + 256 * bcol + 1048576 * brow := by
  unfold packWord
  rw [BitVec.toNat_ofNat, Nat.mod_eq_of_lt (by omega)]

theorem opcField_packWord {opc psel tsel bcol brow : Nat} (h0 : opc < 32) (h1 : psel < 4) (h2 : tsel < 2)
    (h3 : bcol < 4096) (h4 : brow < 4096) : opcField (packWord opc psel tsel bcol brow) = opc := by
  unfold opcField
  rw [BitVec.extractLsb'_toNat, packWord_toNat h0 h1 h2 h3 h4, Nat.shiftRight_eq_div_pow]
  omega

theorem bcolField_packWord {opc psel tsel bcol brow : Nat} (h0 : opc < 32) (h1 : psel < 4) (h2 : tsel < 2)
    (h3 : bcol < 4096) (h4 : brow < 4096) : bcolField (packWord opc psel tsel bcol brow) = bcol := by
  unfold bcolField
  rw [BitVec.extractLsb'_toNat, packWord_toNat h0 h1 h2 h3 h4, Nat.shiftRight_eq_div_pow]
  omega

theorem browField_packWord {opc psel tsel bcol brow : Nat} (h0 : opc < 32) (h1 : psel < 4) (h2 : tsel < 2)
    (h3 : bcol < 4096) (h4 : brow < 4096) : browField (packWord opc psel tsel bcol brow) = brow := by
  unfold browField
  rw [BitVec.extractLsb'_toNat, packWord_toNat h0 h1 h2 h3 h4, Nat.shiftRight_eq_div_pow]
  omega

theorem pselField_packWord {opc tsel bcol brow : Nat} (p : PSel) (h0 : opc < 32) (h2 : tsel < 2)
    (h3 : bcol < 4096) (h4 : brow < 4096) : pselField (packWord opc p.code tsel bcol brow) = p := by
  have h1 : p.code < 4 := by cases p <;> decide
  have : ((packWord opc p.code tsel bcol brow).extractLsb' 5 2).toNat = p.code := by
    rw [BitVec.extractLsb'_toNat, packWord_toNat h0 h1 h2 h3 h4, Nat.shiftRight_eq_div_pow]
    omega
  unfold pselField
  rw [this]
  cases p <;> rfl

theorem tselField_packWord {opc psel bcol brow : Nat} (t : TSel) (h0 : opc < 32) (h1 : psel < 4)
    (h3 : bcol < 4096) (h4 : brow < 4096) : tselField (packWord opc psel t.code bcol brow) = t := by
  have h2 : t.code < 2 := by cases t <;> decide
  have : ((packWord opc psel t.code bcol brow).extractLsb' 7 1).toNat = t.code := by
    rw [BitVec.extractLsb'_toNat, packWord_toNat h0 h1 h2 h3 h4, Nat.shiftRight_eq_div_pow]
    omega
  unfold tselField
  rw [this]
  cases t <;> rfl

/-- A mask that looks at the low eight bits sees only `OPC`, `PSEL` and `TSEL` of a packed word. -/
theorem packWord_and_low {opc psel tsel bcol brow m : Nat} (h0 : opc < 32) (h1 : psel < 4) (h2 : tsel < 2)
    (h3 : bcol < 4096) (h4 : brow < 4096) (hm : m < 256) :
    (packWord opc psel tsel bcol brow &&& BitVec.ofNat 32 m).toNat = (opc + 32 * psel + 128 * tsel) &&& m := by
  rw [BitVec.toNat_and, packWord_toNat h0 h1 h2 h3 h4, BitVec.toNat_ofNat, Nat.mod_eq_of_lt (a := m) (by omega)]
  generalize hx : opc + 32 * psel + 128 * tsel + 256 * bcol + 1048576 * brow = x
  have hle : x &&& m < 2 ^ 8 := lt_of_le_of_lt Nat.and_le_right hm
  rw [← Nat.mod_eq_of_lt hle, Nat.and_mod_two_pow, Nat.mod_eq_of_lt (a := m) (by omega),
    show x % 2 ^ 8 = opc + 32 * psel + 128 * tsel by omega]

end Sys2Proof
end

