-- ==== Sys2Proof/Laws/State.lean ====
section
/-! SUPPORT. One lemma per field per named update of the state, so that no proof unfolds an update, and what the
operand accessors say after each. -/

namespace Sys2Proof.Machine

/-! ### `State.finish` -/

@[simp] theorem State.finish_cfg (s : State) : (s.finish).cfg = s.cfg := rfl
@[simp] theorem State.finish_blk (s : State) : (s.finish).blk = s.blk := rfl
@[simp] theorem State.finish_qt0 (s : State) : (s.finish).qt0 = s.qt0 := rfl
@[simp] theorem State.finish_qt1 (s : State) : (s.finish).qt1 = s.qt1 := rfl
@[simp] theorem State.finish_qtv0 (s : State) : (s.finish).qtv0 = s.qtv0 := rfl
@[simp] theorem State.finish_qtv1 (s : State) : (s.finish).qtv1 = s.qtv1 := rfl
@[simp] theorem State.finish_pix (s : State) : (s.finish).pix = s.pix := rfl
@[simp] theorem State.finish_yp (s : State) : (s.finish).yp = s.yp := rfl
@[simp] theorem State.finish_cbp (s : State) : (s.finish).cbp = s.cbp := rfl
@[simp] theorem State.finish_crp (s : State) : (s.finish).crp = s.crp := rfl
@[simp] theorem State.finish_ctrl (s : State) : (s.finish).ctrl = s.ctrl := rfl
@[simp] theorem State.finish_cmd (s : State) : (s.finish).cmd = s.cmd := rfl
@[simp] theorem State.finish_width (s : State) : (s.finish).width = s.width := rfl
@[simp] theorem State.finish_height (s : State) : (s.finish).height = s.height := rfl
@[simp] theorem State.finish_fmt (s : State) : (s.finish).fmt = s.fmt := rfl
@[simp] theorem State.finish_qcfg (s : State) : (s.finish).qcfg = s.qcfg := rfl
@[simp] theorem State.finish_busy (s : State) : (s.finish).busy = false := rfl
@[simp] theorem State.finish_done (s : State) : (s.finish).done = true := rfl
@[simp] theorem State.finish_err (s : State) : (s.finish).err = s.err := rfl
@[simp] theorem State.finish_ovr (s : State) : (s.finish).ovr = s.ovr := rfl
@[simp] theorem State.finish_noop (s : State) : (s.finish).noop = s.noop := rfl
@[simp] theorem State.finish_dconly (s : State) : (s.finish).dconly = s.dconly := rfl
@[simp] theorem State.finish_ecode (s : State) : (s.finish).ecode = s.ecode := rfl
@[simp] theorem State.finish_schedule (s : State) : (s.finish).schedule = s.schedule := rfl
@[simp] theorem State.finish_portData (s : State) : (s.finish).portData = s.portData := rfl
@[simp] theorem State.finish_draw (s : State) : (s.finish).draw = s.draw := rfl
@[simp] theorem State.finish_imgW (s : State) : (s.finish).imgW = s.imgW := rfl
@[simp] theorem State.finish_imgH (s : State) : (s.finish).imgH = s.imgH := rfl
@[simp] theorem State.finish_ch (s : State) : (s.finish).ch = s.ch := rfl
@[simp] theorem State.finish_subsamp (s : State) : (s.finish).subsamp = s.subsamp := rfl
@[simp] theorem State.finish_ratio (s : State) : (s.finish).ratio = s.ratio := rfl
@[simp] theorem State.finish_chromaDims (s : State) : (s.finish).chromaDims = s.chromaDims := rfl
@[simp] theorem State.finish_quality (s : State) : (s.finish).quality = s.quality := rfl
@[simp] theorem State.finish_preset (s : State) : (s.finish).preset = s.preset := rfl

@[simp] theorem State.finish_mem (s : State) (q : PSel) : (s.finish).mem q = s.mem q := by
  cases q <;> rfl
@[simp] theorem State.finish_planeDims (s : State) (q : PSel) : (s.finish).planeDims q = s.planeDims q := by
  cases q <;> rfl
@[simp] theorem State.finish_table (s : State) (u : TSel) : (s.finish).table u = s.table u := by
  cases u <;> rfl
@[simp] theorem State.finish_valid (s : State) (u : TSel) : (s.finish).valid u = s.valid u := by
  cases u <;> rfl

/-! ### `State.launch` -/

@[simp] theorem State.launch_cfg (s : State) (w : Word) : (s.launch w).cfg = s.cfg := rfl
@[simp] theorem State.launch_blk (s : State) (w : Word) : (s.launch w).blk = s.blk := rfl
@[simp] theorem State.launch_qt0 (s : State) (w : Word) : (s.launch w).qt0 = s.qt0 := rfl
@[simp] theorem State.launch_qt1 (s : State) (w : Word) : (s.launch w).qt1 = s.qt1 := rfl
@[simp] theorem State.launch_qtv0 (s : State) (w : Word) : (s.launch w).qtv0 = s.qtv0 := rfl
@[simp] theorem State.launch_qtv1 (s : State) (w : Word) : (s.launch w).qtv1 = s.qtv1 := rfl
@[simp] theorem State.launch_pix (s : State) (w : Word) : (s.launch w).pix = s.pix := rfl
@[simp] theorem State.launch_yp (s : State) (w : Word) : (s.launch w).yp = s.yp := rfl
@[simp] theorem State.launch_cbp (s : State) (w : Word) : (s.launch w).cbp = s.cbp := rfl
@[simp] theorem State.launch_crp (s : State) (w : Word) : (s.launch w).crp = s.crp := rfl
@[simp] theorem State.launch_ctrl (s : State) (w : Word) : (s.launch w).ctrl = s.ctrl := rfl
@[simp] theorem State.launch_cmd (s : State) (w : Word) : (s.launch w).cmd = w := rfl
@[simp] theorem State.launch_width (s : State) (w : Word) : (s.launch w).width = s.width := rfl
@[simp] theorem State.launch_height (s : State) (w : Word) : (s.launch w).height = s.height := rfl
@[simp] theorem State.launch_fmt (s : State) (w : Word) : (s.launch w).fmt = s.fmt := rfl
@[simp] theorem State.launch_qcfg (s : State) (w : Word) : (s.launch w).qcfg = s.qcfg := rfl
@[simp] theorem State.launch_busy (s : State) (w : Word) : (s.launch w).busy = true := rfl
@[simp] theorem State.launch_done (s : State) (w : Word) : (s.launch w).done = false := rfl
@[simp] theorem State.launch_err (s : State) (w : Word) : (s.launch w).err = s.err := rfl
@[simp] theorem State.launch_ovr (s : State) (w : Word) : (s.launch w).ovr = s.ovr := rfl
@[simp] theorem State.launch_noop (s : State) (w : Word) : (s.launch w).noop = s.noop := rfl
@[simp] theorem State.launch_dconly (s : State) (w : Word) : (s.launch w).dconly = s.dconly := rfl
@[simp] theorem State.launch_ecode (s : State) (w : Word) : (s.launch w).ecode = s.ecode := rfl
@[simp] theorem State.launch_schedule (s : State) (w : Word) : (s.launch w).schedule = s.schedule := rfl
@[simp] theorem State.launch_portData (s : State) (w : Word) : (s.launch w).portData = s.portData := rfl
@[simp] theorem State.launch_draw (s : State) (w : Word) : (s.launch w).draw = s.draw := rfl
@[simp] theorem State.launch_imgW (s : State) (w : Word) : (s.launch w).imgW = s.imgW := rfl
@[simp] theorem State.launch_imgH (s : State) (w : Word) : (s.launch w).imgH = s.imgH := rfl
@[simp] theorem State.launch_ch (s : State) (w : Word) : (s.launch w).ch = s.ch := rfl
@[simp] theorem State.launch_subsamp (s : State) (w : Word) : (s.launch w).subsamp = s.subsamp := rfl
@[simp] theorem State.launch_ratio (s : State) (w : Word) : (s.launch w).ratio = s.ratio := rfl
@[simp] theorem State.launch_chromaDims (s : State) (w : Word) : (s.launch w).chromaDims = s.chromaDims := rfl
@[simp] theorem State.launch_quality (s : State) (w : Word) : (s.launch w).quality = s.quality := rfl
@[simp] theorem State.launch_preset (s : State) (w : Word) : (s.launch w).preset = s.preset := rfl

@[simp] theorem State.launch_mem (s : State) (w : Word) (q : PSel) : (s.launch w).mem q = s.mem q := by
  cases q <;> rfl
@[simp] theorem State.launch_planeDims (s : State) (w : Word) (q : PSel) : (s.launch w).planeDims q = s.planeDims q := by
  cases q <;> rfl
@[simp] theorem State.launch_table (s : State) (w : Word) (u : TSel) : (s.launch w).table u = s.table u := by
  cases u <;> rfl
@[simp] theorem State.launch_valid (s : State) (w : Word) (u : TSel) : (s.launch w).valid u = s.valid u := by
  cases u <;> rfl

/-! ### `State.ackError` -/

@[simp] theorem State.ackError_cfg (s : State) : (s.ackError).cfg = s.cfg := rfl
@[simp] theorem State.ackError_blk (s : State) : (s.ackError).blk = s.blk := rfl
@[simp] theorem State.ackError_qt0 (s : State) : (s.ackError).qt0 = s.qt0 := rfl
@[simp] theorem State.ackError_qt1 (s : State) : (s.ackError).qt1 = s.qt1 := rfl
@[simp] theorem State.ackError_qtv0 (s : State) : (s.ackError).qtv0 = s.qtv0 := rfl
@[simp] theorem State.ackError_qtv1 (s : State) : (s.ackError).qtv1 = s.qtv1 := rfl
@[simp] theorem State.ackError_pix (s : State) : (s.ackError).pix = s.pix := rfl
@[simp] theorem State.ackError_yp (s : State) : (s.ackError).yp = s.yp := rfl
@[simp] theorem State.ackError_cbp (s : State) : (s.ackError).cbp = s.cbp := rfl
@[simp] theorem State.ackError_crp (s : State) : (s.ackError).crp = s.crp := rfl
@[simp] theorem State.ackError_ctrl (s : State) : (s.ackError).ctrl = s.ctrl := rfl
@[simp] theorem State.ackError_cmd (s : State) : (s.ackError).cmd = s.cmd := rfl
@[simp] theorem State.ackError_width (s : State) : (s.ackError).width = s.width := rfl
@[simp] theorem State.ackError_height (s : State) : (s.ackError).height = s.height := rfl
@[simp] theorem State.ackError_fmt (s : State) : (s.ackError).fmt = s.fmt := rfl
@[simp] theorem State.ackError_qcfg (s : State) : (s.ackError).qcfg = s.qcfg := rfl
@[simp] theorem State.ackError_busy (s : State) : (s.ackError).busy = s.busy := rfl
@[simp] theorem State.ackError_done (s : State) : (s.ackError).done = s.done := rfl
@[simp] theorem State.ackError_err (s : State) : (s.ackError).err = false := rfl
@[simp] theorem State.ackError_ovr (s : State) : (s.ackError).ovr = s.ovr := rfl
@[simp] theorem State.ackError_noop (s : State) : (s.ackError).noop = s.noop := rfl
@[simp] theorem State.ackError_dconly (s : State) : (s.ackError).dconly = s.dconly := rfl
@[simp] theorem State.ackError_ecode (s : State) : (s.ackError).ecode = 0 := rfl
@[simp] theorem State.ackError_schedule (s : State) : (s.ackError).schedule = s.schedule := rfl
@[simp] theorem State.ackError_portData (s : State) : (s.ackError).portData = s.portData := rfl
@[simp] theorem State.ackError_draw (s : State) : (s.ackError).draw = s.draw := rfl
@[simp] theorem State.ackError_imgW (s : State) : (s.ackError).imgW = s.imgW := rfl
@[simp] theorem State.ackError_imgH (s : State) : (s.ackError).imgH = s.imgH := rfl
@[simp] theorem State.ackError_ch (s : State) : (s.ackError).ch = s.ch := rfl
@[simp] theorem State.ackError_subsamp (s : State) : (s.ackError).subsamp = s.subsamp := rfl
@[simp] theorem State.ackError_ratio (s : State) : (s.ackError).ratio = s.ratio := rfl
@[simp] theorem State.ackError_chromaDims (s : State) : (s.ackError).chromaDims = s.chromaDims := rfl
@[simp] theorem State.ackError_quality (s : State) : (s.ackError).quality = s.quality := rfl
@[simp] theorem State.ackError_preset (s : State) : (s.ackError).preset = s.preset := rfl

@[simp] theorem State.ackError_mem (s : State) (q : PSel) : (s.ackError).mem q = s.mem q := by
  cases q <;> rfl
@[simp] theorem State.ackError_planeDims (s : State) (q : PSel) : (s.ackError).planeDims q = s.planeDims q := by
  cases q <;> rfl
@[simp] theorem State.ackError_table (s : State) (u : TSel) : (s.ackError).table u = s.table u := by
  cases u <;> rfl
@[simp] theorem State.ackError_valid (s : State) (u : TSel) : (s.ackError).valid u = s.valid u := by
  cases u <;> rfl

/-! ### `State.raiseError` -/

@[simp] theorem State.raiseError_cfg (s : State) (e : ErrCode) : (s.raiseError e).cfg = s.cfg := by
  unfold State.raiseError; split <;> rfl
@[simp] theorem State.raiseError_blk (s : State) (e : ErrCode) : (s.raiseError e).blk = s.blk := by
  unfold State.raiseError; split <;> rfl
@[simp] theorem State.raiseError_qt0 (s : State) (e : ErrCode) : (s.raiseError e).qt0 = s.qt0 := by
  unfold State.raiseError; split <;> rfl
@[simp] theorem State.raiseError_qt1 (s : State) (e : ErrCode) : (s.raiseError e).qt1 = s.qt1 := by
  unfold State.raiseError; split <;> rfl
@[simp] theorem State.raiseError_qtv0 (s : State) (e : ErrCode) : (s.raiseError e).qtv0 = s.qtv0 := by
  unfold State.raiseError; split <;> rfl
@[simp] theorem State.raiseError_qtv1 (s : State) (e : ErrCode) : (s.raiseError e).qtv1 = s.qtv1 := by
  unfold State.raiseError; split <;> rfl
@[simp] theorem State.raiseError_pix (s : State) (e : ErrCode) : (s.raiseError e).pix = s.pix := by
  unfold State.raiseError; split <;> rfl
@[simp] theorem State.raiseError_yp (s : State) (e : ErrCode) : (s.raiseError e).yp = s.yp := by
  unfold State.raiseError; split <;> rfl
@[simp] theorem State.raiseError_cbp (s : State) (e : ErrCode) : (s.raiseError e).cbp = s.cbp := by
  unfold State.raiseError; split <;> rfl
@[simp] theorem State.raiseError_crp (s : State) (e : ErrCode) : (s.raiseError e).crp = s.crp := by
  unfold State.raiseError; split <;> rfl
@[simp] theorem State.raiseError_ctrl (s : State) (e : ErrCode) : (s.raiseError e).ctrl = s.ctrl := by
  unfold State.raiseError; split <;> rfl
@[simp] theorem State.raiseError_cmd (s : State) (e : ErrCode) : (s.raiseError e).cmd = s.cmd := by
  unfold State.raiseError; split <;> rfl
@[simp] theorem State.raiseError_width (s : State) (e : ErrCode) : (s.raiseError e).width = s.width := by
  unfold State.raiseError; split <;> rfl
@[simp] theorem State.raiseError_height (s : State) (e : ErrCode) : (s.raiseError e).height = s.height := by
  unfold State.raiseError; split <;> rfl
@[simp] theorem State.raiseError_fmt (s : State) (e : ErrCode) : (s.raiseError e).fmt = s.fmt := by
  unfold State.raiseError; split <;> rfl
@[simp] theorem State.raiseError_qcfg (s : State) (e : ErrCode) : (s.raiseError e).qcfg = s.qcfg := by
  unfold State.raiseError; split <;> rfl
@[simp] theorem State.raiseError_busy (s : State) (e : ErrCode) : (s.raiseError e).busy = false := by
  unfold State.raiseError; split <;> rfl
@[simp] theorem State.raiseError_done (s : State) (e : ErrCode) : (s.raiseError e).done = true := by
  unfold State.raiseError; split <;> rfl
@[simp] theorem State.raiseError_ovr (s : State) (e : ErrCode) : (s.raiseError e).ovr = s.ovr := by
  unfold State.raiseError; split <;> rfl
@[simp] theorem State.raiseError_noop (s : State) (e : ErrCode) : (s.raiseError e).noop = s.noop := by
  unfold State.raiseError; split <;> rfl
@[simp] theorem State.raiseError_dconly (s : State) (e : ErrCode) : (s.raiseError e).dconly = s.dconly := by
  unfold State.raiseError; split <;> rfl
@[simp] theorem State.raiseError_schedule (s : State) (e : ErrCode) : (s.raiseError e).schedule = s.schedule := by
  unfold State.raiseError; split <;> rfl
@[simp] theorem State.raiseError_portData (s : State) (e : ErrCode) : (s.raiseError e).portData = s.portData := by
  unfold State.raiseError; split <;> rfl
@[simp] theorem State.raiseError_draw (s : State) (e : ErrCode) : (s.raiseError e).draw = s.draw := by
  unfold State.raiseError; split <;> rfl
@[simp] theorem State.raiseError_imgW (s : State) (e : ErrCode) : (s.raiseError e).imgW = s.imgW := by
  unfold State.raiseError; split <;> rfl
@[simp] theorem State.raiseError_imgH (s : State) (e : ErrCode) : (s.raiseError e).imgH = s.imgH := by
  unfold State.raiseError; split <;> rfl
@[simp] theorem State.raiseError_ch (s : State) (e : ErrCode) : (s.raiseError e).ch = s.ch := by
  unfold State.raiseError; split <;> rfl
@[simp] theorem State.raiseError_subsamp (s : State) (e : ErrCode) : (s.raiseError e).subsamp = s.subsamp := by
  unfold State.raiseError; split <;> rfl
@[simp] theorem State.raiseError_ratio (s : State) (e : ErrCode) : (s.raiseError e).ratio = s.ratio := by
  unfold State.raiseError; split <;> rfl
@[simp] theorem State.raiseError_chromaDims (s : State) (e : ErrCode) : (s.raiseError e).chromaDims = s.chromaDims := by
  unfold State.raiseError; split <;> rfl
@[simp] theorem State.raiseError_quality (s : State) (e : ErrCode) : (s.raiseError e).quality = s.quality := by
  unfold State.raiseError; split <;> rfl
@[simp] theorem State.raiseError_preset (s : State) (e : ErrCode) : (s.raiseError e).preset = s.preset := by
  unfold State.raiseError; split <;> rfl

@[simp] theorem State.raiseError_err (s : State) (e : ErrCode) : (s.raiseError e).err = true := by
  unfold State.raiseError; split <;> simp_all
theorem State.raiseError_ecode (s : State) (e : ErrCode) :
    (s.raiseError e).ecode = if s.err then s.ecode else ecodeOf e := by
  unfold State.raiseError; split <;> rfl
@[simp] theorem State.raiseError_mem (s : State) (e : ErrCode) (q : PSel) : (s.raiseError e).mem q = s.mem q := by
  cases q <;> (unfold State.raiseError; split <;> rfl)
@[simp] theorem State.raiseError_planeDims (s : State) (e : ErrCode) (q : PSel) : (s.raiseError e).planeDims q = s.planeDims q := by
  cases q <;> (unfold State.raiseError; split <;> rfl)
@[simp] theorem State.raiseError_table (s : State) (e : ErrCode) (u : TSel) : (s.raiseError e).table u = s.table u := by
  cases u <;> (unfold State.raiseError; split <;> rfl)
@[simp] theorem State.raiseError_valid (s : State) (e : ErrCode) (u : TSel) : (s.raiseError e).valid u = s.valid u := by
  cases u <;> (unfold State.raiseError; split <;> rfl)

/-! ### `State.setMem` -/

@[simp] theorem State.setMem_cfg (s : State) (p : PSel) (m : Memory) : (s.setMem p m).cfg = s.cfg := by cases p <;> rfl
@[simp] theorem State.setMem_blk (s : State) (p : PSel) (m : Memory) : (s.setMem p m).blk = s.blk := by cases p <;> rfl
@[simp] theorem State.setMem_qt0 (s : State) (p : PSel) (m : Memory) : (s.setMem p m).qt0 = s.qt0 := by cases p <;> rfl
@[simp] theorem State.setMem_qt1 (s : State) (p : PSel) (m : Memory) : (s.setMem p m).qt1 = s.qt1 := by cases p <;> rfl
@[simp] theorem State.setMem_qtv0 (s : State) (p : PSel) (m : Memory) : (s.setMem p m).qtv0 = s.qtv0 := by cases p <;> rfl
@[simp] theorem State.setMem_qtv1 (s : State) (p : PSel) (m : Memory) : (s.setMem p m).qtv1 = s.qtv1 := by cases p <;> rfl
@[simp] theorem State.setMem_ctrl (s : State) (p : PSel) (m : Memory) : (s.setMem p m).ctrl = s.ctrl := by cases p <;> rfl
@[simp] theorem State.setMem_cmd (s : State) (p : PSel) (m : Memory) : (s.setMem p m).cmd = s.cmd := by cases p <;> rfl
@[simp] theorem State.setMem_width (s : State) (p : PSel) (m : Memory) : (s.setMem p m).width = s.width := by cases p <;> rfl
@[simp] theorem State.setMem_height (s : State) (p : PSel) (m : Memory) : (s.setMem p m).height = s.height := by cases p <;> rfl
@[simp] theorem State.setMem_fmt (s : State) (p : PSel) (m : Memory) : (s.setMem p m).fmt = s.fmt := by cases p <;> rfl
@[simp] theorem State.setMem_qcfg (s : State) (p : PSel) (m : Memory) : (s.setMem p m).qcfg = s.qcfg := by cases p <;> rfl
@[simp] theorem State.setMem_busy (s : State) (p : PSel) (m : Memory) : (s.setMem p m).busy = s.busy := by cases p <;> rfl
@[simp] theorem State.setMem_done (s : State) (p : PSel) (m : Memory) : (s.setMem p m).done = s.done := by cases p <;> rfl
@[simp] theorem State.setMem_err (s : State) (p : PSel) (m : Memory) : (s.setMem p m).err = s.err := by cases p <;> rfl
@[simp] theorem State.setMem_ovr (s : State) (p : PSel) (m : Memory) : (s.setMem p m).ovr = s.ovr := by cases p <;> rfl
@[simp] theorem State.setMem_noop (s : State) (p : PSel) (m : Memory) : (s.setMem p m).noop = s.noop := by cases p <;> rfl
@[simp] theorem State.setMem_dconly (s : State) (p : PSel) (m : Memory) : (s.setMem p m).dconly = s.dconly := by cases p <;> rfl
@[simp] theorem State.setMem_ecode (s : State) (p : PSel) (m : Memory) : (s.setMem p m).ecode = s.ecode := by cases p <;> rfl
@[simp] theorem State.setMem_schedule (s : State) (p : PSel) (m : Memory) : (s.setMem p m).schedule = s.schedule := by cases p <;> rfl
@[simp] theorem State.setMem_portData (s : State) (p : PSel) (m : Memory) : (s.setMem p m).portData = s.portData := by cases p <;> rfl
@[simp] theorem State.setMem_draw (s : State) (p : PSel) (m : Memory) : (s.setMem p m).draw = s.draw := by cases p <;> rfl
@[simp] theorem State.setMem_imgW (s : State) (p : PSel) (m : Memory) : (s.setMem p m).imgW = s.imgW := by cases p <;> rfl
@[simp] theorem State.setMem_imgH (s : State) (p : PSel) (m : Memory) : (s.setMem p m).imgH = s.imgH := by cases p <;> rfl
@[simp] theorem State.setMem_ch (s : State) (p : PSel) (m : Memory) : (s.setMem p m).ch = s.ch := by cases p <;> rfl
@[simp] theorem State.setMem_subsamp (s : State) (p : PSel) (m : Memory) : (s.setMem p m).subsamp = s.subsamp := by cases p <;> rfl
@[simp] theorem State.setMem_ratio (s : State) (p : PSel) (m : Memory) : (s.setMem p m).ratio = s.ratio := by cases p <;> rfl
@[simp] theorem State.setMem_chromaDims (s : State) (p : PSel) (m : Memory) : (s.setMem p m).chromaDims = s.chromaDims := by cases p <;> rfl
@[simp] theorem State.setMem_quality (s : State) (p : PSel) (m : Memory) : (s.setMem p m).quality = s.quality := by cases p <;> rfl
@[simp] theorem State.setMem_preset (s : State) (p : PSel) (m : Memory) : (s.setMem p m).preset = s.preset := by cases p <;> rfl

@[simp] theorem State.setMem_table (s : State) (p : PSel) (m : Memory) (u : TSel) : (s.setMem p m).table u = s.table u := by
  cases u <;> cases p <;> rfl
@[simp] theorem State.setMem_valid (s : State) (p : PSel) (m : Memory) (u : TSel) : (s.setMem p m).valid u = s.valid u := by
  cases u <;> cases p <;> rfl

@[simp] theorem State.setMem_mem_same (s : State) (p : PSel) (m : Memory) : (s.setMem p m).mem p = m := by
  cases p <;> rfl
theorem State.setMem_mem_other (s : State) {p q : PSel} (m : Memory) (h : q ≠ p) :
    (s.setMem p m).mem q = s.mem q := by
  cases p <;> cases q <;> first | rfl | exact absurd rfl h
theorem State.setMem_mem (s : State) (p q : PSel) (m : Memory) :
    (s.setMem p m).mem q = if q = p then m else s.mem q := by
  split
  · subst q; exact State.setMem_mem_same s p m
  · exact State.setMem_mem_other s m ‹_›
@[simp] theorem State.setMem_planeDims (s : State) (p q : PSel) (m : Memory) :
    (s.setMem p m).planeDims q = s.planeDims q := by
  cases p <;> cases q <;> rfl

/-! ### `State.setTable` -/

@[simp] theorem State.setTable_cfg (s : State) (t : TSel) (v : Table) : (s.setTable t v).cfg = s.cfg := by cases t <;> rfl
@[simp] theorem State.setTable_blk (s : State) (t : TSel) (v : Table) : (s.setTable t v).blk = s.blk := by cases t <;> rfl
@[simp] theorem State.setTable_qtv0 (s : State) (t : TSel) (v : Table) : (s.setTable t v).qtv0 = s.qtv0 := by cases t <;> rfl
@[simp] theorem State.setTable_qtv1 (s : State) (t : TSel) (v : Table) : (s.setTable t v).qtv1 = s.qtv1 := by cases t <;> rfl
@[simp] theorem State.setTable_pix (s : State) (t : TSel) (v : Table) : (s.setTable t v).pix = s.pix := by cases t <;> rfl
@[simp] theorem State.setTable_yp (s : State) (t : TSel) (v : Table) : (s.setTable t v).yp = s.yp := by cases t <;> rfl
@[simp] theorem State.setTable_cbp (s : State) (t : TSel) (v : Table) : (s.setTable t v).cbp = s.cbp := by cases t <;> rfl
@[simp] theorem State.setTable_crp (s : State) (t : TSel) (v : Table) : (s.setTable t v).crp = s.crp := by cases t <;> rfl
@[simp] theorem State.setTable_ctrl (s : State) (t : TSel) (v : Table) : (s.setTable t v).ctrl = s.ctrl := by cases t <;> rfl
@[simp] theorem State.setTable_cmd (s : State) (t : TSel) (v : Table) : (s.setTable t v).cmd = s.cmd := by cases t <;> rfl
@[simp] theorem State.setTable_width (s : State) (t : TSel) (v : Table) : (s.setTable t v).width = s.width := by cases t <;> rfl
@[simp] theorem State.setTable_height (s : State) (t : TSel) (v : Table) : (s.setTable t v).height = s.height := by cases t <;> rfl
@[simp] theorem State.setTable_fmt (s : State) (t : TSel) (v : Table) : (s.setTable t v).fmt = s.fmt := by cases t <;> rfl
@[simp] theorem State.setTable_qcfg (s : State) (t : TSel) (v : Table) : (s.setTable t v).qcfg = s.qcfg := by cases t <;> rfl
@[simp] theorem State.setTable_busy (s : State) (t : TSel) (v : Table) : (s.setTable t v).busy = s.busy := by cases t <;> rfl
@[simp] theorem State.setTable_done (s : State) (t : TSel) (v : Table) : (s.setTable t v).done = s.done := by cases t <;> rfl
@[simp] theorem State.setTable_err (s : State) (t : TSel) (v : Table) : (s.setTable t v).err = s.err := by cases t <;> rfl
@[simp] theorem State.setTable_ovr (s : State) (t : TSel) (v : Table) : (s.setTable t v).ovr = s.ovr := by cases t <;> rfl
@[simp] theorem State.setTable_noop (s : State) (t : TSel) (v : Table) : (s.setTable t v).noop = s.noop := by cases t <;> rfl
@[simp] theorem State.setTable_dconly (s : State) (t : TSel) (v : Table) : (s.setTable t v).dconly = s.dconly := by cases t <;> rfl
@[simp] theorem State.setTable_ecode (s : State) (t : TSel) (v : Table) : (s.setTable t v).ecode = s.ecode := by cases t <;> rfl
@[simp] theorem State.setTable_schedule (s : State) (t : TSel) (v : Table) : (s.setTable t v).schedule = s.schedule := by cases t <;> rfl
@[simp] theorem State.setTable_portData (s : State) (t : TSel) (v : Table) : (s.setTable t v).portData = s.portData := by cases t <;> rfl
@[simp] theorem State.setTable_draw (s : State) (t : TSel) (v : Table) : (s.setTable t v).draw = s.draw := by cases t <;> rfl
@[simp] theorem State.setTable_imgW (s : State) (t : TSel) (v : Table) : (s.setTable t v).imgW = s.imgW := by cases t <;> rfl
@[simp] theorem State.setTable_imgH (s : State) (t : TSel) (v : Table) : (s.setTable t v).imgH = s.imgH := by cases t <;> rfl
@[simp] theorem State.setTable_ch (s : State) (t : TSel) (v : Table) : (s.setTable t v).ch = s.ch := by cases t <;> rfl
@[simp] theorem State.setTable_subsamp (s : State) (t : TSel) (v : Table) : (s.setTable t v).subsamp = s.subsamp := by cases t <;> rfl
@[simp] theorem State.setTable_ratio (s : State) (t : TSel) (v : Table) : (s.setTable t v).ratio = s.ratio := by cases t <;> rfl
@[simp] theorem State.setTable_chromaDims (s : State) (t : TSel) (v : Table) : (s.setTable t v).chromaDims = s.chromaDims := by cases t <;> rfl
@[simp] theorem State.setTable_quality (s : State) (t : TSel) (v : Table) : (s.setTable t v).quality = s.quality := by cases t <;> rfl
@[simp] theorem State.setTable_preset (s : State) (t : TSel) (v : Table) : (s.setTable t v).preset = s.preset := by cases t <;> rfl

@[simp] theorem State.setTable_mem (s : State) (t : TSel) (v : Table) (q : PSel) : (s.setTable t v).mem q = s.mem q := by
  cases q <;> cases t <;> rfl
@[simp] theorem State.setTable_planeDims (s : State) (t : TSel) (v : Table) (q : PSel) : (s.setTable t v).planeDims q = s.planeDims q := by
  cases q <;> cases t <;> rfl

@[simp] theorem State.setTable_table_same (s : State) (t : TSel) (v : Table) : (s.setTable t v).table t = v := by cases t <;> rfl
theorem State.setTable_table_other (s : State) {t u : TSel} (v : Table) (h : u ≠ t) :
    (s.setTable t v).table u = s.table u := by
  cases t <;> cases u <;> first | rfl | exact absurd rfl h
/-! ### `State.buildTable` -/

@[simp] theorem State.buildTable_cfg (s : State) (t : TSel) (v : Table) : (s.buildTable t v).cfg = s.cfg := by cases t <;> rfl
@[simp] theorem State.buildTable_blk (s : State) (t : TSel) (v : Table) : (s.buildTable t v).blk = s.blk := by cases t <;> rfl
@[simp] theorem State.buildTable_pix (s : State) (t : TSel) (v : Table) : (s.buildTable t v).pix = s.pix := by cases t <;> rfl
@[simp] theorem State.buildTable_yp (s : State) (t : TSel) (v : Table) : (s.buildTable t v).yp = s.yp := by cases t <;> rfl
@[simp] theorem State.buildTable_cbp (s : State) (t : TSel) (v : Table) : (s.buildTable t v).cbp = s.cbp := by cases t <;> rfl
@[simp] theorem State.buildTable_crp (s : State) (t : TSel) (v : Table) : (s.buildTable t v).crp = s.crp := by cases t <;> rfl
@[simp] theorem State.buildTable_ctrl (s : State) (t : TSel) (v : Table) : (s.buildTable t v).ctrl = s.ctrl := by cases t <;> rfl
@[simp] theorem State.buildTable_cmd (s : State) (t : TSel) (v : Table) : (s.buildTable t v).cmd = s.cmd := by cases t <;> rfl
@[simp] theorem State.buildTable_width (s : State) (t : TSel) (v : Table) : (s.buildTable t v).width = s.width := by cases t <;> rfl
@[simp] theorem State.buildTable_height (s : State) (t : TSel) (v : Table) : (s.buildTable t v).height = s.height := by cases t <;> rfl
@[simp] theorem State.buildTable_fmt (s : State) (t : TSel) (v : Table) : (s.buildTable t v).fmt = s.fmt := by cases t <;> rfl
@[simp] theorem State.buildTable_qcfg (s : State) (t : TSel) (v : Table) : (s.buildTable t v).qcfg = s.qcfg := by cases t <;> rfl
@[simp] theorem State.buildTable_busy (s : State) (t : TSel) (v : Table) : (s.buildTable t v).busy = s.busy := by cases t <;> rfl
@[simp] theorem State.buildTable_done (s : State) (t : TSel) (v : Table) : (s.buildTable t v).done = s.done := by cases t <;> rfl
@[simp] theorem State.buildTable_err (s : State) (t : TSel) (v : Table) : (s.buildTable t v).err = s.err := by cases t <;> rfl
@[simp] theorem State.buildTable_ovr (s : State) (t : TSel) (v : Table) : (s.buildTable t v).ovr = s.ovr := by cases t <;> rfl
@[simp] theorem State.buildTable_noop (s : State) (t : TSel) (v : Table) : (s.buildTable t v).noop = s.noop := by cases t <;> rfl
@[simp] theorem State.buildTable_dconly (s : State) (t : TSel) (v : Table) : (s.buildTable t v).dconly = s.dconly := by cases t <;> rfl
@[simp] theorem State.buildTable_ecode (s : State) (t : TSel) (v : Table) : (s.buildTable t v).ecode = s.ecode := by cases t <;> rfl
@[simp] theorem State.buildTable_schedule (s : State) (t : TSel) (v : Table) : (s.buildTable t v).schedule = s.schedule := by cases t <;> rfl
@[simp] theorem State.buildTable_portData (s : State) (t : TSel) (v : Table) : (s.buildTable t v).portData = s.portData := by cases t <;> rfl
@[simp] theorem State.buildTable_draw (s : State) (t : TSel) (v : Table) : (s.buildTable t v).draw = s.draw := by cases t <;> rfl
@[simp] theorem State.buildTable_imgW (s : State) (t : TSel) (v : Table) : (s.buildTable t v).imgW = s.imgW := by cases t <;> rfl
@[simp] theorem State.buildTable_imgH (s : State) (t : TSel) (v : Table) : (s.buildTable t v).imgH = s.imgH := by cases t <;> rfl
@[simp] theorem State.buildTable_ch (s : State) (t : TSel) (v : Table) : (s.buildTable t v).ch = s.ch := by cases t <;> rfl
@[simp] theorem State.buildTable_subsamp (s : State) (t : TSel) (v : Table) : (s.buildTable t v).subsamp = s.subsamp := by cases t <;> rfl
@[simp] theorem State.buildTable_ratio (s : State) (t : TSel) (v : Table) : (s.buildTable t v).ratio = s.ratio := by cases t <;> rfl
@[simp] theorem State.buildTable_chromaDims (s : State) (t : TSel) (v : Table) : (s.buildTable t v).chromaDims = s.chromaDims := by cases t <;> rfl
@[simp] theorem State.buildTable_quality (s : State) (t : TSel) (v : Table) : (s.buildTable t v).quality = s.quality := by cases t <;> rfl
@[simp] theorem State.buildTable_preset (s : State) (t : TSel) (v : Table) : (s.buildTable t v).preset = s.preset := by cases t <;> rfl

@[simp] theorem State.buildTable_mem (s : State) (t : TSel) (v : Table) (q : PSel) : (s.buildTable t v).mem q = s.mem q := by
  cases q <;> cases t <;> rfl
@[simp] theorem State.buildTable_planeDims (s : State) (t : TSel) (v : Table) (q : PSel) : (s.buildTable t v).planeDims q = s.planeDims q := by
  cases q <;> cases t <;> rfl

@[simp] theorem State.buildTable_table_same (s : State) (t : TSel) (v : Table) : (s.buildTable t v).table t = v := by cases t <;> rfl
theorem State.buildTable_table_other (s : State) {t u : TSel} (v : Table) (h : u ≠ t) :
    (s.buildTable t v).table u = s.table u := by
  cases t <;> cases u <;> first | rfl | exact absurd rfl h
@[simp] theorem State.setTable_valid (s : State) (t u : TSel) (v : Table) : (s.setTable t v).valid u = s.valid u := by
  cases t <;> cases u <;> rfl
@[simp] theorem State.buildTable_valid_same (s : State) (t : TSel) (v : Table) : (s.buildTable t v).valid t = true := by
  cases t <;> rfl
theorem State.buildTable_valid_other (s : State) {t u : TSel} (v : Table) (h : u ≠ t) :
    (s.buildTable t v).valid u = s.valid u := by
  cases t <;> cases u <;> first | rfl | exact absurd rfl h

end Sys2Proof.Machine
end

