-- ==== Sys2Proof/Laws/Ops.lean ====
section
/-! SUPPORT. What completion and the checks can answer, said once. -/

namespace Sys2Proof.Machine

/-- The effect of each command, the argument of its completion. -/
def effectOf (i : Instr) (s : State) : Effect :=
  match i with
  | .nop => effNop s
  | .qtgen t => effQtgen t s
  | .fdct => effFdct s
  | .quant t => effQuant t s
  | .dequant t => effDequant t s
  | .idct => effIdct s
  | .xform t => effXform t s
  | .ldblk p br bc => effLdblk p br bc s
  | .stblk p br bc => effStblk p br bc s
  | .cplane p t => effCplane p t s
  | .split => effSplit s
  | .merge => effMerge s
  | .compress => effCompress s

/-- Every command is a completion of its effect. -/
theorem exec_eq_complete (i : Instr) (s : State) : exec i s = complete s (effectOf i s) := by cases i <;> rfl

@[simp] theorem complete_ok (s t : State) : complete s (.ok t) = .next t.finish := rfl

@[simp] theorem complete_error (s : State) (e : ErrCode) : complete s (.error e) = .next (s.raiseError e) := rfl

/-- A completion answers a next state: the effect's, finished, or the error's. -/
theorem complete_cases {s t : State} {r : Effect} (h : complete s r = .next t) :
    (∃ u, r = .ok u ∧ t = u.finish) ∨ (∃ e, r = .error e ∧ t = s.raiseError e) := by
  cases r with
  | ok u => exact .inl ⟨u, rfl, (Host.Outcome.next.inj h).symm⟩
  | error e => exact .inr ⟨e, rfl, (Host.Outcome.next.inj h).symm⟩

/-- What `exec` can answer: the command's writes with completion, or the latched error. -/
theorem exec_cases {i : Instr} {s t : State} (h : exec i s = .next t) :
    (∃ u, effectOf i s = .ok u ∧ t = u.finish) ∨ (∃ e, effectOf i s = .error e ∧ t = s.raiseError e) :=
  complete_cases (by rw [← exec_eq_complete]; exact h)

/-- The plane checks pass exactly when rule R165 says so, and then give the plane's size. -/
theorem planeChecked_ok {s : State} {p : PSel} {w h : Nat} (hc : s.planeChecked p = .ok (w, h)) :
    s.imgW ≠ 0 ∧ s.imgH ≠ 0 ∧ (p = .pix → s.ch = 0 ∨ s.ch = 1) ∧ s.planeDims p = some (w, h) ∧
      w * h ≤ capacity s.cfg p := by
  unfold State.planeChecked at hc
  split at hc
  · exact absurd hc (by simp)
  · rename_i hz
    split at hc
    · exact absurd hc (by simp)
    · rename_i hf
      split at hc
      · exact absurd hc (by simp)
      · split at hc
        · exact absurd hc (by simp)
        · rename_i hd hs
          obtain ⟨rfl, rfl⟩ : _ ∧ _ := by simpa using hc
          refine ⟨fun h => hz (.inl h), fun h => hz (.inr h), fun hp => ?_, hd, by omega⟩
          by_contra hn
          exact hf ⟨hp, hn⟩

/-- The colour checks pass exactly when rule R146 says so, and then give the ratio. -/
theorem colourChecked_ok {s : State} {hor ver : Nat} (hc : s.colourChecked = .ok (hor, ver)) :
    s.imgW ≠ 0 ∧ s.imgH ≠ 0 ∧ s.ch = 3 ∧ s.ratio = some (hor, ver) ∧
      3 * s.imgW * s.imgH ≤ s.cfg.pixBytes ∧ s.imgW * s.imgH ≤ s.cfg.planeBytes := by
  unfold State.colourChecked at hc
  split at hc
  · exact absurd hc (by simp)
  · rename_i hz
    split at hc
    · exact absurd hc (by simp)
    · rename_i hf
      split at hc
      · exact absurd hc (by simp)
      · split at hc
        · exact absurd hc (by simp)
        · rename_i hd hs
          have := Except.ok.inj hc
          subst this
          exact ⟨fun h => hz (.inl h), fun h => hz (.inr h), by simpa using hf, hd, by omega, by omega⟩

/-- The factors of a ratio are 1, 2 or 4 (rule R35). -/
theorem ratioOf_pos {code hor ver : Nat} (h : ratioOf code = some (hor, ver)) : 0 < hor ∧ 0 < ver := by
  unfold ratioOf at h
  split at h <;> simp_all <;> omega

end Sys2Proof.Machine
end

