-- ==== Sys2Proof/Laws/Frames.lean ====
section
/-! SUPPORT. What each shared operation of the commands leaves alone, said once (rule R193), and when the checks pass or
fail (rules R146, R165 and R209). -/

namespace Sys2Proof.Machine

/-- What no command writes before its completion: the configuration registers, `CTRL`, `CMD`, the model's own fields, and
of `STATUS` everything but `NOOP` and `DCONLY`. -/
structure Quiet (s u : State) : Prop where
  cfg : u.cfg = s.cfg
  ctrl : u.ctrl = s.ctrl
  cmd : u.cmd = s.cmd
  width : u.width = s.width
  height : u.height = s.height
  fmt : u.fmt = s.fmt
  qcfg : u.qcfg = s.qcfg
  busy : u.busy = s.busy
  done : u.done = s.done
  err : u.err = s.err
  ovr : u.ovr = s.ovr
  ecode : u.ecode = s.ecode
  schedule : u.schedule = s.schedule
  portData : u.portData = s.portData
  draw : u.draw = s.draw

theorem Quiet.refl (s : State) : Quiet s s := ⟨rfl, rfl, rfl, rfl, rfl, rfl, rfl, rfl, rfl, rfl, rfl, rfl, rfl, rfl, rfl⟩

theorem Quiet.trans {s t u : State} (a : Quiet s t) (b : Quiet t u) : Quiet s u :=
  ⟨b.cfg.trans a.cfg, b.ctrl.trans a.ctrl, b.cmd.trans a.cmd, b.width.trans a.width, b.height.trans a.height,
   b.fmt.trans a.fmt, b.qcfg.trans a.qcfg, b.busy.trans a.busy, b.done.trans a.done, b.err.trans a.err,
   b.ovr.trans a.ovr, b.ecode.trans a.ecode, b.schedule.trans a.schedule, b.portData.trans a.portData,
   b.draw.trans a.draw⟩

/-- A quiet change followed by completion keeps the host side. -/
theorem Quiet.hostSide {s u : State} (h : Quiet s u) : SameHostSide s u.finish :=
  ⟨h.cfg, h.ctrl, h.cmd, h.width, h.height, h.fmt, h.qcfg, h.ovr, h.schedule, h.portData, h.draw⟩

/-! ### The shared operations -/

theorem quiet_setMem (s : State) (p : PSel) (m : Memory) : Quiet s (s.setMem p m) := by constructor <;> simp

theorem quiet_buildFrom (q : Preset) (t : TSel) (s : State) : Quiet s (buildFrom q t s) := by
  constructor <;> simp [buildFrom]

theorem quiet_buildBoth (q : Preset) (s : State) : Quiet s (buildBoth q s) :=
  (quiet_buildFrom q .l s).trans (quiet_buildFrom q .c _)

theorem quiet_compressPlane (p : PSel) (t : TSel) (w h : Nat) (s : State) : Quiet s (compressPlane p t w h s) := by
  constructor <;> simp [compressPlane]

theorem quiet_splitPlanes (hor ver : Nat) (s : State) : Quiet s (splitPlanes hor ver s) := by
  constructor <;> rfl

theorem quiet_mergePlanes (hor ver : Nat) (s : State) : Quiet s (mergePlanes hor ver s) := by
  constructor <;> rfl

/-- The tables and valid bits after QTGEN t. -/
theorem buildFrom_table (q : Preset) (t v : TSel) (s : State) :
    (buildFrom q t s).table v = (if v = t then generatedTable s.cfg.num q t s.quality else s.table v) ∧
    (buildFrom q t s).valid v = (if v = t then true else s.valid v) := by
  unfold buildFrom
  split
  · subst v; simp
  · simp [State.buildTable_table_other, State.buildTable_valid_other, *]

/-- QTGEN t leaves the block, the memories and the flags alone. -/
theorem buildFrom_keeps (q : Preset) (t : TSel) (s : State) :
    (buildFrom q t s).blk = s.blk ∧ (∀ p, (buildFrom q t s).mem p = s.mem p) ∧ (buildFrom q t s).noop = s.noop ∧
    (buildFrom q t s).dconly = s.dconly := by
  simp [buildFrom]

/-- CPLANE leaves the tables, the valid bits, `NOOP` and the other memories alone. -/
theorem compressPlane_keeps (p : PSel) (t : TSel) (w h : Nat) (s : State) :
    (∀ v, (compressPlane p t w h s).table v = s.table v ∧ (compressPlane p t w h s).valid v = s.valid v) ∧
    (compressPlane p t w h s).noop = s.noop ∧ ∀ q, q ≠ p → (compressPlane p t w h s).mem q = s.mem q := by
  refine ⟨fun v => ?_, ?_, fun q hq => ?_⟩
  · cases p <;> cases v <;> exact ⟨rfl, rfl⟩
  · cases p <;> rfl
  · cases p <;> cases q <;> first | rfl | exact absurd rfl hq

/-- The memory CPLANE leaves is the one its loop carries. -/
theorem compressPlane_mem (p : PSel) (t : TSel) (w h : Nat) (s : State) :
    (compressPlane p t w h s).mem p =
      (planeLoop s.cfg.num (s.table t) w h { mem := s.mem p, blk := s.blk, dconly := s.dconly }).mem := by
  cases p <;> rfl

/-- SPLIT leaves `PIX`, the block, the tables, the valid bits and the flags alone. -/
theorem splitPlanes_keeps (hor ver : Nat) (s : State) :
    (splitPlanes hor ver s).pix = s.pix ∧ (splitPlanes hor ver s).blk = s.blk ∧
    (∀ v, (splitPlanes hor ver s).table v = s.table v ∧ (splitPlanes hor ver s).valid v = s.valid v) ∧
    (splitPlanes hor ver s).noop = s.noop ∧ (splitPlanes hor ver s).dconly = s.dconly :=
  ⟨rfl, rfl, fun v => by cases v <;> exact ⟨rfl, rfl⟩, rfl, rfl⟩

/-- MERGE leaves the planes, the block, the tables, the valid bits and the flags alone. -/
theorem mergePlanes_keeps (hor ver : Nat) (s : State) :
    (∀ q, q ≠ .pix → (mergePlanes hor ver s).mem q = s.mem q) ∧ (mergePlanes hor ver s).blk = s.blk ∧
    (∀ v, (mergePlanes hor ver s).table v = s.table v ∧ (mergePlanes hor ver s).valid v = s.valid v) ∧
    (mergePlanes hor ver s).noop = s.noop ∧ (mergePlanes hor ver s).dconly = s.dconly :=
  ⟨fun q hq => by cases q <;> first | rfl | exact absurd rfl hq, rfl, fun v => by cases v <;> exact ⟨rfl, rfl⟩, rfl, rfl⟩

/-! ### When the checks pass -/

theorem planeChecked_legal {s : State} {p : PSel} {w h : Nat} (hl : PlaneLegal s p w h) :
    s.planeChecked p = .ok (w, h) := by
  obtain ⟨h1, h2, h3, h4, h5⟩ := hl
  unfold State.planeChecked
  rw [if_neg (by tauto), if_neg (by tauto), h4]
  simp only
  rw [if_neg (by omega)]

theorem colourChecked_legal {s : State} {hor ver : Nat} (hl : ColourLegal s hor ver) :
    s.colourChecked = .ok (hor, ver) := by
  obtain ⟨h1, h2, h3, h4, h5, h6⟩ := hl
  unfold State.colourChecked
  rw [if_neg (by tauto), if_neg (by tauto), h4]
  simp only
  rw [if_neg (by omega)]

/-- A preset number at or beyond `N_PRESETS` names no preset. -/
theorem presetOf_none {c : Config} {p : Nat} (h : 2 + c.extraPresets.length ≤ p) : presetOf c p = none := by
  unfold presetOf presetRom
  rw [List.getElem?_eq_none_iff]
  simp only [List.length_cons]
  omega

/-- A preset number below `N_PRESETS` names a preset. -/
theorem presetOf_some {c : Config} {p : Nat} (h : p < 2 + c.extraPresets.length) : ∃ q, presetOf c p = some q := by
  have : p < (presetRom c).length := by simp only [presetRom, List.length_cons]; omega
  exact ⟨_, List.getElem?_eq_getElem this⟩

theorem subsamp_lt (s : State) : s.subsamp < 8 := (s.fmt.extractLsb' 4 3).isLt

/-- Every ratio code but 7 has factors (rule R35). -/
theorem ratio_some {s : State} (h : s.subsamp ≠ 7) : ∃ r, s.ratio = some r := by
  have := subsamp_lt s
  unfold State.ratio
  generalize s.subsamp = k at *
  interval_cases k <;> first | exact ⟨_, rfl⟩ | exact absurd rfl h

theorem ratio_none {s : State} (h : s.subsamp = 7) : s.ratio = none := by
  unfold State.ratio
  rw [h]
  rfl

/-- What happens when a command's rule raises an error and none is latched (rule R208). -/
theorem raises_of {i : Instr} {s : State} {e : ErrCode} (he : s.err = false) (h : effectOf i s = .error e) :
    Raises i s (ecodeOf e) := by
  unfold Raises
  rw [exec_eq_complete, h, complete_error, State.raiseError, he]
  rfl

/-- Taking an error writes `ERR`, `ECODE`, `BUSY` and `DONE` only (rule R208). -/
theorem raiseError_eq (s : State) (e : ErrCode) :
    s.raiseError e =
      { s with err := true, ecode := if s.err then s.ecode else ecodeOf e, busy := false, done := true } := by
  unfold State.raiseError
  cases he : s.err
  · rfl
  · simp only [if_true, State.finish]
    rw [he]

/-! ### The error-free effect of a command -/

theorem effQtgen_ok {t : TSel} {s u : State} (h : effQtgen t s = .ok u) :
    ∃ p, presetOf s.cfg s.preset = some p ∧ u = buildFrom p t s := by
  unfold effQtgen at h
  split at h
  · cases h
  · exact ⟨_, ‹_›, (Except.ok.inj h).symm⟩

theorem effQuant_ok {t : TSel} {s u : State} (h : effQuant t s = .ok u) :
    s.valid t = true ∧ u = { s with blk := quantBlock (s.table t) s.blk } := by
  unfold effQuant at h
  split at h
  · exact ⟨‹_›, (Except.ok.inj h).symm⟩
  · cases h

theorem effDequant_ok {t : TSel} {s u : State} (h : effDequant t s = .ok u) :
    s.valid t = true ∧ u = { s with blk := dequantBlock (s.table t) s.blk } := by
  unfold effDequant at h
  split at h
  · exact ⟨‹_›, (Except.ok.inj h).symm⟩
  · cases h

theorem effXform_ok {t : TSel} {s u : State} (h : effXform t s = .ok u) :
    s.valid t = true ∧ u = { s with
      blk := (transformBlock s.cfg.num (s.table t) s.blk).1
      dconly := (transformBlock s.cfg.num (s.table t) s.blk).2 } := by
  unfold effXform at h
  split at h
  · exact ⟨‹_›, (Except.ok.inj h).symm⟩
  · cases h

theorem effLdblk_ok {p : PSel} {br bc : Nat} {s u : State} (h : effLdblk p br bc s = .ok u) :
    ∃ w ht, PlaneLegal s p w ht ∧ br < cdiv ht 8 ∧ bc < cdiv w 8 ∧ u = { s with blk := gather (s.mem p) w ht br bc } := by
  unfold effLdblk at h
  split at h
  · cases h
  · rename_i w ht hc
    split at h
    · cases h
    · rename_i hr
      unfold blockCount at hr
      exact ⟨w, ht, planeChecked_ok hc, by omega, by omega, (Except.ok.inj h).symm⟩

theorem effStblk_ok {p : PSel} {br bc : Nat} {s u : State} (h : effStblk p br bc s = .ok u) :
    ∃ w ht, PlaneLegal s p w ht ∧ br < cdiv ht 8 ∧ bc < cdiv w 8 ∧
      u = s.setMem p (scatter (s.mem p) w ht br bc s.blk) := by
  unfold effStblk at h
  split at h
  · cases h
  · rename_i w ht hc
    split at h
    · cases h
    · rename_i hr
      unfold blockCount at hr
      exact ⟨w, ht, planeChecked_ok hc, by omega, by omega, (Except.ok.inj h).symm⟩

theorem effCplane_ok {p : PSel} {t : TSel} {s u : State} (h : effCplane p t s = .ok u) :
    ∃ w ht, PlaneLegal s p w ht ∧ s.valid t = true ∧ u = compressPlane p t w ht s := by
  unfold effCplane at h
  split at h
  · cases h
  · rename_i w ht hc
    split at h
    · exact ⟨w, ht, planeChecked_ok hc, ‹_›, (Except.ok.inj h).symm⟩
    · cases h

theorem effSplit_ok {s u : State} (h : effSplit s = .ok u) :
    ∃ hor ver, ColourLegal s hor ver ∧ u = splitPlanes hor ver s := by
  unfold effSplit at h
  split at h
  · cases h
  · exact ⟨_, _, colourChecked_ok ‹_›, (Except.ok.inj h).symm⟩

theorem effMerge_ok {s u : State} (h : effMerge s = .ok u) :
    ∃ hor ver, ColourLegal s hor ver ∧ u = mergePlanes hor ver s := by
  unfold effMerge at h
  split at h
  · cases h
  · exact ⟨_, _, colourChecked_ok ‹_›, (Except.ok.inj h).symm⟩

/-- COMPRESS without an error took one of its three paths (rule R184). -/
theorem effCompress_ok {s u : State} (h : effCompress s = .ok u) :
    (s.ch ≠ 0 ∧ s.ch ≠ 1 ∧ s.ch ≠ 3 ∧ u = { s with noop := true }) ∨
    ((s.ch = 0 ∨ s.ch = 1) ∧ ∃ p, s.imgW ≠ 0 ∧ s.imgH ≠ 0 ∧ presetOf s.cfg s.preset = some p ∧
      s.imgW * s.imgH ≤ s.cfg.pixBytes ∧
      u = compressPlane .pix .l s.imgW s.imgH (buildBoth p { s with noop := false })) ∨
    (∃ p hor ver, ColourLegal s hor ver ∧ presetOf s.cfg s.preset = some p ∧ u = colourPath p hor ver s) := by
  unfold effCompress compressPath at h
  by_cases h3 : s.ch = 3
  · rw [if_pos h3] at h
    simp only [effColour] at h
    split at h
    · cases h
    · rename_i hz
      split at h
      · cases h
      · split at h
        · cases h
        · split at h
          · cases h
          · exact .inr (.inr ⟨_, _, _, ⟨fun e => hz (.inl e), fun e => hz (.inr e), h3, ‹_›, by omega, by omega⟩, ‹_›,
              (Except.ok.inj h).symm⟩)
  · rw [if_neg h3] at h
    by_cases h01 : s.ch = 0 ∨ s.ch = 1
    · rw [if_pos h01] at h
      simp only [effGray] at h
      split at h
      · cases h
      · rename_i hz
        split at h
        · cases h
        · split at h
          · cases h
          · exact .inr (.inl ⟨h01, _, fun e => hz (.inl e), fun e => hz (.inr e), ‹_›, by omega,
              (Except.ok.inj h).symm⟩)
    · rw [if_neg h01] at h
      exact .inl ⟨fun e => h01 (.inl e), fun e => h01 (.inr e), h3, (Except.ok.inj h).symm⟩

/-- No command writes what `Quiet` lists before it completes. -/
theorem effect_quiet {i : Instr} {s u : State} (h : effectOf i s = .ok u) : Quiet s u := by
  cases i <;> simp only [effectOf] at h
  case nop => cases h; exact Quiet.refl _
  case qtgen t => obtain ⟨p, -, rfl⟩ := effQtgen_ok h; exact quiet_buildFrom _ _ _
  case fdct => cases h; constructor <;> rfl
  case quant t => obtain ⟨-, rfl⟩ := effQuant_ok h; constructor <;> rfl
  case dequant t => obtain ⟨-, rfl⟩ := effDequant_ok h; constructor <;> rfl
  case idct => cases h; constructor <;> rfl
  case xform t => obtain ⟨-, rfl⟩ := effXform_ok h; constructor <;> rfl
  case ldblk p br bc => obtain ⟨_, _, -, -, -, rfl⟩ := effLdblk_ok h; constructor <;> rfl
  case stblk p br bc => obtain ⟨_, _, -, -, -, rfl⟩ := effStblk_ok h; exact quiet_setMem _ _ _
  case cplane p t => obtain ⟨_, _, -, -, rfl⟩ := effCplane_ok h; exact quiet_compressPlane _ _ _ _ _
  case split => obtain ⟨_, _, -, rfl⟩ := effSplit_ok h; exact quiet_splitPlanes _ _ _
  case merge => obtain ⟨_, _, -, rfl⟩ := effMerge_ok h; exact quiet_mergePlanes _ _ _
  case compress =>
    have h0 : ∀ b, Quiet s { s with noop := b } := fun b => by constructor <;> rfl
    rcases effCompress_ok h with ⟨-, -, -, rfl⟩ | ⟨-, p, -, -, -, -, rfl⟩ | ⟨p, hor, ver, -, -, rfl⟩
    · exact h0 true
    · exact (h0 false).trans ((quiet_buildBoth _ _).trans (quiet_compressPlane _ _ _ _ _))
    · exact (h0 false).trans ((((((quiet_splitPlanes _ _ _).trans (quiet_buildBoth _ _)).trans
        (quiet_compressPlane _ _ _ _ _)).trans (quiet_compressPlane _ _ _ _ _)).trans
        (quiet_compressPlane _ _ _ _ _)).trans (quiet_mergePlanes _ _ _))

end Sys2Proof.Machine
end

