-- ==== Sys2Proof/Laws/PerInstr.lean ====
section
/-! SUPPORT. The statements made per instruction. Family `RowMatch`: the word of a well-formed command selects the row of
rule R77 that stands at its code of rule R76. -/

namespace Sys2Proof.Laws.RowMatch

/-- The `OPC` code of a command (rule R76). -/
def codeOf : Instr → Nat
  | .nop => 0
  | .qtgen _ => 1
  | .fdct => 2
  | .quant _ => 3
  | .dequant _ => 4
  | .idct => 5
  | .xform _ => 6
  | .ldblk _ _ _ => 7
  | .stblk _ _ _ => 8
  | .cplane _ _ => 9
  | .split => 10
  | .merge => 11
  | .compress => 12

/-- The encoded word matches its row under the row's mask, and its `OPC` field is the row's place. -/
def Statement (i : Instr) : Prop :=
  i.wellFormed = true →
    opcField (encode i) = codeOf i ∧ ∃ r, commandRows[codeOf i]? = some r ∧ encode i &&& r.mask = r.matchWord

theorem nop : Statement .nop := fun _ => ⟨by decide, _, rfl, by decide⟩
theorem qtgen (t : TSel) : Statement (.qtgen t) := fun _ => by cases t <;> exact ⟨by decide, _, rfl, by decide⟩
theorem fdct : Statement .fdct := fun _ => ⟨by decide, _, rfl, by decide⟩
theorem quant (t : TSel) : Statement (.quant t) := fun _ => by cases t <;> exact ⟨by decide, _, rfl, by decide⟩
theorem dequant (t : TSel) : Statement (.dequant t) := fun _ => by cases t <;> exact ⟨by decide, _, rfl, by decide⟩
theorem idct : Statement .idct := fun _ => ⟨by decide, _, rfl, by decide⟩
theorem xform (t : TSel) : Statement (.xform t) := fun _ => by cases t <;> exact ⟨by decide, _, rfl, by decide⟩

theorem ldblk (p : PSel) (br bc : Nat) : Statement (.ldblk p br bc) := fun h => by
  obtain ⟨h1, h2⟩ : br < 4096 ∧ bc < 4096 := by simpa [Instr.wellFormed] using h
  have hp : p.code < 4 := by cases p <;> decide
  refine ⟨opcField_packWord (by omega) hp (by omega) h2 h1, _, rfl, BitVec.eq_of_toNat_eq ?_⟩
  refine (packWord_and_low (m := 0x9F) (by omega) hp (by omega) h2 h1 (by omega)).trans ?_
  cases p <;> rfl

theorem stblk (p : PSel) (br bc : Nat) : Statement (.stblk p br bc) := fun h => by
  obtain ⟨h1, h2⟩ : br < 4096 ∧ bc < 4096 := by simpa [Instr.wellFormed] using h
  have hp : p.code < 4 := by cases p <;> decide
  refine ⟨opcField_packWord (by omega) hp (by omega) h2 h1, _, rfl, BitVec.eq_of_toNat_eq ?_⟩
  refine (packWord_and_low (m := 0x9F) (by omega) hp (by omega) h2 h1 (by omega)).trans ?_
  cases p <;> rfl

theorem cplane (p : PSel) (t : TSel) : Statement (.cplane p t) := fun _ => by
  cases p <;> cases t <;> exact ⟨by decide, _, rfl, by decide⟩
theorem split : Statement .split := fun _ => ⟨by decide, _, rfl, by decide⟩
theorem merge : Statement .merge := fun _ => ⟨by decide, _, rfl, by decide⟩
theorem compress : Statement .compress := fun _ => ⟨by decide, _, rfl, by decide⟩

end Sys2Proof.Laws.RowMatch
end

