-- ==== Sys2Proof/Laws/Resets.lean ====
section
/-! SUPPORT. What the operations that make contents unspecified leave alone (rules R193 and R232). -/

namespace Sys2Proof.Machine

@[simp] theorem State.loseBytes_planeDims (s : State) (p q : PSel) (n : Nat) :
    (s.loseBytes q n).planeDims p = s.planeDims p := by simp [State.loseBytes]

@[simp] theorem State.loseBytes_cfg (s : State) (q : PSel) (n : Nat) : (s.loseBytes q n).cfg = s.cfg := by
  simp [State.loseBytes]

@[simp] theorem State.losePlane_planeDims (s : State) (p q : PSel) : (s.losePlane q).planeDims p = s.planeDims p := by
  unfold State.losePlane
  split <;> simp [State.loseMemory]

@[simp] theorem State.loseBlk_mem (s : State) (p : PSel) : s.loseBlk.mem p = s.mem p := by
  cases p <;> simp only [State.loseBlk, State.mem]

@[simp] theorem State.loseTable_mem (s : State) (t : TSel) (p : PSel) : (s.loseTable t).mem p = s.mem p := by
  simp [State.loseTable]

@[simp] theorem State.resetRegisters_mem (s : State) (p : PSel) : s.resetRegisters.mem p = s.mem p := by
  cases p <;> simp only [State.resetRegisters, State.mem]

@[simp] theorem State.loseBytes_blk (s : State) (q : PSel) (n : Nat) : (s.loseBytes q n).blk = s.blk := by
  simp [State.loseBytes]

@[simp] theorem State.loseBytes_table (s : State) (q : PSel) (n : Nat) (u : TSel) :
    (s.loseBytes q n).table u = s.table u := by simp [State.loseBytes]

@[simp] theorem State.losePlane_blk (s : State) (q : PSel) : (s.losePlane q).blk = s.blk := by
  unfold State.losePlane
  split <;> simp [State.loseMemory]

@[simp] theorem State.losePlane_table (s : State) (q : PSel) (u : TSel) : (s.losePlane q).table u = s.table u := by
  unfold State.losePlane
  split <;> simp [State.loseMemory]

@[simp] theorem State.loseTile_blk (s : State) (q : PSel) (br bc : Nat) : (s.loseTile q br bc).blk = s.blk := by
  unfold State.loseTile
  split <;> simp [State.loseMemory]

@[simp] theorem State.loseTile_table (s : State) (q : PSel) (br bc : Nat) (u : TSel) :
    (s.loseTile q br bc).table u = s.table u := by
  unfold State.loseTile
  split <;> simp [State.loseMemory]

@[simp] theorem State.loseBlk_table (s : State) (u : TSel) : s.loseBlk.table u = s.table u := by
  cases u <;> simp only [State.loseBlk, State.table]

@[simp] theorem State.loseTable_blk (s : State) (t : TSel) : (s.loseTable t).blk = s.blk := by simp [State.loseTable]

/-- Losing the first n bytes of one memory leaves the bytes from n on, and every other memory. -/
theorem State.loseBytes_other {s : State} {p q : PSel} {n a : Nat} (h : p = q → n ≤ a) :
    Memory.read ((s.loseBytes q n).mem p) a = Memory.read (s.mem p) a := by
  unfold State.loseBytes
  rw [State.setMem_mem]
  split
  · subst p
    refine Memory.read_writeMany_other fun k hk hka => ?_
    have := Option.some.inj hka
    have := h rfl
    omega
  · rfl

/-- Losing one plane leaves the bytes beyond it where it has a size, and every other memory. -/
theorem State.losePlane_other {s : State} {p q : PSel} {a : Nat}
    (h : p = q → ∃ w ht, s.planeDims p = some (w, ht) ∧ w * ht ≤ a) :
    Memory.read ((s.losePlane q).mem p) a = Memory.read (s.mem p) a := by
  unfold State.losePlane
  split
  · rename_i hd
    refine State.loseBytes_other fun hpq => ?_
    obtain ⟨w, ht, hs, -⟩ := h hpq
    rw [hpq, hd] at hs
    cases hs
  · rename_i hd
    refine State.loseBytes_other fun hpq => ?_
    obtain ⟨w, ht, hs, hle⟩ := h hpq
    rw [hpq, hd] at hs
    cases hs
    exact hle

/-- Losing one block leaves every byte that is no cell of it where its plane has a size, and every other memory. -/
theorem State.loseTile_other {s : State} {p q : PSel} {br bc a : Nat}
    (h : p = q → ∃ w ht, s.planeDims p = some (w, ht) ∧ ∀ k < 64, scatterAddr w ht br bc k ≠ some a) :
    Memory.read ((s.loseTile q br bc).mem p) a = Memory.read (s.mem p) a := by
  unfold State.loseTile
  split
  · rename_i hd
    refine State.loseBytes_other fun hpq => ?_
    obtain ⟨w, ht, hs, -⟩ := h hpq
    rw [hpq, hd] at hs
    cases hs
  · rename_i w ht hd
    rw [State.setMem_mem]
    split
    · subst p
      obtain ⟨w', ht', hs, hne⟩ := h rfl
      rw [hd] at hs
      cases hs
      exact Memory.read_writeMany_other fun k hk hka => hne k hk (Option.filter_eq_some_iff.1 hka).1
    · rfl

end Sys2Proof.Machine
end

