-- ==== Sys2Proof/Laws/Step.lean ====
section
/-! SUPPORT. What one step can do, said once. -/

namespace Sys2Proof.Machine

/-- The unit's turn with no command running changes nothing. -/
theorem unitStep_idle {s : State} (h : s.busy = false) : unitStep s = .next s := by simp [unitStep, h]

/-- The unit's turn with a legal command running is that command. -/
theorem unitStep_command {s : State} {i : Instr} (hb : s.busy = true) (hd : decode s.cmd = .ok i) :
    unitStep s = exec i s := by
  simp [unitStep, hb, State.runningCommand, hd]

/-- The unit's turn with an illegal word running takes the decode error. -/
theorem unitStep_illegal {s : State} {e : ErrCode} (hb : s.busy = true) (hd : decode s.cmd = .error e) :
    unitStep s = .next (s.raiseError e) := by
  simp [unitStep, hb, State.runningCommand, hd]

/-- A turn of the unit answers: the state itself, a command's outcome, or a decode error. -/
theorem unitStep_cases {s t : State} (h : unitStep s = .next t) :
    (s.busy = false ∧ t = s) ∨ (∃ i, s.busy = true ∧ decode s.cmd = .ok i ∧ exec i s = .next t) ∨
    (∃ e, s.busy = true ∧ decode s.cmd = .error e ∧ t = s.raiseError e) := by
  cases hb : s.busy with
  | false =>
    rw [unitStep_idle hb] at h
    exact .inl ⟨rfl, (Host.Outcome.next.inj h).symm⟩
  | true =>
    cases hd : decode s.cmd with
    | ok i =>
      rw [unitStep_command hb hd] at h
      exact .inr (.inl ⟨i, rfl, rfl, h⟩)
    | error e =>
      rw [unitStep_illegal hb hd] at h
      exact .inr (.inr ⟨e, rfl, rfl, (Host.Outcome.next.inj h).symm⟩)

/-- One step: the unit's turn, an operation of the host, or a hard reset. -/
theorem step_cases {s t : State} (h : step s = .next t) :
    (unitStep s = .next t ∧ s.schedule = []) ∨
    (∃ rest, s.schedule = .unit :: rest ∧ unitStep { s with schedule := rest } = .next t) ∨
    (∃ op rest, s.schedule = .host op :: rest ∧ hostStep op { s with schedule := rest } = .next t) ∨
    (∃ rest, s.schedule = .hardReset :: rest ∧ t = { s with schedule := rest }.hardReset) := by
  unfold step at h
  split at h
  · exact .inl ⟨h, ‹_›⟩
  · rename_i e rest he
    cases e with
    | unit => exact .inr (.inl ⟨rest, he, h⟩)
    | host op => exact .inr (.inr (.inl ⟨op, rest, he, h⟩))
    | hardReset => exact .inr (.inr (.inr ⟨rest, he, (Host.Outcome.next.inj h).symm⟩))

/-- A write allowed only while idle that answers a next state was made while idle. -/
theorem whileIdle_next {s t : State} {r : Host.Outcome State Fault Refusal} (h : whileIdle s r = .next t) :
    s.busy = false ∧ r = .next t := by
  unfold whileIdle at h
  split at h
  · exact absurd h (by simp)
  · exact ⟨by simpa using ‹¬ s.busy = true›, h⟩

end Sys2Proof.Machine
end

