-- ==== Sys2Proof/Tests/Slice0.lean ====
section
/-! SUPPORT. The model's own tests, and a witness for the hypotheses of every statement. Expected results are those of the
spec: worked examples of its rules and vectors V1 to V78 of 95_test_vectors.md, each named at its test. -/

namespace Sys2Proof.Tests

open Sys2Proof Sys2Proof.Machine

/-! ### Small states -/

/-- The reset state with its geometry set. -/
def sized (w h fmt qcfg : Word) : State :=
  { State.reset with width := w, height := h, fmt := fmt, qcfg := qcfg }

/-- A 9 × 9 single-channel image with both tables valid and full of 128, and byte 80 of `PIX` 255. -/
def gray9 : State :=
  { sized 9 9 1 0x32 with
    qt0 := Vector.replicate 64 128, qt1 := Vector.replicate 64 128, qtv0 := true, qtv1 := true, pix := [(80, 255)] }

/-- The 4 × 2 image of the examples of rules R146 and R149, at 4:2:0. -/
def colour42 : State :=
  { sized 4 2 0x43 0x32 with
    pix := [(0, 255), (3, 200), (4, 100), (5, 50), (6, 10), (7, 20), (8, 30), (11, 255), (13, 255), (15, 128), (16, 128),
            (17, 128), (18, 255), (19, 255), (20, 255)] }

/-- A block whose element 0 is x and whose other elements are 0. -/
def dcBlock (x : Word) : Block := (Vector.replicate 64 0).set 0 x

/-- What a function sees of the next state. -/
def look {α : Type} (o : Host.Outcome State Fault Refusal) (f : State → α) : Option α :=
  match o with
  | .next t => some (f t)
  | .fault _ => none
  | .refused _ => none

/-! ### Well-formedness: the ill-formed term of each check is refused (rule R75) -/

theorem test_ldblk_row_beyond_its_field : (Instr.ldblk .y 4096 0).wellFormed = false := by decide
theorem test_ldblk_column_beyond_its_field : (Instr.ldblk .y 0 4096).wellFormed = false := by decide
theorem test_stblk_row_beyond_its_field : (Instr.stblk .pix 4096 4095).wellFormed = false := by decide
theorem test_stblk_column_beyond_its_field : (Instr.stblk .pix 4095 4096).wellFormed = false := by decide
theorem test_largest_indices_are_well_formed : (Instr.ldblk .y 4095 4095).wellFormed = true := by decide

/-! ### Decoding: words written out from rule R71, field by field: BROW, BCOL, TSEL, PSEL, OPC (V1, V3) -/

theorem test_decode_nop : decode 0b000000000000_000000000000_0_00_00000 = .ok .nop := by decide
theorem test_decode_qtgen :
    decode 0b000000000000_000000000000_0_00_00001 = .ok (.qtgen .l) ∧
    decode 0b000000000000_000000000000_1_00_00001 = .ok (.qtgen .c) := by decide
theorem test_decode_fdct : decode 0b000000000000_000000000000_0_00_00010 = .ok .fdct := by decide
theorem test_decode_quant : decode 0b000000000000_000000000000_1_00_00011 = .ok (.quant .c) := by decide
theorem test_decode_dequant : decode 0b000000000000_000000000000_1_00_00100 = .ok (.dequant .c) := by decide
theorem test_decode_idct : decode 0b000000000000_000000000000_0_00_00101 = .ok .idct := by decide
theorem test_decode_xform : decode 0b000000000000_000000000000_1_00_00110 = .ok (.xform .c) := by decide
theorem test_decode_ldblk : decode 0b101010111100_000100100011_0_10_00111 = .ok (.ldblk .cr 2748 291) := by decide
theorem test_decode_stblk : decode 0b000000000000_000000000111_0_10_01000 = .ok (.stblk .cr 0 7) := by decide
theorem test_decode_cplane :
    decode 0b000000000000_000000000000_1_01_01001 = .ok (.cplane .cb .c) ∧
    decode 0b000000000000_000000000000_0_11_01001 = .ok (.cplane .pix .l) := by decide
theorem test_decode_split : decode 0b000000000000_000000000000_0_00_01010 = .ok .split := by decide
theorem test_decode_merge : decode 0b000000000000_000000000000_0_00_01011 = .ok .merge := by decide
theorem test_decode_compress : decode 0b000000000000_000000000000_0_00_01100 = .ok .compress := by decide

/-- V2: `E_OPC` has priority over the field checks. -/
theorem test_decode_reserved_opc :
    decode 0xFFFFFFFF = .error .opc ∧ decode 0x000000ED = .error .opc ∧ decode 0x0000000D = .error .opc := by decide

/-- V2: an unused field that is not zero. -/
theorem test_decode_unused_field :
    decode 0x00000080 = .error .field ∧ decode 0x000000E7 = .error .field ∧ decode 0x00000021 = .error .field ∧
    decode 0x0000008C = .error .field ∧ decode 0x8000000A = .error .field ∧ decode 0x00000105 = .error .field ∧
    decode 0x000001A6 = .error .field := by decide

/-- V5: the words of the pseudo-instructions. -/
theorem test_pseudo_words :
    (Pseudo.tile .cb .c 0 1).expand.map encode = [0x00000127, 0x00000086, 0x00000128] ∧
    (Pseudo.block .l).expand.map encode = [2, 3, 4, 5] ∧ Pseudo.cgray.expand.map encode = [0x00000069] := by decide

/-- Rule R81: the notation of a command with every kind of operand. -/
theorem test_assembly : (Instr.ldblk .cr 1 2).assembly = "LDBLK CR, 1, 2" ∧ (Instr.cplane .pix .l).assembly =
    "CPLANE PIX, L" := by decide

/-! ### One step per command -/

/-- Rule R183: from reset, NOP leaves `STATUS` = 0x2. -/
theorem test_nop : look (step (State.reset.withFetchWord 32 0)) State.statusWord = some 0x2 := by decide

/-- The example of rule R100: `QCFG` = 0x32, `QTGEN L` gives entries 128, 88 and 792; V17: only `QTV0` is set. -/
theorem test_qtgen :
    look (step ((sized 0 0 0 0x32).withFetchWord 32 1))
      (fun t => (t.qt0[0], t.qt0[1], t.qt0[63], t.statusWord)) = some (128, 88, 792, 0x42) := by decide +kernel

/-- V18: preset 2 of two. -/
theorem test_qtgen_preset :
    look (step ((sized 0 0 0 0x232).withFetchWord 32 1)) State.statusWord = some 0x506 := by decide +kernel

/-- V30: a row butterfly, and a column butterfly. -/
theorem test_forward_butterfly :
    fwdButterfly referenceNum ⟨127, -128, 127, -128, 127, -128, 127, -128⟩ 11 true =
      ⟨-16, 735, 0, 867, 0, 1298, 0, 3697⟩ ∧
    fwdButterfly referenceNum ⟨10, 20, 30, 40, 50, 60, 70, 80⟩ 15 false = ⟨90, -46, 0, -5, 0, -1, 0, 0⟩ := by
  decide +kernel

/-- V32: an impulse of 100 at element 0: row 1 of the result. -/
theorem test_fdct :
    look (exec .fdct { State.reset with blk := dcBlock 100 }) (fun t => blockRow t.blk 1) =
      some ⟨139, 192, 181, 163, 139, 109, 75, 38⟩ := by decide +kernel

/-- V20: a tie away from zero on either side, a quotient that wraps in 16 bits, and the most negative element. -/
theorem test_quantize :
    quantize 24 16 = 2 ∧ quantize (-24) 16 = -2 ∧ quantize 262139 8 = 32767 ∧ quantize 262140 8 = -32768 ∧
    quantize 0x80000000 2040 = -4112 := by decide +kernel

/-- The example of rule R102. -/
theorem test_quant :
    look (exec (.quant .l) { gray9 with blk := dcBlock (-3323) }) (fun t => t.blk[0]) = some (-26) := by decide +kernel

/-- The example of rule R104, and a product that wraps (V21). -/
theorem test_dequant :
    look (exec (.dequant .l) { gray9 with blk := dcBlock (-26) }) (fun t => t.blk[0]) = some (-3328) ∧
    dequantize 1052689 2040 = -2147481736 := by decide +kernel

/-- V38: an inverse butterfly. -/
theorem test_inverse_butterfly :
    invButterfly referenceNum ⟨100, -50, 25, -12, 6, -3, 2, -1⟩ 14 = ⟨27, 27, 29, 33, 39, 54, 78, 113⟩ := by
  decide +kernel

/-- The example of rule R123: `BLK[0]` = 6400 gives 228 everywhere and `DCONLY`. -/
theorem test_idct :
    look (exec .idct { State.reset with blk := dcBlock 6400 }) (fun t => (t.blk, t.statusWord)) =
      some (Vector.replicate 64 228, 0x22) := by decide +kernel

/-- The example of rule R127: a constant block of 127 comes back saturated. -/
theorem test_xform :
    look (exec (.xform .l) { gray9 with blk := Vector.replicate 64 127 }) (fun t => (t.blk, t.dconly)) =
      some (Vector.replicate 64 255, true) := by decide +kernel

/-- The example of rule R163: block (1, 1) of a 9 × 9 plane is 64 copies of its one sample. -/
theorem test_ldblk :
    look (exec (.ldblk .pix 1 1) gray9) State.blk = some (Vector.replicate 64 127) := by decide +kernel

/-- V65: a block column beyond the plane. -/
theorem test_ldblk_range : look (exec (.ldblk .pix 1 2) gray9) State.ecode = some 8 := by decide

/-- The example of rule R164, with the truncation of V61: one byte is written, 300 as 44. -/
theorem test_stblk :
    look (exec (.stblk .pix 1 1) { gray9 with pix := [], blk := Vector.replicate 64 300 }) State.pix =
      some [(80, 44)] := by decide +kernel

/-- V67 by CPLANE: a 1 × 1 plane of sample 77 at quality 50 becomes 76. -/
theorem test_cplane :
    look (exec (.cplane .pix .l) { gray9 with width := 1, height := 1, pix := [(0, 77)] })
      (fun t => (t.pix, t.dconly)) = some ([(0, 76)], true) := by decide +kernel

/-- The example of rule R146. -/
theorem test_split :
    look (exec .split colour42) (fun t => (t.yp, t.cbp, t.crp)) =
      some ([(0, 76), (1, 124), (2, 18), (3, 29), (4, 150), (5, 128), (6, 255)], [(0, 85), (1, 135)],
        [(0, 255), (1, 122)]) := by decide +kernel

/-- Rule R144 says why the rounding constant is 32767: with 32768 the Cb of pure blue is 256, for which no byte is given. -/
theorem test_sample_beyond :
    (rgb2ycc { referenceNum with fwdRound := 32768 } ⟨0, 0, 255⟩).snd = Config.sampleBeyond 256 ∧
    (rgb2ycc referenceNum ⟨0, 0, 255⟩).snd = 255 := ⟨rfl, by decide +kernel⟩

/-- The example of rule R149: pixel (0, 0) is (254, 0, 0). -/
theorem test_merge :
    look (exec .merge { colour42 with
        yp := [(0, 76), (1, 124), (2, 18), (3, 29), (4, 150), (5, 128), (6, 255)], cbp := [(0, 85), (1, 135)]
        crp := [(0, 255), (1, 122)] })
      (fun t => (Memory.read t.pix 0, Memory.read t.pix 1, Memory.read t.pix 2)) = some (254, 0, 0) := by decide +kernel

/-- V75: the pass-through makes no check. -/
theorem test_compress_pass_through :
    look (exec .compress (sized 0 0 0x72 0xF00)) State.statusWord = some 0x12 := by decide

/-- V76: the gray path on a 1 × 1 image. -/
theorem test_compress_gray :
    look (exec .compress { sized 1 1 1 0x32 with pix := [(0, 77)], noop := true }) (fun t => (t.pix, t.statusWord)) =
      some ([(0, 76)], 0xE2) := by decide +kernel

/-! ### The life cycle and the host port -/

/-- V71: the overrun drops the word and sets `OVR`. -/
theorem test_overrun :
    look (hostStep (.writeReg 2 0xC) (State.reset.launch 1)) (fun t => (t.cmd, t.statusWord)) = some (1, 0x9) := by decide

/-- V72: with `IE` set the line is low while `BUSY`, high at the completion, a failing one too, and low once `DONE` is
cleared; with `IE` clear it is low. -/
theorem test_interrupt :
    ({ State.reset with ctrl := 1 }.launch 0).irq = false ∧
    look (exec .nop ({ State.reset with ctrl := 1 }.launch 0)) (fun t => (t.statusWord, t.irq)) = some (2, true) ∧
    look (exec .split ({ State.reset with ctrl := 1 }.launch 0xA)) State.irq = some true ∧
    look (hostStep (.writeReg 1 0x2) { State.reset with ctrl := 1, done := true }) State.irq = some false ∧
    look (exec .nop (State.reset.launch 0)) State.irq = some false := by decide

/-- V19: a masked write, and a soft reset. -/
theorem test_masks :
    look (hostStep (.writeReg 6 0xFFFFFFFF) State.reset) (fun t => t.readReg 6) = some 0xF7F ∧
    look (hostStep (.writeReg 0 0xFFFFFFFF) gray9) (fun t => (t.readReg 0, t.readReg 3, t.statusWord)) =
      some (0, 0, 0) := by decide

/-- V57: `CPW` and `CPH` at 4:2:0, and for the reserved ratio. -/
theorem test_chroma_size :
    ((sized 10 7 0x43 0).readReg 7, (sized 10 7 0x43 0).readReg 8) = (5, 4) ∧ (sized 10 7 0x73 0).readReg 7 = 0 := by decide

/-- Rules R53 and R55: a word of the register region on the bus; a byte of the `PIX` window; a misaligned word. -/
theorem test_bus :
    look (hostStep (.busWrite 0x00C 4 9) State.reset) State.width = some 9 ∧
    look (hostStep (.busWrite 0x1005 1 0x1FF) State.reset) State.pix = some [(5, 0xFF)] ∧
    look (hostStep (.busRead 0x101 4) State.reset) State.portData = none := by decide

/-- What `withFetchWord` places is what the next step runs. -/
theorem test_placed_word_runs :
    decodeTableWord 32 0x86 = some (.xform .c) ∧
    step (State.reset.withFetchWord 32 0x86) = exec (.xform .c) (State.reset.launch 0x86) := ⟨by decide, rfl⟩

/-- The command line of rule R83 for COMPRESS. -/
theorem test_command_line :
    commandLine 1 .compress =
      [.host (.writeReg 2 0xC), .host (.readReg 1), .unit, .host (.readReg 1), .host (.writeReg 1 2)] := by decide

/-! ### Witnesses: a state and operands that meet the hypotheses of each statement, clause by clause -/

/-- The busy state of a launch of w on s. -/
def running (s : State) (w : Word) : State := s.launch w

theorem witness_DecodeOfEncodeIsTheCommand : (Instr.stblk .pix 4095 0).wellFormed = true := by decide

theorem witness_EncodeOfDecodeIsTheWord : decode 0xFFFFFF07 = .ok (.ldblk .y 4095 4095) := by decide

theorem witness_EveryWordDecodesByRule :
    decode 0x0000000D = .error .opc ∧ decode 0x0000008C = .error .field ∧ decode 0x0000000C = .ok .compress := by decide

theorem witness_CompletionStepRunsTheDecodedCommand :
    ((running gray9 0x86).busy = true ∧ decode (running gray9 0x86).cmd = .ok (.xform .c) ∧
      (running gray9 0x86).schedule = []) ∧
    ({ running gray9 0x86 with schedule := [.unit, .hardReset] }.busy = true ∧
      { running gray9 0x86 with schedule := [.unit, .hardReset] }.schedule = .unit :: [.hardReset]) ∧
    (gray9.busy = false ∧ gray9.schedule = [] ∧ { gray9 with schedule := [.unit] }.schedule = .unit :: []) := by decide

theorem witness_IllegalWordOnlyLatchesItsError :
    ((running gray9 0x1F).busy = true ∧ (running gray9 0x1F).schedule = [] ∧ (running gray9 0x1F).err = false ∧
      decode (running gray9 0x1F).cmd = .error .opc) ∧
    ({ running gray9 0x22 with err := true, ecode := 7, schedule := [.unit] }.busy = true ∧
      { running gray9 0x22 with err := true, ecode := 7, schedule := [.unit] }.schedule = .unit :: [] ∧
      decode { running gray9 0x22 with err := true, ecode := 7, schedule := [.unit] }.cmd = .error .field) := by decide

theorem witness_CommandWriteLaunchesOrOverruns :
    ({ gray9 with schedule := [.host (.writeReg 2 5)] }.busy = false) ∧
    ({ running gray9 1 with schedule := [.host (.writeReg 2 5)] }.busy = true) := by decide

theorem witness_HostCannotDisturbARunningCommand :
    (running gray9 1).busy = true ∧ ∃ t, hostStep (.writeReg 2 5) (running gray9 1) = .next t ∧ t.busy = true :=
  ⟨by decide, _, rfl, by decide⟩

theorem witness_ErrorIsLatchedAndChangesNothingElse :
    (∃ t, exec (.quant .l) { { State.reset with err := true, ecode := 3 } with err := false } = .next t ∧ t.err = true) ∧
    { State.reset with err := true, ecode := 3 }.err = true := ⟨⟨_, rfl, by decide⟩, by decide⟩

theorem witness_FirstErrorIsKept :
    { gray9 with err := true, ecode := 7 }.err = true ∧
    (∃ t, exec .nop { gray9 with err := true, ecode := 7 } = .next t) ∧
    ∃ t, exec .split { gray9 with err := true, ecode := 7 } = .next t := ⟨by decide, ⟨_, rfl⟩, _, rfl⟩

theorem witness_CommandRaisesOnlyItsErrors :
    State.reset.err = false ∧ ∃ t, exec (.ldblk .y 0 0) State.reset = .next t ∧ t.err = true :=
  ⟨by decide, _, rfl, by decide⟩

theorem witness_TableCommandsRaiseByRule :
    State.reset.err = false ∧ 2 + (sized 0 0 0 0x264).cfg.extraPresets.length ≤ (sized 0 0 0 0x264).preset ∧
    State.reset.valid .c = false := by decide

theorem witness_TilerCommandsRaiseByRule :
    gray9.err = false ∧ (sized 0 9 1 0).imgW = 0 ∧ (sized 9 0 1 0).imgH = 0 ∧
    ((sized 9 9 2 0).imgW ≠ 0 ∧ (sized 9 9 2 0).imgH ≠ 0 ∧ (sized 9 9 2 0).ch ≠ 0 ∧ (sized 9 9 2 0).ch ≠ 1) ∧
    ((sized 9 9 0x71 0).imgW ≠ 0 ∧ (sized 9 9 0x71 0).imgH ≠ 0 ∧ (sized 9 9 0x71 0).subsamp = 7) ∧
    ((sized 17 16 3 0).planeDims .y = some (17, 16) ∧ capacity (sized 17 16 3 0).cfg .y < 17 * 16) ∧
    ((sized 33 32 1 0).ch = 1 ∧ (sized 33 32 1 0).planeDims .pix = some (33, 32) ∧
      capacity (sized 33 32 1 0).cfg .pix < 33 * 32) ∧
    (PlaneLegal (sized 9 9 0x41 0) .cb 5 5 ∧ (sized 9 9 0x41 0).valid .l = false) ∧
    (PlaneLegal gray9 .pix 9 9 ∧ cdiv 9 8 ≤ 2) := by decide

theorem witness_ColourCommandsRaiseByRule :
    colour42.err = false ∧ (sized 0 2 0x43 0).imgW = 0 ∧ (sized 4 0 0x43 0).imgH = 0 ∧
    ((sized 4 2 0x41 0).imgW ≠ 0 ∧ (sized 4 2 0x41 0).imgH ≠ 0 ∧ (sized 4 2 0x41 0).ch ≠ 3) ∧
    ((sized 4 2 0x73 0).ch = 3 ∧ (sized 4 2 0x73 0).subsamp = 7) ∧
    ((sized 20 16 0x43 0).ch = 3 ∧ (sized 20 16 0x43 0).subsamp ≠ 7 ∧ (sized 20 16 0x43 0).cfg.planeBytes < 20 * 16) ∧
    (sized 32 16 0x43 0).cfg.pixBytes < 3 * 32 * 16 := by decide

theorem witness_CompressRaisesByRule :
    State.reset.err = false ∧ State.reset.ch = 0 ∧ State.reset.imgW = 0 ∧ (sized 1 0 3 0).ch = 3 ∧
    (sized 1 0 3 0).imgH = 0 ∧
    ((sized 4 2 0x73 0).ch = 3 ∧ (sized 4 2 0x73 0).imgW ≠ 0 ∧ (sized 4 2 0x73 0).imgH ≠ 0 ∧
      (sized 4 2 0x73 0).subsamp = 7) ∧
    ((sized 1 1 0x71 0x200).ch = 1 ∧ 2 + (sized 1 1 0x71 0x200).cfg.extraPresets.length ≤ (sized 1 1 0x71 0x200).preset) ∧
    ((sized 1 1 0x63 0x200).ch = 3 ∧ (sized 1 1 0x63 0x200).subsamp ≠ 7 ∧
      2 + (sized 1 1 0x63 0x200).cfg.extraPresets.length ≤ (sized 1 1 0x63 0x200).preset) ∧
    ((sized 32 33 1 0x100).preset < 2 + (sized 32 33 1 0x100).cfg.extraPresets.length ∧
      (sized 32 33 1 0x100).cfg.pixBytes < (sized 32 33 1 0x100).imgW * (sized 32 33 1 0x100).imgH) ∧
    ((sized 20 16 0x43 0).preset < 2 + (sized 20 16 0x43 0).cfg.extraPresets.length ∧
      (sized 20 16 0x43 0).cfg.planeBytes < (sized 20 16 0x43 0).imgW * (sized 20 16 0x43 0).imgH) := by decide

theorem witness_QtgenBuildsTheScaledTable :
    (sized 0 0 0 0x17F).cfg.num = referenceNum ∧
    (sized 0 0 0 0x17F).preset < 2 + (sized 0 0 0 0x17F).cfg.extraPresets.length := by decide

theorem witness_BuiltTableProperties :
    RomEntry (presetMatrix defaultPreset .l)[0] ∧ 49 ≤ 50 ∧ 100 ≤ 100 ∧
    max 1 (min 100 0) = max 1 (min 100 1) := by decide

theorem witness_QuantRoundsToNearestTiesAway :
    gray9.valid .l = true ∧ 0 < (gray9.table .l)[0].toNat ∧ 0 ≤ (dcBlock 64)[0].toInt ∧ (dcBlock (-64))[0].toInt < 0 := by
  decide

theorem witness_QuantizeIsOdd :
    0 < (8 : Entry).toNat ∧ (262139 : Word) ≠ 0x80000000 ∧
    (262139 : Word).toInt.natAbs + (8 : Entry).toNat / 2 < 32768 * (8 : Entry).toNat := by decide

theorem witness_QuantizeDequantizeErrorIsHalfAStep :
    BuiltEntry 2040 ∧ (-66844680 : Word).toInt.natAbs ≤ 32767 * (2040 : Entry).toNat ∧ BuiltEntry 8 ∧
    (4 : Word).toInt.natAbs ≤ 32767 * (8 : Entry).toNat := by decide

theorem witness_DequantMultipliesWithWrap : gray9.valid .c = true ∧ (dcBlock 1)[63] = 0 := by decide

theorem witness_FdctTransformsRowsThenColumns : gray9.cfg.num = referenceNum := by decide

theorem witness_FdctOfAConstantBlock :
    gray9.cfg.num = referenceNum ∧ (-512 : Word).toInt.natAbs ≤ 512 ∧
    { gray9 with blk := Vector.replicate 64 (-512) }.blk = Vector.replicate 64 (-512) := by decide

theorem witness_IdctEqualsTheGeneralPath : State.reset.cfg.num = referenceNum := by decide

theorem witness_XformEqualsItsFourCommands : gray9.valid .c = true := by decide

theorem witness_LdblkGathersTheClampedTile : PlaneLegal gray9 .pix 9 9 ∧ 1 < cdiv 9 8 := by decide

theorem witness_TilePositionsOutsideThePlaneReplicateTheEdge : 0 < 9 ∧ 1 < cdiv 9 8 ∧ 7 < 8 := by decide

theorem witness_StblkStoresOnlyTheInBoundsCells :
    PlaneLegal gray9 .cr 9 9 ∧ 1 < cdiv 9 8 ∧ 8 * 1 + 0 < 9 ∧ (∀ k < 64, scatterAddr 9 9 1 1 k ≠ some 79) := by decide

theorem witness_BlocksOfAPlaneAreIndependent : 1 < cdiv 9 8 ∧ 0 < cdiv 9 8 ∧ ((1, 1) : Nat × Nat) ≠ (1, 0) := by decide

theorem witness_BlockOrderDoesNotMatter : [3, 1, 0, 2].Perm (List.range (cdiv 9 8 * cdiv 9 8)) := by decide

theorem witness_CplaneEqualsItsTilesInRasterOrder : PlaneLegal gray9 .pix 9 9 ∧ gray9.valid .l = true := by decide

theorem witness_CplaneTouchesOnlyItsPlane :
    PlaneLegal gray9 .pix 9 9 ∧ gray9.valid .l = true ∧ ∃ u, exec (.cplane .pix .l) gray9 = .next u :=
  ⟨by decide, by decide, _, rfl⟩

theorem witness_ColourStaysInRangeAndGreyIsKept : (0 : Int) ≤ 0 ∧ (0 : Int) ≤ 255 ∧ (255 : Int) ≤ 255 := by decide

theorem witness_SplitSamplesTheTopLeftPixelOfEachCell : ColourLegal colour42 2 2 ∧ 1 < cdiv 4 2 ∧ 0 < cdiv 2 2 := by decide

theorem witness_MergeReplicatesTheChromaOfEachCell : ColourLegal colour42 2 2 ∧ 3 < colour42.imgW ∧ 1 < colour42.imgH := by
  decide

theorem witness_CompressPassThroughLeavesTheBuffer :
    (sized 0 0 2 0).ch ≠ 0 ∧ (sized 0 0 2 0).ch ≠ 1 ∧ (sized 0 0 2 0).ch ≠ 3 ∧ (sized 0 0 7 0).ch = 7 := by decide

theorem witness_CompressGrayEqualsItsCommands :
    (sized 32 32 1 0x164).ch = 1 ∧ (sized 32 32 1 0x164).imgW ≠ 0 ∧ (sized 32 32 1 0x164).imgH ≠ 0 ∧
    (sized 32 32 1 0x164).preset < 2 + (sized 32 32 1 0x164).cfg.extraPresets.length ∧
    (sized 32 32 1 0x164).imgW * (sized 32 32 1 0x164).imgH ≤ (sized 32 32 1 0x164).cfg.pixBytes := by decide

theorem witness_CompressColourEqualsItsSevenCommands :
    ColourLegal colour42 2 2 ∧ colour42.preset < 2 + colour42.cfg.extraPresets.length := by decide

theorem witness_NonStoringCommandsKeepTheMemories :
    storesNothing (.xform .l) = true ∧ ∃ t, exec (.xform .l) gray9 = .next t := ⟨by decide, _, rfl⟩

theorem witness_CommandsKeepWhatTheyDoNotWrite :
    (∃ t, exec (.stblk .pix 0 0) gray9 = .next t) ∧ keepsBlk (.stblk .pix 0 0) = true ∧
    writesTable (.qtgen .l) .c = false ∧ writesDconly (.qtgen .l) = false := ⟨⟨_, rfl⟩, by decide, by decide, by decide⟩

theorem witness_CompressTouchesOnlyTheImage :
    (∃ u, exec .compress gray9 = .next u) ∧ gray9.ch = 1 ∧ colour42.ch = 3 ∧ colour42.ratio = some (2, 2) :=
  ⟨⟨_, rfl⟩, by decide, by decide, by decide⟩

theorem witness_ReservedBitsReadZero :
    gray9.busy = false ∧ (running gray9 1).busy = true ∧ (0xFFFFFFFD : Word).getLsbD 1 = false ∧
    ((6 : Fin 16) ≠ 0 ∧ gray9.busy = false) ∧ 7 ≤ (7 : Fin 16).val ∧ 9 ≤ (15 : Fin 16).val := by decide

theorem witness_ChromaSizeRegistersAreDerived :
    (sized 10 7 0x03 0).subsamp = 0 ∧ (sized 10 7 0x63 0).subsamp = 6 ∧ (sized 10 7 0x73 0).subsamp = 7 ∧
    (sized 10 7 0x73 0).busy = false := by decide

theorem witness_HostDataAccessWhileBusyIsRefused :
    (running gray9 1).busy = true ∧ 3 ≤ (6 : Fin 16).val ∧ (6 : Fin 16).val ≤ 6 := by decide

theorem witness_HostReadsAndWritesOneElement :
    gray9.busy = false ∧ 1023 < capacity gray9.cfg .pix ∧ capacity gray9.cfg .y ≤ 256 ∧ gray9.valid .l = true := by decide

theorem witness_BusAccessReachesItsElement :
    ConfigOk gray9.cfg ∧ gray9.cfg.pduBase % 4 = 0 ∧ 255 < capacity gray9.cfg .cr := by decide

theorem witness_HostReadsHaveNoSideEffects : ∃ t, hostStep (.readMem .pix 80) gray9 = .next t := ⟨_, rfl⟩

theorem witness_InterruptFollowsCompletion :
    (∃ t, exec .nop { gray9 with ctrl := 1 } = .next t) ∧
    ((running gray9 0x1F).busy = true ∧ decode (running gray9 0x1F).cmd = .error .opc) ∧
    (1 : Word).getLsbD 1 = false := ⟨⟨_, rfl⟩, by decide, by decide⟩

theorem witness_SoftResetWhileIdleKeepsTheContents : gray9.busy = false ∧ (3 : Word).getLsbD 1 = true := by decide

theorem witness_AbandonedCommandKeepsWhatItDoesNotWrite :
    ((running gray9 0x00100168).busy = true ∧ (2 : Word).getLsbD 1 = true ∧
      decode (running gray9 0x00100168).cmd = .ok (.stblk .pix 1 1) ∧
      ¬ inWriteColumn (running gray9 0x00100168) (.stblk .pix 1 1) .y 0) ∧
    ((running colour42 0xA).busy = true ∧ decode (running colour42 0xA).cmd = .ok .split ∧
      ¬ inWriteColumn (running colour42 0xA) .split .pix 0) ∧
    ((running (sized 4 2 2 0) 0xC).busy = true ∧ decode (running (sized 4 2 2 0) 0xC).cmd = .ok .compress ∧
      (running (sized 4 2 2 0) 0xC).ch = 2) ∧
    ((running gray9 0x1F).busy = true ∧ decode (running gray9 0x1F).cmd = .error .opc) :=
  ⟨⟨by decide, by decide, by decide, fun h => PSel.noConfusion h.1⟩,
    ⟨by decide, by decide, fun h => h.1 rfl⟩, by decide, by decide⟩

/-- The write column of rule R193 at its edges: just inside and just outside it, for a plane, a block and a buffer. -/
theorem test_write_column_boundaries :
    inWriteColumn gray9 (.cplane .pix .l) .pix 80 ∧ ¬ inWriteColumn gray9 (.cplane .pix .l) .pix 81 ∧
    inWriteColumn gray9 (.stblk .pix 1 1) .pix 80 ∧
    inWriteColumn colour42 .merge .pix 23 ∧ ¬ inWriteColumn colour42 .merge .pix 24 ∧
    inWriteColumn colour42 .split .cb 1 ∧ inWriteColumn colour42 .compress .cb 255 ∧
    ¬ inWriteColumn gray9 .compress .y 0 := by
  have d : gray9.planeDims .pix = some (9, 9) := by decide
  have e : colour42.planeDims .cb = some (2, 1) := by decide
  refine ⟨⟨rfl, fun w h hd => ?_⟩, fun hc => absurd (hc.2 9 9 d) (by decide), ⟨rfl, fun w h hd => ?_⟩, ⟨rfl, by decide⟩, ?_,
    ⟨by decide, fun w h hd => ?_⟩, .inl ⟨by decide, fun h => PSel.noConfusion h⟩, ?_⟩
  · rw [d] at hd
    cases hd
    decide
  · rw [d] at hd
    cases hd
    exact ⟨0, by decide, by decide⟩
  · exact fun h => absurd h.2 (by decide)
  · rw [e] at hd
    cases hd
    decide
  · rintro (h | h)
    · exact absurd h.1 (by decide)
    · exact PSel.noConfusion h.2.1

theorem witness_HardResetSetsEveryRegister :
    { running gray9 1 with schedule := [.hardReset] }.schedule = .hardReset :: [] := by decide

theorem witness_StepKeepsRegistersOk : RegistersOk gray9 ∧ ∃ t, step gray9 = .next t := ⟨by decide, _, rfl⟩

theorem witness_StepKeepsStatusOk :
    StatusOk { running State.reset 0x86 with err := true, ecode := 8 } ∧
    ∃ t, step { running State.reset 0x86 with err := true, ecode := 8 } = .next t := ⟨by decide, _, rfl⟩

theorem witness_StepKeepsMemoriesInsideTheirCapacity :
    MemoriesOk (running gray9 0x68) ∧ ∃ t, step (running gray9 0x68) = .next t :=
  ⟨fun p => by cases p <;> decide, _, rfl⟩

theorem witness_StepKeepsValidTablesBuilt :
    (running gray9 1).cfg.num = referenceNum ∧ TablesOk (running gray9 1) ∧ ∃ t, step (running gray9 1) = .next t :=
  ⟨by decide, fun u _ => by cases u <;> decide, _, rfl⟩

end Sys2Proof.Tests
end

/-! PROOFS. Family 10_state: what a host operation and a step can do to the state, said once, and the statements about
the control registers, the resets and the invariants that follow (10_state.md). -/

namespace Sys2Proof.Machine

/-! ### The shape of one step

The model's `step_cases` says which agent moved. `HostChange` says what an answered host operation did, with the bus
already resolved to the element it reaches, and `step_keeps` packages the induction step of every invariant. -/

/-- What a host operation that answers a next state can have done to the state (rules R53 to R61, R182 and R231). -/
inductive HostChange (s : State) : State → Prop
  | answered (v : Word) : HostChange s { s with portData := v }
  | ignored : HostChange s s
  | softReset : HostChange s s.softReset
  | ctrl (v : Word) : HostChange s { s with ctrl := v &&& ctrlMask }
  | status (v : Word) : HostChange s (s.clearStatus v)
  | launched (w : Word) (idle : s.busy = false) : HostChange s (s.launch w)
  | overrun (running : s.busy = true) : HostChange s { s with ovr := true }
  | width (v : Word) (idle : s.busy = false) : HostChange s { s with width := v &&& dimMask }
  | height (v : Word) (idle : s.busy = false) : HostChange s { s with height := v &&& dimMask }
  | fmt (v : Word) (idle : s.busy = false) : HostChange s { s with fmt := v &&& fmtMask }
  | qcfg (v : Word) (idle : s.busy = false) : HostChange s { s with qcfg := v &&& qcfgMask }
  | blk (i : Fin 64) (v : Word) (idle : s.busy = false) : HostChange s { s with blk := s.blk.set i v }
  | mem (m : PSel) (a : Nat) (v : Byte) (idle : s.busy = false) (inside : a < capacity s.cfg m) :
      HostChange s (s.setMem m (Memory.write (s.mem m) a v))

theorem answer_change {s t : State} {v : Word} (h : answer s v = .next t) : HostChange s t := by
  cases h
  exact .answered v

theorem writeCtrl_change (s : State) (v : Word) : HostChange s (s.writeCtrl v) := by
  unfold State.writeCtrl
  split
  · exact .softReset
  · exact .ctrl v

theorem writeCmd_change (s : State) (w : Word) : HostChange s (s.writeCmd w) := by
  unfold State.writeCmd
  split
  · exact .overrun ‹_›
  · exact .launched w (by simpa using ‹¬ s.busy = true›)

theorem hostWriteReg_change {k : Fin 16} {v : Word} {s t : State} (h : hostWriteReg k v s = .next t) :
    HostChange s t := by
  unfold hostWriteReg at h
  split at h
  · cases h; exact writeCtrl_change s v
  · cases h; exact .status v
  · cases h; exact writeCmd_change s v
  · obtain ⟨idle, ⟨⟩⟩ := whileIdle_next h; exact .width v idle
  · obtain ⟨idle, ⟨⟩⟩ := whileIdle_next h; exact .height v idle
  · obtain ⟨idle, ⟨⟩⟩ := whileIdle_next h; exact .fmt v idle
  · obtain ⟨idle, ⟨⟩⟩ := whileIdle_next h; exact .qcfg v idle
  · cases h; exact .ignored

theorem hostReadBlk_change {i : Fin 64} {s t : State} (h : hostReadBlk i s = .next t) : HostChange s t :=
  answer_change (whileIdle_next h).2

theorem hostWriteBlk_change {i : Fin 64} {v : Word} {s t : State} (h : hostWriteBlk i v s = .next t) :
    HostChange s t := by
  obtain ⟨idle, ⟨⟩⟩ := whileIdle_next h
  exact .blk i v idle

theorem hostReadQT_change {u : TSel} {i : Fin 64} {s t : State} (h : hostReadQT u i s = .next t) : HostChange s t :=
  answer_change (whileIdle_next h).2

theorem hostWriteQT_change {s t : State} (h : hostWriteQT s = .next t) : HostChange s t := by
  obtain ⟨-, ⟨⟩⟩ := whileIdle_next h
  exact .ignored

theorem hostReadMem_change {m : PSel} {a : Nat} {s t : State} (h : hostReadMem m a s = .next t) : HostChange s t := by
  obtain ⟨-, h⟩ := whileIdle_next h
  split at h
  · exact answer_change h
  · cases h

theorem hostWriteMem_change {m : PSel} {a : Nat} {v : Byte} {s t : State} (h : hostWriteMem m a v s = .next t) :
    HostChange s t := by
  obtain ⟨idle, h⟩ := whileIdle_next h
  split at h
  · cases h; exact .mem m a v idle ‹_›
  · cases h

theorem busRead_change {addr n : Nat} {s t : State} (h : busRead addr n s = .next t) : HostChange s t := by
  unfold busRead at h
  split at h
  · cases h
  · exact answer_change h
  · exact answer_change h
  · exact hostReadBlk_change h
  · exact hostReadQT_change h
  · exact hostReadMem_change h

theorem busWrite_change {addr n : Nat} {v : Word} {s t : State} (h : busWrite addr n v s = .next t) :
    HostChange s t := by
  unfold busWrite at h
  split at h
  · cases h
  · exact hostWriteReg_change h
  · cases h; exact .ignored
  · exact hostWriteBlk_change h
  · exact hostWriteQT_change h
  · exact hostWriteMem_change h

/-- Every host operation that answers a next state did one of the things `HostChange` lists. -/
theorem hostStep_change {op : HostOp} {s t : State} (h : hostStep op s = .next t) : HostChange s t := by
  cases op with
  | readReg k => exact answer_change h
  | writeReg k v => exact hostWriteReg_change h
  | readBlk i => exact hostReadBlk_change h
  | writeBlk i v => exact hostWriteBlk_change h
  | readQT u i => exact hostReadQT_change h
  | writeQT u i v => exact hostWriteQT_change h
  | readMem m a => exact hostReadMem_change h
  | writeMem m a v => exact hostWriteMem_change h
  | busRead a n => exact busRead_change h
  | busWrite a n v => exact busWrite_change h

/-- What the unit can have done in its turn: nothing, a command's writes and its completion, or the taking of an error. -/
inductive UnitChange (s : State) : State → Prop
  | idle : UnitChange s s
  | command {i : Instr} {u : State} (h : effectOf i s = .ok u) : UnitChange s u.finish
  | error (e : ErrCode) : UnitChange s (s.raiseError e)

theorem unitStep_change {s t : State} (h : unitStep s = .next t) : UnitChange s t := by
  rcases unitStep_cases h with ⟨-, rfl⟩ | ⟨i, -, -, hi⟩ | ⟨e, -, -, rfl⟩
  · exact .idle
  · rcases exec_cases hi with ⟨u, hu, rfl⟩ | ⟨e, -, rfl⟩
    · exact .command hu
    · exact .error e
  · exact .error e

/-- The induction step of an invariant: what the schedule does not matter to, and the unit, the host and a hard reset each
keep, every step keeps. -/
theorem step_keeps {P : State → Prop} (schedule : ∀ s rest, P s → P { s with schedule := rest })
    (unit : ∀ s t, P s → UnitChange s t → P t) (host : ∀ s t, P s → HostChange s t → P t)
    (hard : ∀ s, P s → P s.hardReset) {s t : State} (hs : P s) (h : step s = .next t) : P t := by
  rcases step_cases h with ⟨h, -⟩ | ⟨rest, -, h⟩ | ⟨op, rest, -, h⟩ | ⟨rest, -, rfl⟩
  · exact unit _ _ hs (unitStep_change h)
  · exact unit _ _ (schedule s rest hs) (unitStep_change h)
  · exact host _ _ (schedule s rest hs) (hostStep_change h)
  · exact hard _ (schedule s rest hs)

/-- A scheduled host operation is that operation. -/
theorem step_host {s : State} {op : HostOp} {rest : List Event} (h : s.schedule = .host op :: rest) :
    step s = hostStep op { s with schedule := rest } := by
  unfold step
  rw [h]
  rfl

/-- A scheduled hard reset is taken. -/
theorem step_hardReset {s : State} {rest : List Event} (h : s.schedule = .hardReset :: rest) :
    step s = .next { s with schedule := rest }.hardReset := by
  unfold step
  rw [h]
  rfl

/-! ### A write to `STATUS` -/

/-- The write to `STATUS` field by field (rules R30 and R212). -/
theorem State.clearStatus_eq (s : State) (v : Word) :
    s.clearStatus v =
      { s with
        done := s.done && !v.getLsbD 1
        err := s.err && !v.getLsbD 2
        ecode := if v.getLsbD 2 then 0 else s.ecode
        ovr := s.ovr && !v.getLsbD 3 } := by
  unfold State.clearStatus State.ackError
  cases v.getLsbD 1 <;> cases v.getLsbD 2 <;> cases v.getLsbD 3 <;> simp

@[simp] theorem State.clearStatus_cfg (s : State) (v : Word) : (s.clearStatus v).cfg = s.cfg := by
  rw [State.clearStatus_eq]

/-! ### The registers at their reset values -/

/-- With `WIDTH`, `HEIGHT` and `FMT` at 0 the chroma planes have no sample. -/
theorem State.resetRegisters_chromaDims (s : State) : s.resetRegisters.chromaDims = some (0, 0) := by
  have hratio : s.resetRegisters.ratio = some (1, 1) :=
    show ratioOf ((0 : Word).extractLsb' 4 3).toNat = some (1, 1) by decide
  have hsize : cdiv ((0 : Word).extractLsb' 0 15).toNat 1 = 0 := by decide
  rw [State.chromaDims, hratio]
  exact congrArg some (Prod.ext hsize hsize)

/-- Every register reads its reset value (rule R39). -/
theorem State.resetRegisters_readReg (s : State) (k : Fin 16) :
    s.resetRegisters.readReg k = if k = 6 then 0x00000064 else 0 := by
  unfold State.readReg State.cpw State.cph
  rw [State.resetRegisters_chromaDims]
  fin_cases k <;> rfl

@[simp] theorem State.resetRegisters_valid (s : State) (u : TSel) : s.resetRegisters.valid u = false := by
  cases u <;> rfl

@[simp] theorem State.resetRegisters_cfg (s : State) : s.resetRegisters.cfg = s.cfg := rfl

@[simp] theorem State.resetRegisters_irq (s : State) : s.resetRegisters.irq = false := by
  simp [State.irq, State.resetRegisters]

/-- Resetting the registers again changes nothing after a hard reset. -/
theorem State.hardReset_resetRegisters (s : State) : s.hardReset.resetRegisters = s.hardReset := by
  simp only [State.hardReset, State.resetRegisters]

/-- The registers of the model's reset state are at their reset values. -/
theorem State.reset_resetRegisters : State.reset.resetRegisters = State.reset := rfl

@[simp] theorem State.hardReset_cfg (s : State) : s.hardReset.cfg = s.cfg := by
  rw [State.hardReset, State.resetRegisters_cfg]

@[simp] theorem State.hardReset_valid (s : State) (u : TSel) : s.hardReset.valid u = false := by
  rw [← State.hardReset_resetRegisters, State.resetRegisters_valid]

@[simp] theorem State.softReset_valid (s : State) (u : TSel) : s.softReset.valid u = false :=
  State.resetRegisters_valid _ u

/-! ### No reset changes the configuration -/

@[simp] theorem State.loseBlk_cfg (s : State) : s.loseBlk.cfg = s.cfg := by rw [State.loseBlk]

@[simp] theorem State.loseTable_cfg (s : State) (t : TSel) : (s.loseTable t).cfg = s.cfg := State.setTable_cfg _ _ _

@[simp] theorem State.loseMemory_cfg (s : State) (p : PSel) : (s.loseMemory p).cfg = s.cfg := State.loseBytes_cfg _ _ _

@[simp] theorem State.losePlane_cfg (s : State) (p : PSel) : (s.losePlane p).cfg = s.cfg := by
  unfold State.losePlane
  split <;> simp

@[simp] theorem State.loseTile_cfg (s : State) (p : PSel) (br bc : Nat) : (s.loseTile p br bc).cfg = s.cfg := by
  unfold State.loseTile
  split <;> simp

@[simp] theorem State.loseWritesOf_cfg (s : State) (i : Instr) : (s.loseWritesOf i).cfg = s.cfg := by
  cases i with
  | compress =>
    unfold State.loseWritesOf
    simp only
    cases compressPath s.ch <;> simp [State.loseColourPath]
  | _ => simp [State.loseWritesOf, State.loseColour]

@[simp] theorem State.abandon_cfg (s : State) : s.abandon.cfg = s.cfg := by
  unfold State.abandon
  split
  · split <;> simp
  · rfl

@[simp] theorem State.softReset_cfg (s : State) : s.softReset.cfg = s.cfg := State.abandon_cfg s

/-! ### No step changes the configuration (rule R41) -/

theorem HostChange.cfg {s t : State} (h : HostChange s t) : t.cfg = s.cfg := by
  cases h with
  | softReset => exact State.softReset_cfg s
  | status v => exact State.clearStatus_cfg s v
  | mem m a v _ _ => exact State.setMem_cfg s m _
  | _ => rfl

theorem UnitChange.cfg {s t : State} (h : UnitChange s t) : t.cfg = s.cfg := by
  cases h with
  | idle => rfl
  | command h => exact (effect_quiet h).cfg
  | error e => exact State.raiseError_cfg s e

theorem step_cfg {s t : State} (h : step s = .next t) : t.cfg = s.cfg :=
  step_keeps (P := fun u => u.cfg = s.cfg) (fun _ _ hs => hs) (fun _ _ hs h => h.cfg.trans hs)
    (fun _ _ hs h => h.cfg.trans hs) (fun u hs => u.hardReset_cfg.trans hs) rfl h

/-! ### Valid tables hold built entries -/

/-- An entry generated with the reference constants is one QTGEN can write, whatever the base entry and `QUALITY` (rule
R99). -/
theorem builtEntry_generatedTable (p : Preset) (t : TSel) (quality : Nat) (i : Fin 64) :
    BuiltEntry (generatedTable referenceNum p t quality)[i] := by
  have hq : effectiveQuality quality ≤ 100 := (clampNat_mem (by omega)).2
  have he : (generatedTable referenceNum p t quality)[i] =
      tableEntry referenceNum (presetMatrix p t)[i] (effectiveQuality quality) := by
    simp [generatedTable]
  unfold BuiltEntry
  rw [he, tableEntry_reference _ hq]
  generalize (_ + 50) / 100 = n
  omega

/-- Both tables are generated from the one preset (rule R188). -/
theorem buildBoth_table (p : Preset) (s : State) (v : TSel) :
    (buildBoth p s).table v = generatedTable s.cfg.num p v s.quality := by
  cases v <;> simp [buildBoth, buildFrom, State.buildTable_table_other]

/-- The colour path leaves both tables generated from its preset (rule R187). -/
theorem colourPath_table (p : Preset) (hor ver : Nat) (s : State) (v : TSel) :
    (colourPath p hor ver s).table v = generatedTable s.cfg.num p v s.quality := by
  unfold colourPath
  simp only [((mergePlanes_keeps _ _ _).2.2.1 v).1, ((compressPlane_keeps _ _ _ _ _).1 v).1, buildBoth_table]
  rfl

/-- Writing `BLK` and `DCONLY` leaves the tables and their valid bits. -/
theorem blkWrite_keeps_table (s : State) (b : Block) (d : Bool) (v : TSel) :
    { s with blk := b, dconly := d }.table v = s.table v ∧ { s with blk := b, dconly := d }.valid v = s.valid v := by
  cases v <;> exact ⟨rfl, rfl⟩

/-- After a command without an error a table is the one before, its valid bit too, or one generated from the preset that
`QCFG` selects (rules R100 and R193). -/
theorem effect_table_cases {i : Instr} {s u : State} (h : effectOf i s = .ok u) (v : TSel) :
    (u.table v = s.table v ∧ u.valid v = s.valid v) ∨
    ∃ p, presetOf s.cfg s.preset = some p ∧ u.table v = generatedTable s.cfg.num p v s.quality := by
  cases i <;> simp only [effectOf] at h
  case nop => cases h; exact .inl ⟨rfl, rfl⟩
  case qtgen t =>
    obtain ⟨p, hp, rfl⟩ := effQtgen_ok h
    obtain ⟨htable, hvalid⟩ := buildFrom_table p t v s
    by_cases hv : v = t
    · subst hv
      exact .inr ⟨p, hp, by rw [htable, if_pos rfl]⟩
    · exact .inl ⟨by rw [htable, if_neg hv], by rw [hvalid, if_neg hv]⟩
  case fdct => cases h; exact .inl (blkWrite_keeps_table s _ s.dconly v)
  case quant t => obtain ⟨-, rfl⟩ := effQuant_ok h; exact .inl (blkWrite_keeps_table s _ s.dconly v)
  case dequant t => obtain ⟨-, rfl⟩ := effDequant_ok h; exact .inl (blkWrite_keeps_table s _ s.dconly v)
  case idct => cases h; exact .inl (blkWrite_keeps_table s _ _ v)
  case xform t => obtain ⟨-, rfl⟩ := effXform_ok h; exact .inl (blkWrite_keeps_table s _ _ v)
  case ldblk p br bc =>
    obtain ⟨_, _, -, -, -, rfl⟩ := effLdblk_ok h
    exact .inl (blkWrite_keeps_table s _ s.dconly v)
  case stblk p br bc =>
    obtain ⟨_, _, -, -, -, rfl⟩ := effStblk_ok h
    exact .inl ⟨State.setMem_table _ _ _ _, State.setMem_valid _ _ _ _⟩
  case cplane p t =>
    obtain ⟨_, _, -, -, rfl⟩ := effCplane_ok h
    exact .inl ((compressPlane_keeps _ _ _ _ _).1 v)
  case split => obtain ⟨_, _, -, rfl⟩ := effSplit_ok h; exact .inl ((splitPlanes_keeps _ _ _).2.2.1 v)
  case merge => obtain ⟨_, _, -, rfl⟩ := effMerge_ok h; exact .inl ((mergePlanes_keeps _ _ _).2.2.1 v)
  case compress =>
    rcases effCompress_ok h with ⟨-, -, -, rfl⟩ | ⟨-, p, -, -, hp, -, rfl⟩ | ⟨p, hor, ver, -, hp, rfl⟩
    · cases v <;> exact .inl ⟨rfl, rfl⟩
    · exact .inr ⟨p, hp, by rw [((compressPlane_keeps _ _ _ _ _).1 v).1, buildBoth_table]; rfl⟩
    · exact .inr ⟨p, hp, colourPath_table p hor ver s v⟩

/-- A change after which every valid table was valid before and has its old contents keeps valid tables built. -/
theorem TablesOk.of_kept {s t : State} (hs : TablesOk s)
    (h : ∀ u, t.valid u = true → t.table u = s.table u ∧ s.valid u = true) : TablesOk t := by
  intro u hu i
  obtain ⟨htable, hvalid⟩ := h u hu
  rw [htable]
  exact hs u hvalid i

/-- Where no table is valid there is nothing to hold. -/
theorem tablesOk_of_invalid {s : State} (h : ∀ u, s.valid u = false) : TablesOk s :=
  fun u hu => absurd hu (by simp [h u])

theorem HostChange.tablesOk {s t : State} (hs : TablesOk s) (h : HostChange s t) : TablesOk t := by
  cases h with
  | softReset => exact tablesOk_of_invalid s.softReset_valid
  | status v =>
    rw [State.clearStatus_eq]
    exact hs.of_kept fun u hu => by cases u <;> exact ⟨rfl, hu⟩
  | mem m a v _ _ => exact hs.of_kept fun u hu => by simpa using hu
  | _ => exact hs.of_kept fun u hu => by cases u <;> exact ⟨rfl, hu⟩

theorem UnitChange.tablesOk {s t : State} (hn : s.cfg.num = referenceNum) (hs : TablesOk s) (h : UnitChange s t) :
    TablesOk t := by
  cases h with
  | idle => exact hs
  | error e => exact hs.of_kept fun u hu => by simpa using hu
  | command h =>
    intro v hv i
    rw [State.finish_valid] at hv
    rw [State.finish_table]
    rcases effect_table_cases h v with ⟨htable, hvalid⟩ | ⟨p, -, htable⟩
    · rw [htable]
      exact hs v (hvalid ▸ hv) i
    · rw [htable, hn]
      exact builtEntry_generatedTable p v s.quality i

/-- Settles O59: the configuration never changes, and only QTGEN and COMPRESS make a table valid, from entries built with
the reference constants. -/
theorem stepKeepsValidTablesBuilt : Obligations.StepKeepsValidTablesBuilt := by
  intro s t h
  refine ⟨step_cfg h, fun hn hs => ?_⟩
  refine (step_keeps (P := fun u => u.cfg.num = referenceNum ∧ TablesOk u) ?_ ?_ ?_ ?_ ⟨hn, hs⟩ h).2
  · rintro u rest ⟨hn, hu⟩
    exact ⟨hn, hu.of_kept fun v hv => by cases v <;> exact ⟨rfl, hv⟩⟩
  · rintro u u' ⟨hn, hu⟩ hc
    exact ⟨hc.cfg ▸ hn, hc.tablesOk hn hu⟩
  · rintro u u' ⟨hn, hu⟩ hc
    exact ⟨hc.cfg ▸ hn, hc.tablesOk hu⟩
  · rintro u ⟨hn, -⟩
    exact ⟨(congrArg Config.num u.hardReset_cfg).trans hn, tablesOk_of_invalid u.hardReset_valid⟩

/-! ### Writes to the control registers -/

theorem hostWriteReg_ctrl {s : State} {v : Word} (hv : v.getLsbD 1 = false) :
    hostWriteReg 0 v s = .next { s with ctrl := v &&& ctrlMask } := by
  have hw : s.writeCtrl v = { s with ctrl := v &&& ctrlMask } := if_neg (by rw [hv]; exact Bool.false_ne_true)
  exact congrArg _ hw

theorem whileIdle_idle {s : State} (h : s.busy = false) (r : Host.Outcome State Fault Refusal) : whileIdle s r = r := by
  simp [whileIdle, h]

/-- The configuration registers of rule R58 take a write while no command runs. -/
theorem hostWriteReg_config {s : State} (h : s.busy = false) (v : Word) :
    hostWriteReg 3 v s = .next { s with width := v &&& dimMask } ∧
    hostWriteReg 4 v s = .next { s with height := v &&& dimMask } ∧
    hostWriteReg 5 v s = .next { s with fmt := v &&& fmtMask } ∧
    hostWriteReg 6 v s = .next { s with qcfg := v &&& qcfgMask } :=
  ⟨whileIdle_idle h _, whileIdle_idle h _, whileIdle_idle h _, whileIdle_idle h _⟩

theorem State.writeCmd_idle {s : State} (h : s.busy = false) (w : Word) : s.writeCmd w = s.launch w := by
  simp [State.writeCmd, h]

theorem State.writeCmd_busy {s : State} (h : s.busy = true) (w : Word) : s.writeCmd w = { s with ovr := true } := by
  simp [State.writeCmd, h]

/-- Indices 7 to 15 ignore writes (rules R28 and R33). -/
theorem hostWriteReg_ignored {k : Fin 16} (h : 7 ≤ k.val) (v : Word) (s : State) : hostWriteReg k v s = .next s := by
  unfold hostWriteReg
  split
  case h_8 => rfl
  all_goals omega

/-- Indices 9 to 15 read 0 (rule R33). -/
theorem State.readReg_reserved (s : State) {k : Fin 16} (h : 9 ≤ k.val) : s.readReg k = 0 := by
  unfold State.readReg
  split
  case h_10 => rfl
  all_goals omega

/-- A field all of whose bits are writable is the same bits of the word written. -/
theorem extractLsb'_masked {mask : Word} {start len : Nat} (h : mask.extractLsb' start len = BitVec.allOnes len)
    (v : Word) : ((v &&& mask).extractLsb' start len).toNat = v.toNat / 2 ^ start % 2 ^ len := by
  rw [BitVec.extractLsb'_and, h, BitVec.and_allOnes, BitVec.extractLsb'_toNat, Nat.shiftRight_eq_div_pow]

/-- The fields of rules R25 to R27 after a masked write. -/
theorem fields_of_masked_write (s : State) (v : Word) :
    { s with width := v &&& dimMask }.imgW = v.toNat % 32768 ∧
    { s with height := v &&& dimMask }.imgH = v.toNat % 32768 ∧
    { s with fmt := v &&& fmtMask }.ch = v.toNat % 8 ∧
    { s with fmt := v &&& fmtMask }.subsamp = v.toNat / 16 % 8 ∧
    { s with qcfg := v &&& qcfgMask }.quality = v.toNat % 128 ∧
    { s with qcfg := v &&& qcfgMask }.preset = v.toNat / 256 % 16 := by
  have low {mask : Word} {len : Nat} (h : mask.extractLsb' 0 len = BitVec.allOnes len) :
      ((v &&& mask).extractLsb' 0 len).toNat = v.toNat % 2 ^ len := by
    rw [extractLsb'_masked h, pow_zero, Nat.div_one]
  exact ⟨low (by decide), low (by decide), low (by decide), extractLsb'_masked (by decide) v, low (by decide),
    extractLsb'_masked (by decide) v⟩

/-- A register reads back as the masked word written, `CTRL` where no soft reset is asked for, the others while idle. -/
theorem readReg_after_write {s : State} {k : Fin 16} {v mask : Word}
    (hk : (k, mask) ∈ [((0 : Fin 16), (0x00000001 : Word)), (2, 0xFFFFFFFF), (3, 0x00007FFF), (4, 0x00007FFF),
      (5, 0x00000077), (6, 0x00000F7F)])
    (h : (k = 0 ∧ v.getLsbD 1 = false) ∨ (k ≠ 0 ∧ s.busy = false)) :
    ∃ t, hostWriteReg k v s = .next t ∧ t.readReg k = v &&& mask := by
  rcases h with ⟨rfl, hv⟩ | ⟨hne, hb⟩
  · obtain rfl : mask = 1 := by simpa using hk
    exact ⟨_, hostWriteReg_ctrl hv, rfl⟩
  · obtain ⟨hwidth, hheight, hfmt, hqcfg⟩ := hostWriteReg_config hb v
    simp only [List.mem_cons, Prod.mk.injEq, List.not_mem_nil, or_false] at hk
    rcases hk with ⟨hk, -⟩ | ⟨rfl, rfl⟩ | ⟨rfl, rfl⟩ | ⟨rfl, rfl⟩ | ⟨rfl, rfl⟩ | ⟨rfl, rfl⟩
    · exact absurd hk hne
    · exact ⟨s.writeCmd v, rfl, by rw [State.writeCmd_idle hb]; exact (BitVec.and_allOnes (x := v)).symm⟩
    · exact ⟨_, hwidth, rfl⟩
    · exact ⟨_, hheight, rfl⟩
    · exact ⟨_, hfmt, rfl⟩
    · exact ⟨_, hqcfg, rfl⟩

/-- Settles O46: each register's write rule, its read-back, and the fields as bits of the word written. -/
theorem reservedBitsReadZero : Obligations.ReservedBitsReadZero := fun s v =>
  ⟨hostWriteReg_ctrl, fun hb => hostWriteReg_config hb v, fun _ _ => readReg_after_write, fields_of_masked_write s v,
    fun _ _ hk => hostWriteReg_ignored hk v s, fun _ => s.readReg_reserved⟩

/-! ### `CPW` and `CPH` -/

theorem cdiv_le_self (a : Nat) {b : Nat} (hb : 0 < b) : cdiv a b ≤ a := by
  by_contra hlt
  have := (lt_cdiv_iff (k := a) (a := a) hb).1 (by omega)
  have := Nat.le_mul_of_pos_right a hb
  omega

/-- A 15-bit size divided and rounded up fits a register. -/
theorem cdiv_lt_word {a b : Nat} (ha : a < 2 ^ 15) (hb : 0 < b) : cdiv a b < 2 ^ 32 :=
  (cdiv_le_self a hb).trans_lt (ha.trans (by decide))

/-- With a ratio selected, `CPW` and `CPH` read as the chroma plane's size (rule R28). -/
theorem readReg_chromaSize {s : State} {hor ver : Nat} (h : s.ratio = some (hor, ver)) :
    (s.readReg 7).toNat = cdiv s.imgW hor ∧ (s.readReg 8).toNat = cdiv s.imgH ver := by
  obtain ⟨hhor, hver⟩ := ratioOf_pos h
  have hd : s.chromaDims = some (cdiv s.imgW hor, cdiv s.imgH ver) := by simp [State.chromaDims, h]
  have hw : s.readReg 7 = BitVec.ofNat 32 (cdiv s.imgW hor) := by simp [State.readReg, State.cpw, hd]
  have hh : s.readReg 8 = BitVec.ofNat 32 (cdiv s.imgH ver) := by simp [State.readReg, State.cph, hd]
  rw [hw, hh, BitVec.toNat_ofNat, BitVec.toNat_ofNat]
  exact ⟨Nat.mod_eq_of_lt (cdiv_lt_word (s.width.extractLsb' 0 15).isLt hhor),
    Nat.mod_eq_of_lt (cdiv_lt_word (s.height.extractLsb' 0 15).isLt hver)⟩

/-- With the reserved ratio, `CPW` and `CPH` read 0 (rule R28). -/
theorem readReg_chromaSize_none {s : State} (h : s.ratio = none) : s.readReg 7 = 0 ∧ s.readReg 8 = 0 := by
  have hd : s.chromaDims = none := by simp [State.chromaDims, h]
  exact ⟨by simp [State.readReg, State.cpw, hd], by simp [State.readReg, State.cph, hd]⟩

/-- The seven codes of rule R35 with their factors are the ratios of the model. -/
theorem ratioOf_table {code hor ver : Nat}
    (h : (code, hor, ver) ∈ [(0, 1, 1), (1, 1, 2), (2, 1, 4), (3, 2, 1), (4, 2, 2), (5, 4, 1), (6, 4, 2)]) :
    ratioOf code = some (hor, ver) := by
  simp only [List.mem_cons, Prod.mk.injEq, List.not_mem_nil, or_false] at h
  rcases h with ⟨rfl, rfl, rfl⟩ | ⟨rfl, rfl, rfl⟩ | ⟨rfl, rfl, rfl⟩ | ⟨rfl, rfl, rfl⟩ | ⟨rfl, rfl, rfl⟩ |
    ⟨rfl, rfl, rfl⟩ | ⟨rfl, rfl, rfl⟩ <;> rfl

/-- Settles O47: the code selects its pair, and the registers read as the plane's size for that pair. -/
theorem chromaSizeRegistersAreDerived : Obligations.ChromaSizeRegistersAreDerived := by
  intro s
  refine ⟨fun code hor ver hmem hcode => ?_, fun h7 => ?_, fun _ v => ?_⟩
  · have hratio : s.ratio = some (hor, ver) := by rw [State.ratio, hcode, ratioOf_table hmem]
    exact ⟨hratio, readReg_chromaSize hratio⟩
  · exact ⟨ratio_none h7, readReg_chromaSize_none (ratio_none h7)⟩
  · exact ⟨hostWriteReg_ignored (k := 7) (by decide) v s, hostWriteReg_ignored (k := 8) (by decide) v s⟩

/-! ### Hard reset -/

/-- Settles O55: both states have their registers at the reset values of `State.resetRegisters`. -/
theorem hardResetSetsEveryRegister : Obligations.HardResetSetsEveryRegister := by
  intro s rest h
  refine ⟨_, step_hardReset h, fun u hu => ?_⟩
  have hfixed : u.resetRegisters = u := by
    rcases hu with rfl | rfl
    · exact State.hardReset_resetRegisters _
    · exact State.reset_resetRegisters
  rw [← hfixed]
  exact ⟨State.resetRegisters_readReg u, State.resetRegisters_valid u, rfl, State.resetRegisters_irq u⟩

/-! ### The reserved register bits stay 0 -/

/-- Writing under a mask leaves nothing outside it. -/
theorem masked_idem (v mask : Word) : v &&& mask &&& mask = v &&& mask := by
  rw [BitVec.and_assoc, BitVec.and_self]

theorem registersOk_resetRegisters (s : State) : RegistersOk s.resetRegisters :=
  ⟨BitVec.zero_and, BitVec.zero_and, BitVec.zero_and, BitVec.zero_and,
    show (0x00000064 : Word) &&& qcfgMask = 0x00000064 by decide⟩

theorem registersOk_hardReset (s : State) : RegistersOk s.hardReset :=
  s.hardReset_resetRegisters ▸ registersOk_resetRegisters s.hardReset

theorem HostChange.registersOk {s t : State} (hs : RegistersOk s) (h : HostChange s t) : RegistersOk t := by
  obtain ⟨hctrl, hwidth, hheight, hfmt, hqcfg⟩ := hs
  cases h with
  | softReset => exact registersOk_resetRegisters _
  | ctrl v => exact ⟨masked_idem v _, hwidth, hheight, hfmt, hqcfg⟩
  | width v _ => exact ⟨hctrl, masked_idem v _, hheight, hfmt, hqcfg⟩
  | height v _ => exact ⟨hctrl, hwidth, masked_idem v _, hfmt, hqcfg⟩
  | fmt v _ => exact ⟨hctrl, hwidth, hheight, masked_idem v _, hqcfg⟩
  | qcfg v _ => exact ⟨hctrl, hwidth, hheight, hfmt, masked_idem v _⟩
  | status v =>
    rw [State.clearStatus_eq]
    exact ⟨hctrl, hwidth, hheight, hfmt, hqcfg⟩
  | mem m a v _ _ => simpa [RegistersOk] using ⟨hctrl, hwidth, hheight, hfmt, hqcfg⟩
  | _ => exact ⟨hctrl, hwidth, hheight, hfmt, hqcfg⟩

/-- The unit writes none of the five registers (rule R193). -/
theorem UnitChange.registersOk {s t : State} (hs : RegistersOk s) (h : UnitChange s t) : RegistersOk t := by
  cases h with
  | idle => exact hs
  | error e => simpa [RegistersOk] using hs
  | command h =>
    have q := effect_quiet h
    simpa [RegistersOk, q.ctrl, q.width, q.height, q.fmt, q.qcfg] using hs

/-- Settles O56: the unit writes no control register, and the host writes each under its mask. -/
theorem stepKeepsRegistersOk : Obligations.StepKeepsRegistersOk := fun _ _ hs h =>
  step_keeps (P := RegistersOk) (fun _ _ hs => hs) (fun _ _ hs hc => hc.registersOk hs)
    (fun _ _ hs hc => hc.registersOk hs) (fun s _ => registersOk_hardReset s) hs h

/-! ### The command register -/

/-- Settles O7: a scheduled write to `CMD` is `State.writeCmd`, which launches or overruns. -/
theorem commandWriteLaunchesOrOverruns : Obligations.CommandWriteLaunchesOrOverruns := by
  refine ⟨fun s w rest h => ?_, State.resetRegisters_readReg State.reset 2⟩
  have launches (hb : s.busy = false) : step s = .next ({ s with schedule := rest }.launch w) :=
    (step_host h).trans (congrArg Host.Outcome.next (State.writeCmd_idle (s := { s with schedule := rest }) hb w))
  have overruns (hb : s.busy = true) : step s = .next { s with schedule := rest, ovr := true } :=
    (step_host h).trans (congrArg Host.Outcome.next (State.writeCmd_busy (s := { s with schedule := rest }) hb w))
  refine ⟨launches, overruns, fun t ht => ?_, rfl⟩
  cases hb : s.busy with
  | false =>
    obtain rfl := Host.Outcome.next.inj ((launches hb).symm.trans ht)
    rfl
  | true =>
    obtain rfl := Host.Outcome.next.inj ((overruns hb).symm.trans ht)
    rfl

/-! ### The state after reset -/

/-- Settles O60: registers and valid bits are at their reset values, and no memory lists a byte. -/
theorem resetMeetsTheInvariants : Obligations.ResetMeetsTheInvariants := by
  refine ⟨registersOk_resetRegisters State.reset, by decide, fun p => ?_,
    tablesOk_of_invalid (State.resetRegisters_valid State.reset), by decide, rfl⟩
  cases p <;> exact ⟨Memory.wf_nil, List.forall_mem_nil _⟩

end Sys2Proof.Machine

/-! PROOFS. Family 20_memory: the host's data accesses while a command runs and while none does, that no read has a side
effect, and the address map of the bus (20_memory.md). -/

namespace Sys2Proof.Machine

/-! ### Data accesses while a command runs -/

theorem whileIdle_busy {s : State} (h : s.busy = true) (r : Host.Outcome State Fault Refusal) :
    whileIdle s r = .refused .hostAccessWhileBusy := if_pos h

/-- The configuration registers take no write while a command runs (rule R62). -/
theorem hostWriteReg_config_busy {s : State} (h : s.busy = true) {k : Fin 16} (hlo : 3 ≤ k.val) (hhi : k.val ≤ 6)
    (v : Word) : hostWriteReg k v s = .refused .hostAccessWhileBusy := by
  obtain rfl | rfl | rfl | rfl : k = 3 ∨ k = 4 ∨ k = 5 ∨ k = 6 := by omega
  all_goals exact whileIdle_busy h _

/-- Settles O48: each of these accesses is guarded by `whileIdle`. -/
theorem hostDataAccessWhileBusyIsRefused : Obligations.HostDataAccessWhileBusyIsRefused := by
  intro s op hb hop
  cases op with
  | readBlk _ | writeBlk _ _ | readQT _ _ | writeQT _ _ _ | readMem _ _ | writeMem _ _ _ => exact whileIdle_busy hb _
  | writeReg k v => exact hostWriteReg_config_busy hb hop.1 hop.2 v
  | readReg _ | busRead _ _ | busWrite _ _ _ => exact hop.elim

/-! ### Data accesses while no command runs -/

section
variable {s : State} (hb : s.busy = false)
include hb

theorem hostReadBlk_idle (i : Fin 64) : hostReadBlk i s = .next { s with portData := s.blk[i] } :=
  whileIdle_idle hb _

theorem hostWriteBlk_idle (i : Fin 64) (v : Word) : hostWriteBlk i v s = .next { s with blk := s.blk.set i v } :=
  whileIdle_idle hb _

theorem hostReadMem_idle {m : PSel} {a : Nat} (h : a < capacity s.cfg m) :
    hostReadMem m a s = .next { s with portData := (Memory.read (s.mem m) a).setWidth 32 } :=
  (whileIdle_idle hb _).trans (if_pos h)

theorem hostWriteMem_idle {m : PSel} {a : Nat} (h : a < capacity s.cfg m) (v : Byte) :
    hostWriteMem m a v s = .next (s.setMem m (Memory.write (s.mem m) a v)) :=
  (whileIdle_idle hb _).trans (if_pos h)

theorem hostMem_beyondCapacity {m : PSel} {a : Nat} (h : capacity s.cfg m ≤ a) (v : Byte) :
    hostWriteMem m a v s = .refused .hostIndexBeyondCapacity ∧ hostReadMem m a s = .refused .hostIndexBeyondCapacity :=
  ⟨(whileIdle_idle hb _).trans (if_neg (Nat.not_lt.2 h)), (whileIdle_idle hb _).trans (if_neg (Nat.not_lt.2 h))⟩

theorem hostReadQT_valid {t : TSel} (h : s.valid t = true) (i : Fin 64) :
    hostReadQT t i s = .next { s with portData := (s.table t)[i].setWidth 32 } := by
  have hread : s.readQT t i = (s.table t)[i].setWidth 32 := if_pos h
  rw [hostReadQT, whileIdle_idle hb, hread, answer]

theorem hostWriteQT_idle : hostWriteQT s = .next s := whileIdle_idle hb _

end

/-- Settles O49: the idle unit takes the access, and a write to one place of a block or a memory leaves the others. -/
theorem hostReadsAndWritesOneElement : Obligations.HostReadsAndWritesOneElement := by
  intro s hb
  refine ⟨fun i v => ⟨_, hostWriteBlk_idle hb i v, Vector.getElem_set_self _, fun j hj => ?_⟩, hostReadBlk_idle hb,
    fun m a v ha => ⟨⟨_, hostWriteMem_idle hb ha v, Memory.read_write_same _ a v, fun c => Memory.read_write_other _ v⟩,
      hostReadMem_idle hb ha⟩,
    fun m a v ha => hostMem_beyondCapacity hb ha v,
    fun t i v => ⟨hostWriteQT_idle hb, fun hv => hostReadQT_valid hb hv i⟩⟩
  exact Vector.getElem_set_ne _ _ fun h => hj (Fin.ext h.symm)

/-! ### Where a bus address leads

`BusTarget.read` and `BusTarget.write` name the element access that `busRead` and `busWrite` make at each target. -/

/-- The element read a bus read at this target stands for; the reserved region answers 0 (rule R55). -/
def BusTarget.read (τ : BusTarget) (s : State) : Host.Outcome State Fault Refusal :=
  match τ with
  | .reg k => hostStep (.readReg k) s
  | .reserved => answer s 0
  | .blk i => hostStep (.readBlk i) s
  | .qt t i => hostStep (.readQT t i) s
  | .mem m a => hostStep (.readMem m a) s

/-- The element write a bus write at this target stands for; the reserved region ignores it (rule R55). -/
def BusTarget.write (τ : BusTarget) (v : Word) (s : State) : Host.Outcome State Fault Refusal :=
  match τ with
  | .reg k => hostStep (.writeReg k v) s
  | .reserved => .next s
  | .blk i => hostStep (.writeBlk i v) s
  | .qt t i => hostStep (.writeQT t i v) s
  | .mem m a => hostStep (.writeMem m a (v.setWidth 8)) s

theorem bus_of_target {s : State} {addr n : Nat} {τ : BusTarget} (h : busTarget s.cfg addr n = .ok τ) (v : Word) :
    busRead addr n s = τ.read s ∧ busWrite addr n v s = τ.write v s := by
  unfold busRead busWrite
  rw [h]
  cases τ <;> exact ⟨rfl, rfl⟩

theorem bus_of_error {s : State} {addr n : Nat} {r : Refusal} (h : busTarget s.cfg addr n = .error r) (v : Word) :
    busRead addr n s = .refused r ∧ busWrite addr n v s = .refused r := by
  unfold busRead busWrite
  rw [h]
  exact ⟨rfl, rfl⟩

theorem inWindow_inside {base n a : Nat} (h : a < n) : inWindow base n (base + a) = some a := by
  rw [inWindow, if_pos (by omega), Nat.add_sub_cancel_left]

/-- An address in one window is in no window apart from it. -/
theorem inWindow_outside {base n base' n' a : Nat} (h : base + n ≤ base' ∨ base' + n' ≤ base) (ha : a < n') :
    inWindow base n (base' + a) = none := if_neg (by omega)

/-- The unit's own window, word by word (rules R53 and R55). -/
theorem busTarget_region (c : Config) {off : Nat} (h : off < 0x400) (n : Nat) :
    busTarget c (c.pduBase + off) n =
      if n = 4 ∧ (c.pduBase + off) % 4 = 0 ∧ off % 4 = 0 then .ok (regionTarget off)
      else .error .busWidthOrAlignment := by
  rw [busTarget, inWindow_inside h]

/-- The window of a pixel memory and its length are listed behind that of the unit (rule R56). -/
theorem pixelWindow_mem (c : Config) (m : PSel) :
    (windowBase c m, capacity c m) ∈ [(c.pixBase, c.pixBytes), (c.ypBase, c.planeBytes), (c.cbpBase, c.planeBytes),
      (c.crpBase, c.planeBytes)] := by
  cases m <;> simp [windowBase, capacity]

/-- With windows that do not overlap, an address in a pixel memory's window reaches the byte at its index. -/
theorem pixelTarget_window {c : Config} (hc : ConfigOk c) {m : PSel} {a : Nat} (ha : a < capacity c m) :
    pixelTarget c (windowBase c m + a) = some (.mem m a) := by
  obtain ⟨-, -, -, -, -, hapart⟩ := hc
  simp only [busWindows, List.pairwise_cons, List.forall_mem_cons] at hapart
  obtain ⟨-, ⟨hpixY, hpixCb, hpixCr, -⟩, ⟨hyCb, hyCr, -⟩, ⟨hcbCr, -⟩, -⟩ := hapart
  cases m <;> simp only [pixelTarget, windowBase, capacity] at ha ⊢
  case pix => rw [inWindow_inside ha]
  case y => rw [inWindow_outside hpixY ha, inWindow_inside ha]
  case cb => rw [inWindow_outside hpixCb ha, inWindow_outside hyCb ha, inWindow_inside ha]
  case cr =>
    rw [inWindow_outside hpixCr ha, inWindow_outside hyCr ha, inWindow_outside hcbCr ha, inWindow_inside ha]

/-- An address in a pixel memory's window is not in the unit's own. -/
theorem inWindow_pdu_pixel {c : Config} (hc : ConfigOk c) {m : PSel} {a : Nat} (ha : a < capacity c m) :
    inWindow c.pduBase 0x400 (windowBase c m + a) = none := by
  obtain ⟨-, -, -, -, -, hapart⟩ := hc
  exact inWindow_outside ((List.pairwise_cons.1 hapart).1 _ (pixelWindow_mem c m)) ha

/-- The pixel windows, byte by byte (rules R53 and R55). -/
theorem busTarget_pixel {c : Config} (hc : ConfigOk c) {m : PSel} {a : Nat} (ha : a < capacity c m) (n : Nat) :
    busTarget c (windowBase c m + a) n = if n = 1 then .ok (.mem m a) else .error .busWidthOrAlignment := by
  rw [busTarget, inWindow_pdu_pixel hc ha, pixelTarget_window hc ha]

/-! ### The elements of the regions -/

theorem regionTarget_reg (k : Fin 16) : regionTarget (4 * k) = .reg k := by
  rw [regionTarget, if_pos (by omega), Nat.mul_div_cancel_left _ (by decide), Fin.ofNat_val_eq_self]

theorem regionTarget_reserved {off : Nat} (hlo : 0x40 ≤ off) (hhi : off < 0x100) : regionTarget off = .reserved := by
  rw [regionTarget, if_neg (by omega), if_pos hhi]

theorem regionTarget_blk (i : Fin 64) : regionTarget (0x100 + 4 * i) = .blk i := by
  rw [regionTarget, if_neg (by omega), if_neg (by omega), if_pos (by omega), Nat.add_sub_cancel_left,
    Nat.mul_div_cancel_left _ (by decide), Fin.ofNat_val_eq_self]

theorem regionTarget_luma (i : Fin 64) : regionTarget (0x200 + 4 * i) = .qt .l i := by
  rw [regionTarget, if_neg (by omega), if_neg (by omega), if_neg (by omega), if_pos (by omega),
    Nat.add_sub_cancel_left, Nat.mul_div_cancel_left _ (by decide), Fin.ofNat_val_eq_self]

theorem regionTarget_chroma (i : Fin 64) : regionTarget (0x300 + 4 * i) = .qt .c i := by
  rw [regionTarget, if_neg (by omega), if_neg (by omega), if_neg (by omega), if_neg (by omega),
    Nat.add_sub_cancel_left, Nat.mul_div_cancel_left _ (by decide), Fin.ofNat_val_eq_self]

/-! ### The accesses a bus access stands for -/

/-- An aligned 4-byte access in the unit's own window is the access to the target of its offset. -/
theorem bus_region {s : State} (hbase : s.cfg.pduBase % 4 = 0) {off : Nat} {τ : BusTarget} (hoff : off < 0x400)
    (halign : off % 4 = 0) (hτ : regionTarget off = τ) (v : Word) :
    busRead (s.cfg.pduBase + off) 4 s = τ.read s ∧ busWrite (s.cfg.pduBase + off) 4 v s = τ.write v s :=
  bus_of_target (by rw [busTarget_region _ hoff, if_pos (by omega), hτ]) v

/-- Any other access there is refused. -/
theorem bus_region_refused {s : State} {off n : Nat} (hoff : off < 0x400) (h : n ≠ 4 ∨ off % 4 ≠ 0) (v : Word) :
    busRead (s.cfg.pduBase + off) n s = .refused .busWidthOrAlignment ∧
    busWrite (s.cfg.pduBase + off) n v s = .refused .busWidthOrAlignment :=
  bus_of_error (by rw [busTarget_region _ hoff, if_neg (by omega)]) v

/-- A 1-byte access in a pixel window is the access to the byte at its index. -/
theorem bus_pixel {s : State} (hc : ConfigOk s.cfg) {m : PSel} {a : Nat} (ha : a < capacity s.cfg m) (v : Word) :
    busRead (windowBase s.cfg m + a) 1 s = hostReadMem m a s ∧
    busWrite (windowBase s.cfg m + a) 1 v s = hostWriteMem m a (v.setWidth 8) s :=
  bus_of_target (τ := .mem m a) (by rw [busTarget_pixel hc ha, if_pos rfl]) v

/-- An access of any other width there is refused. -/
theorem bus_pixel_refused {s : State} (hc : ConfigOk s.cfg) {m : PSel} {a n : Nat} (ha : a < capacity s.cfg m)
    (hn : n ≠ 1) (v : Word) :
    busRead (windowBase s.cfg m + a) n s = .refused .busWidthOrAlignment ∧
    busWrite (windowBase s.cfg m + a) n v s = .refused .busWidthOrAlignment :=
  bus_of_error (by rw [busTarget_pixel hc ha, if_neg hn]) v

/-- Settles O50: each region's offset has its target, and the bus makes the access of the target. -/
theorem busAccessReachesItsElement : Obligations.BusAccessReachesItsElement := by
  intro s v hc hbase
  simp only [Nat.add_assoc]
  refine ⟨fun k => bus_region hbase (by omega) (by omega) (regionTarget_reg k) v,
    fun off hlo hhi halign => bus_region hbase (by omega) halign (regionTarget_reserved hlo hhi) v,
    fun i => bus_region hbase (by omega) (by omega) (regionTarget_blk i) v, fun i => ?_,
    fun m a ha => bus_pixel hc ha v, fun off n hoff h => bus_region_refused hoff h v,
    fun m a n ha hn => bus_pixel_refused hc ha hn v⟩
  obtain ⟨readLuma, writeLuma⟩ := bus_region hbase (by omega) (by omega) (regionTarget_luma i) v
  obtain ⟨readChroma, writeChroma⟩ := bus_region hbase (by omega) (by omega) (regionTarget_chroma i) v
  exact ⟨readLuma, readChroma, writeLuma, writeChroma⟩

/-! ### Reads have no side effect -/

/-- Only the port's own data register differs (rule R54). -/
def SameButPort (s t : State) : Prop := t = { s with portData := t.portData }

theorem answer_sameButPort {s t : State} {v : Word} (h : answer s v = .next t) : SameButPort s t := by
  cases h
  rfl

theorem hostReadMem_sameButPort {m : PSel} {a : Nat} {s t : State} (h : hostReadMem m a s = .next t) :
    SameButPort s t := by
  obtain ⟨-, h⟩ := whileIdle_next h
  split at h
  · exact answer_sameButPort h
  · cases h

theorem BusTarget.read_sameButPort {τ : BusTarget} {s t : State} (h : τ.read s = .next t) : SameButPort s t := by
  cases τ with
  | reg _ | reserved => exact answer_sameButPort h
  | blk _ | qt _ _ => exact answer_sameButPort (whileIdle_next h).2
  | mem _ _ => exact hostReadMem_sameButPort h

theorem busRead_sameButPort {addr n : Nat} {s t : State} (h : busRead addr n s = .next t) : SameButPort s t := by
  cases htarget : busTarget s.cfg addr n with
  | ok τ =>
    rw [(bus_of_target htarget 0).1] at h
    exact BusTarget.read_sameButPort h
  | error r =>
    rw [(bus_of_error htarget 0).1] at h
    cases h

/-- Settles O51: a read answers or is refused, by element and, through its target, by bus address. -/
theorem hostReadsHaveNoSideEffects : Obligations.HostReadsHaveNoSideEffects := by
  refine ⟨fun _ _ => rfl, fun _ => ⟨rfl, rfl, rfl, rfl, rfl, rfl, rfl⟩, fun s t op hop h => ?_⟩
  cases op with
  | readReg _ => exact answer_sameButPort h
  | readBlk _ | readQT _ _ => exact answer_sameButPort (whileIdle_next h).2
  | readMem _ _ => exact hostReadMem_sameButPort h
  | busRead _ _ => exact busRead_sameButPort h
  | writeReg _ _ | writeBlk _ _ | writeQT _ _ _ | writeMem _ _ _ | busWrite _ _ _ => exact hop.elim

end Sys2Proof.Machine

/-! PROOFS. Family 30_encoding: what the decoder answers for every word, the round trip of decoder and encoder, and the
completion of an illegal word (30_encoding.md). -/

namespace Sys2Proof

/-! ### The row of a word

A row's mask covers `OPC`, so at most the row at the word's own `OPC` selects it. -/

/-- Where a row's mask covers a field, a word the row selects has the field of the row's match (rule R77). -/
theorem CommandRow.Selects.field_eq {r : CommandRow} {w : Word} (h : r.Selects w) {start len : Nat}
    (hmask : r.mask.extractLsb' start len = BitVec.allOnes len) :
    w.extractLsb' start len = r.matchWord.extractLsb' start len := by
  rw [← h, BitVec.extractLsb'_and, hmask, BitVec.and_allOnes]

theorem opcField_lt (w : Word) : opcField w < 32 := (w.extractLsb' 0 5).isLt

theorem bcolField_lt (w : Word) : bcolField w < 4096 := (w.extractLsb' 8 12).isLt

theorem browField_lt (w : Word) : browField w < 4096 := (w.extractLsb' 20 12).isLt

/-- Every row's mask covers `OPC`, and the row stands at the `OPC` of its match (rule R77). -/
theorem commandRows_covers_opc : ∀ r ∈ commandRows,
    r.mask.extractLsb' 0 5 = BitVec.allOnes 5 ∧ commandRows[opcField r.matchWord]? = some r := by decide

/-- A row of the table that selects a word stands at the word's `OPC`. -/
theorem CommandRow.Selects.getElem?_opcField {r : CommandRow} {w : Word} (h : r.Selects w) (hr : r ∈ commandRows) :
    commandRows[opcField w]? = some r := by
  obtain ⟨covered, place⟩ := commandRows_covers_opc r hr
  rwa [opcField, h.field_eq covered]

/-! ### What the decoder answers -/

/-- Every `OPC` below 13 has a command (rule R76). -/
theorem exists_commandOf {opc : Nat} (h : opc < 13) (w : Word) : ∃ i, commandOf opc w = some i := by
  interval_cases opc <;> exact ⟨_, rfl⟩

/-- An `OPC` from 13 on is reserved (rule R78). -/
theorem decode_reserved {w : Word} (h : 13 ≤ opcField w) : decode w = .error .opc := by
  simp only [decode, List.getElem?_eq_none (l := commandRows) h]

/-- With a row and a command at its `OPC`, a word decodes to the command where the row selects it (rule R80). -/
theorem decode_row {w : Word} {r : CommandRow} {i : Instr} (hr : commandRows[opcField w]? = some r)
    (hi : commandOf (opcField w) w = some i) : decode w = if r.Selects w then .ok i else .error .field := by
  simp only [decode, hr, hi]

/-- Every word is reserved, or has an `OPC` in the table and is selected by no row or by the row there. -/
theorem decode_cases (w : Word) :
    (decode w = .error .opc ∧ 13 ≤ opcField w ∧ ∀ r ∈ commandRows, ¬ r.Selects w) ∨
    (decode w = .error .field ∧ opcField w < 13 ∧ ∀ r ∈ commandRows, ¬ r.Selects w) ∨
    ∃ r i, decode w = .ok i ∧ opcField w < 13 ∧ commandRows[opcField w]? = some r ∧ r.Selects w ∧
      commandOf (opcField w) w = some i := by
  by_cases hopc : 13 ≤ opcField w
  · refine .inl ⟨decode_reserved hopc, hopc, fun r hr hsel => ?_⟩
    have hplace := hsel.getElem?_opcField hr
    rw [List.getElem?_eq_none (l := commandRows) hopc] at hplace
    cases hplace
  · have hlt : opcField w < 13 := by omega
    obtain ⟨i, hi⟩ := exists_commandOf hlt w
    have hrow := List.getElem?_eq_getElem (l := commandRows) hlt
    by_cases hsel : commandRows[opcField w].Selects w
    · exact .inr (.inr ⟨_, i, (decode_row hrow hi).trans (if_pos hsel), hlt, hrow, hsel, hi⟩)
    · refine .inr (.inl ⟨(decode_row hrow hi).trans (if_neg hsel), hlt, fun r hr hother => hsel ?_⟩)
      rwa [Option.some.inj (hrow.symm.trans (hother.getElem?_opcField hr))]

/-- Settles O3: by the three answers of `decode_cases`. -/
theorem everyWordDecodesByRule : Obligations.EveryWordDecodesByRule := by
  intro w
  change (_ ↔ 13 ≤ opcField w) ∧ (_ ↔ opcField w ≤ 12 ∧ ∀ r ∈ commandRows, ¬ r.Selects w) ∧
    (_ ↔ ∃ r ∈ commandRows, r.Selects w)
  obtain ⟨hdecode, hopc, hnone⟩ | ⟨hdecode, hopc, hnone⟩ | ⟨r, i, hdecode, hopc, hrow, hsel, -⟩ := decode_cases w
  · rw [hdecode]
    refine ⟨by simp [hopc], by simp; omega, by simpa using hnone⟩
  · rw [hdecode]
    refine ⟨by simp; omega, ⟨fun _ => ⟨by omega, hnone⟩, fun _ => rfl⟩, by simpa using hnone⟩
  · have hr := List.mem_of_getElem? hrow
    rw [hdecode]
    exact ⟨by simp; omega, ⟨nofun, fun h => absurd hsel (h.2 r hr)⟩, fun _ => ⟨r, hr, hsel⟩, fun _ => ⟨i, rfl⟩⟩

/-- Settles O4: the sixteen words, evaluated. -/
theorem workedEncodingsDecode : Obligations.WorkedEncodingsDecode := by
  unfold Obligations.WorkedEncodingsDecode
  decide

/-! ### Decoding an encoded command -/

/-- The word of a well-formed command selects the row at its code (rules R76 and R77). -/
theorem encode_selects (i : Instr) : Laws.RowMatch.Statement i := by
  cases i with
  | nop => exact Laws.RowMatch.nop
  | qtgen t => exact Laws.RowMatch.qtgen t
  | fdct => exact Laws.RowMatch.fdct
  | quant t => exact Laws.RowMatch.quant t
  | dequant t => exact Laws.RowMatch.dequant t
  | idct => exact Laws.RowMatch.idct
  | xform t => exact Laws.RowMatch.xform t
  | ldblk p br bc => exact Laws.RowMatch.ldblk p br bc
  | stblk p br bc => exact Laws.RowMatch.stblk p br bc
  | cplane p t => exact Laws.RowMatch.cplane p t
  | split => exact Laws.RowMatch.split
  | merge => exact Laws.RowMatch.merge
  | compress => exact Laws.RowMatch.compress

theorem PSel.code_lt (p : PSel) : p.code < 4 := by cases p <;> decide

theorem TSel.code_lt (t : TSel) : t.code < 2 := by cases t <;> decide

/-- The fields of an encoded command are its operands (rules R71 and R76). -/
theorem commandOf_encode {i : Instr} (h : i.wellFormed = true) :
    commandOf (Laws.RowMatch.codeOf i) (encode i) = some i := by
  cases i with
  | nop | fdct | idct | split | merge | compress => rfl
  | qtgen t | quant t | dequant t | xform t => cases t <;> rfl
  | cplane p t => cases p <;> cases t <;> rfl
  | ldblk p br bc | stblk p br bc =>
    obtain ⟨hbr, hbc⟩ : br < 4096 ∧ bc < 4096 := by simpa [Instr.wellFormed] using h
    simp only [Laws.RowMatch.codeOf, commandOf, encode]
    rw [pselField_packWord p (by omega) (by omega) hbc hbr,
      browField_packWord (by omega) p.code_lt (by omega) hbc hbr,
      bcolField_packWord (by omega) p.code_lt (by omega) hbc hbr]

/-- Settles O1: the encoded word selects the row at its `OPC`, and its fields are the operands. -/
theorem decodeOfEncodeIsTheCommand : Obligations.DecodeOfEncodeIsTheCommand := by
  intro i hwf
  obtain ⟨hopc, r, hrow, hsel⟩ := encode_selects i hwf
  rw [decode_row (hopc ▸ hrow) (hopc ▸ commandOf_encode hwf)]
  exact if_pos hsel

/-! ### Encoding a decoded word -/

theorem pselField_code (w : Word) : (pselField w).code = (w.extractLsb' 5 2).toNat := by
  have hlt := (w.extractLsb' 5 2).isLt
  unfold pselField
  generalize (w.extractLsb' 5 2).toNat = n at hlt ⊢
  interval_cases n <;> rfl

theorem tselField_code (w : Word) : (tselField w).code = (w.extractLsb' 7 1).toNat := by
  have hlt := (w.extractLsb' 7 1).isLt
  unfold tselField
  generalize (w.extractLsb' 7 1).toNat = n at hlt ⊢
  interval_cases n <;> rfl

/-- A word is the packing of its five fields (rule R71). -/
theorem packWord_fields (w : Word) :
    packWord (opcField w) (pselField w).code (tselField w).code (bcolField w) (browField w) = w := by
  apply BitVec.eq_of_toNat_eq
  rw [packWord_toNat (opcField_lt w) (PSel.code_lt _) (TSel.code_lt _) (bcolField_lt w) (browField_lt w),
    pselField_code, tselField_code, opcField, bcolField, browField]
  simp only [BitVec.extractLsb'_toNat, Nat.shiftRight_eq_div_pow]
  have := w.isLt
  omega

section
variable {r : CommandRow} {w : Word} {opc : Nat} (h : r.Selects w) (hmatch : r.matchWord.toNat < 32)
  (hopc : opcField w = opc)
include h hmatch

/-- Outside `OPC`, a field that the row's mask covers is zero in a word the row selects. -/
theorem CommandRow.Selects.unused_eq_zero {start len : Nat} (hstart : 5 ≤ start)
    (hmask : r.mask.extractLsb' start len = BitVec.allOnes len) : (w.extractLsb' start len).toNat = 0 := by
  have hsmall : r.matchWord.toNat < 2 ^ start := hmatch.trans_le (Nat.pow_le_pow_right (n := 2) (by omega) hstart)
  rw [h.field_eq hmask, BitVec.extractLsb'_toNat, Nat.shiftRight_eq_div_pow, Nat.div_eq_of_lt hsmall, Nat.zero_mod]

theorem CommandRow.Selects.pselField_code_eq_zero (hmask : r.mask.extractLsb' 5 2 = BitVec.allOnes 2) :
    (pselField w).code = 0 :=
  (pselField_code w).trans (h.unused_eq_zero hmatch (by omega) hmask)

theorem CommandRow.Selects.tselField_code_eq_zero (hmask : r.mask.extractLsb' 7 1 = BitVec.allOnes 1) :
    (tselField w).code = 0 :=
  (tselField_code w).trans (h.unused_eq_zero hmatch (by omega) hmask)

theorem CommandRow.Selects.bcolField_eq_zero (hmask : r.mask.extractLsb' 8 12 = BitVec.allOnes 12) :
    bcolField w = 0 :=
  h.unused_eq_zero hmatch (by omega) hmask

theorem CommandRow.Selects.browField_eq_zero (hmask : r.mask.extractLsb' 20 12 = BitVec.allOnes 12) :
    browField w = 0 :=
  h.unused_eq_zero hmatch (by omega) hmask

include hopc

/-- A word selected by a row with no operand. -/
theorem CommandRow.Selects.packWord_opc (hmask : r.mask = 0xFFFFFFFF) : packWord opc 0 0 0 0 = w := by
  conv_rhs => rw [← packWord_fields w, hopc, h.pselField_code_eq_zero hmatch (by rw [hmask]; rfl),
    h.tselField_code_eq_zero hmatch (by rw [hmask]; rfl), h.bcolField_eq_zero hmatch (by rw [hmask]; rfl),
    h.browField_eq_zero hmatch (by rw [hmask]; rfl)]

/-- A word selected by a row with a table operand. -/
theorem CommandRow.Selects.packWord_tsel (hmask : r.mask = 0xFFFFFF7F) :
    packWord opc 0 (tselField w).code 0 0 = w := by
  conv_rhs => rw [← packWord_fields w, hopc, h.pselField_code_eq_zero hmatch (by rw [hmask]; rfl),
    h.bcolField_eq_zero hmatch (by rw [hmask]; rfl), h.browField_eq_zero hmatch (by rw [hmask]; rfl)]

/-- A word selected by a row with a plane and a table operand. -/
theorem CommandRow.Selects.packWord_psel_tsel (hmask : r.mask = 0xFFFFFF1F) :
    packWord opc (pselField w).code (tselField w).code 0 0 = w := by
  conv_rhs => rw [← packWord_fields w, hopc, h.bcolField_eq_zero hmatch (by rw [hmask]; rfl),
    h.browField_eq_zero hmatch (by rw [hmask]; rfl)]

/-- A word selected by a row with a plane operand and a block position. -/
theorem CommandRow.Selects.packWord_psel_block (hmask : r.mask = 0x0000009F) :
    packWord opc (pselField w).code 0 (bcolField w) (browField w) = w := by
  conv_rhs => rw [← packWord_fields w, hopc, h.tselField_code_eq_zero hmatch (by rw [hmask]; rfl)]

end

/-- The command read off a word is the one its `OPC` stands for, and its block indices are 12-bit fields (rule R75). -/
theorem commandOf_some {opc : Nat} {w : Word} {i : Instr} (h : commandOf opc w = some i) :
    opc = Laws.RowMatch.codeOf i ∧ i.wellFormed = true := by
  unfold commandOf at h
  split at h <;> cases h
  all_goals exact ⟨rfl, by simp [Instr.wellFormed, bcolField_lt, browField_lt]⟩

/-- Encoding the command a word's row gives returns the word: the fields the command does not use are zero. -/
theorem encode_commandOf {w : Word} {i : Instr} {r : CommandRow} (hopc : opcField w = Laws.RowMatch.codeOf i)
    (hrow : commandRows[Laws.RowMatch.codeOf i]? = some r) (hsel : r.Selects w)
    (hi : commandOf (Laws.RowMatch.codeOf i) w = some i) : encode i = w := by
  cases i with
  | nop | fdct | idct | split | merge | compress =>
    cases hrow
    exact hsel.packWord_opc (by decide) hopc rfl
  | qtgen | quant | dequant | xform =>
    cases hrow
    cases hi
    exact hsel.packWord_tsel (by decide) hopc rfl
  | cplane =>
    cases hrow
    cases hi
    exact hsel.packWord_psel_tsel (by decide) hopc rfl
  | ldblk | stblk =>
    cases hrow
    cases hi
    exact hsel.packWord_psel_block (by decide) hopc rfl

/-- Settles O2: a word that decodes is selected by the row at its `OPC`. -/
theorem encodeOfDecodeIsTheWord : Obligations.EncodeOfDecodeIsTheWord := by
  intro w i hdecode
  obtain ⟨herr, -⟩ | ⟨herr, -⟩ | ⟨r, j, hok, -, hrow, hsel, hj⟩ := decode_cases w
  · rw [herr] at hdecode
    cases hdecode
  · rw [herr] at hdecode
    cases hdecode
  · obtain rfl : j = i := Except.ok.inj (hok.symm.trans hdecode)
    obtain ⟨hopc, hwf⟩ := commandOf_some hj
    rw [hopc] at hrow hj
    exact ⟨encode_commandOf hopc hrow hsel hj, hwf⟩

/-- The decoder's errors are `E_OPC` and `E_FIELD` (rules R202 and R203). -/
theorem decode_error {w : Word} {e : ErrCode} (h : decode w = .error e) : e = .opc ∨ e = .field := by
  obtain ⟨hw, -⟩ | ⟨hw, -⟩ | ⟨r, i, hw, -⟩ := decode_cases w <;> rw [hw] at h <;> cases h
  · exact .inl rfl
  · exact .inr rfl

end Sys2Proof

namespace Sys2Proof.Machine

/-! ### The completion of an illegal word -/

/-- With nothing scheduled the unit has its turn. -/
theorem step_unscheduled {s : State} (h : s.schedule = []) : step s = unitStep s := by
  unfold step
  rw [h]

/-- A scheduled turn of the unit is taken. -/
theorem step_unit {s : State} {rest : List Event} (h : s.schedule = .unit :: rest) :
    step s = unitStep { s with schedule := rest } := by
  unfold step
  rw [h]
  rfl

/-- Settles O6: the unit's turn takes the decode error, by `unitStep_illegal`. -/
theorem illegalWordOnlyLatchesItsError : Obligations.IllegalWordOnlyLatchesItsError := by
  intro s e hb hd
  refine ⟨?_, fun hs => (step_unscheduled hs).trans (unitStep_illegal hb hd),
    fun rest hs => (step_unit hs).trans (unitStep_illegal (s := { s with schedule := rest }) hb hd)⟩
  obtain rfl | rfl := decode_error hd
  · exact .inl ⟨rfl, rfl⟩
  · exact .inr ⟨rfl, rfl⟩

end Sys2Proof.Machine

/-! PROOFS. Family 40_qtable: the table that QTGEN builds in direct form, when the table commands complete and when they
raise, and the quantizer and dequantizer as integers (40_qtable.md). -/

namespace Sys2Proof.Machine

/-! ### When the table commands complete and when they raise -/

theorem effQtgen_eq_error {s : State} (h : 2 + s.cfg.extraPresets.length ≤ s.preset) (t : TSel) :
    effQtgen t s = .error .preset := by
  unfold effQtgen
  rw [presetOf_none h]

theorem effQtgen_eq_ok {s : State} {p : Preset} (h : presetOf s.cfg s.preset = some p) (t : TSel) :
    effQtgen t s = .ok (buildFrom p t s) := by
  unfold effQtgen
  rw [h]

section
variable {s : State} {t : TSel}

theorem effQuant_eq_error (h : s.valid t = false) : effQuant t s = .error .noTable := if_neg (by simp [h])

theorem effDequant_eq_error (h : s.valid t = false) : effDequant t s = .error .noTable := if_neg (by simp [h])

theorem effXform_eq_error (h : s.valid t = false) : effXform t s = .error .noTable := if_neg (by simp [h])

theorem effQuant_eq_ok (h : s.valid t = true) :
    effQuant t s = .ok { s with blk := quantBlock (s.table t) s.blk } := if_pos h

theorem effDequant_eq_ok (h : s.valid t = true) :
    effDequant t s = .ok { s with blk := dequantBlock (s.table t) s.blk } := if_pos h

end

/-- Settles O13: each effect is its error, and taking an error with none latched is `raises_of`. -/
theorem tableCommandsRaiseByRule : Obligations.TableCommandsRaiseByRule := fun _ t he =>
  ⟨fun hp => raises_of (i := .qtgen t) he (effQtgen_eq_error hp t),
   fun hv => ⟨raises_of (i := .quant t) he (effQuant_eq_error hv),
    raises_of (i := .dequant t) he (effDequant_eq_error hv), raises_of (i := .xform t) he (effXform_eq_error hv)⟩⟩

/-! ### The table that QTGEN builds -/

/-- The scale factor S(q) of rule R92 with the reference constants. -/
def referenceScale (q : Nat) : Nat := if q < 50 then 5000 / q else 200 - 2 * q

/-- S(q) falls on each branch, and from 102 to 100 across the seam between them. -/
theorem referenceScale_antitone {q q' : Nat} (hq : 0 < q) (h : q ≤ q') : referenceScale q' ≤ referenceScale q := by
  unfold referenceScale
  split_ifs with h' h50
  · exact Nat.div_le_div_left h hq
  · omega
  · have : 5000 / 49 ≤ 5000 / q := Nat.div_le_div_left (by omega) hq
    omega
  · omega

theorem effectiveQuality_eq (quality : Nat) : effectiveQuality quality = max 1 (min 100 quality) := by
  unfold effectiveQuality clampNat
  split_ifs <;> omega

/-- Entry i of a built table in direct form (rules R96 to R98). -/
theorem generatedTable_toNat (p : Preset) (t : TSel) (quality : Nat) (i : Fin 64) :
    (generatedTable referenceNum p t quality)[i].toNat =
      8 * max 1 (min 255 (((presetMatrix p t)[i] * referenceScale (max 1 (min 100 quality)) + 50) / 100)) := by
  have hi : (generatedTable referenceNum p t quality)[i] =
      tableEntry referenceNum (presetMatrix p t)[i] (max 1 (min 100 quality)) := by
    simp [generatedTable, effectiveQuality_eq]
  rw [hi, tableEntry_reference _ (by omega), referenceScale]

theorem generatedTable_antitone (p : Preset) (t : TSel) (i : Fin 64) {q q' : Nat} (h : q ≤ q') :
    (generatedTable referenceNum p t q')[i].toNat ≤ (generatedTable referenceNum p t q)[i].toNat := by
  have hs := referenceScale_antitone (q := max 1 (min 100 q)) (q' := max 1 (min 100 q')) (by omega) (by omega)
  rw [generatedTable_toNat, generatedTable_toNat]
  gcongr

/-- From quality 100 on the scale is 0, and the step is the least one. -/
theorem generatedTable_of_quality_ge {q : Nat} (h : 100 ≤ q) (p : Preset) (t : TSel) (i : Fin 64) :
    (generatedTable referenceNum p t q)[i] = 8 := by
  apply BitVec.eq_of_toNat_eq
  have hs : referenceScale (max 1 100) = 0 := rfl
  rw [generatedTable_toNat, min_eq_left h, hs, mul_zero]
  rfl

/-- At quality 50 the scale is 100 percent. -/
theorem generatedTable_at_50 {p : Preset} {t : TSel} {i : Fin 64} (h : RomEntry (presetMatrix p t)[i]) :
    (generatedTable referenceNum p t 50)[i].toNat = 8 * (presetMatrix p t)[i] := by
  have hs : referenceScale (max 1 (min 100 50)) = 100 := rfl
  rw [generatedTable_toNat, hs]
  omega

theorem generatedTable_congr (k : Num) (p : Preset) (t : TSel) {q q' : Nat}
    (h : max 1 (min 100 q) = max 1 (min 100 q')) : generatedTable k p t q = generatedTable k p t q' := by
  unfold generatedTable
  rw [effectiveQuality_eq, effectiveQuality_eq, h]

/-- Settles O18: the effect is `buildFrom`, whose table and frame are known, and the entry is `generatedTable_toNat`. -/
theorem qtgenBuildsTheScaledTable : Obligations.QtgenBuildsTheScaledTable := by
  intro s t hn hp
  obtain ⟨p, hp⟩ := presetOf_some hp
  obtain ⟨hblk, hmem, hnoop, hdconly⟩ := buildFrom_keeps p t s
  have hquiet := quiet_buildFrom p t s
  refine ⟨p, (buildFrom p t s).finish, hp, ?_, ⟨rfl, rfl⟩, ?_, fun i => ?_, fun v hv => ?_, hblk, fun m => ?_,
    ⟨hquiet.err, hquiet.ecode⟩, hnoop, hdconly, hquiet.hostSide⟩
  · rw [exec_eq_complete, effectOf, effQtgen_eq_ok hp, complete_ok]
  · rw [State.finish_valid, (buildFrom_table p t t s).2, if_pos rfl]
  · rw [State.finish_table, (buildFrom_table p t t s).1, if_pos rfl, hn, generatedTable_toNat]
    cases t <;> rfl
  · rw [State.finish_table, State.finish_valid, (buildFrom_table p t v s).1, (buildFrom_table p t v s).2, if_neg hv,
      if_neg hv]
    exact ⟨rfl, rfl⟩
  · rw [State.finish_mem, hmem]

/-- Settles O19: each property is read off the direct form of the entry. -/
theorem builtTableProperties : Obligations.BuiltTableProperties := fun p t i =>
  ⟨fun q => builtEntry_generatedTable p t q i, fun _ _ h => generatedTable_antitone p t i h,
   fun _ h => generatedTable_of_quality_ge h p t i, generatedTable_at_50, fun _ _ h => generatedTable_congr _ p t h⟩

/-! ### The quantizer -/

theorem quantize_of_pos (c : Word) {T : Entry} (hT : 0 < T.toNat) : quantize c T = sext16 (quotient c T.toNat) :=
  if_neg (by rintro rfl; exact absurd hT (by decide))

theorem quotient_of_nonneg {c : Word} (h : 0 ≤ c.toInt) (T : Nat) :
    quotient c T = (c.toInt + (T : Int) / 2) / T := by
  unfold quotient
  rw [if_pos h]
  push_cast
  rw [abs_of_nonneg h]

theorem quotient_of_neg {c : Word} (h : c.toInt < 0) (T : Nat) :
    quotient c T = -((-c.toInt + (T : Int) / 2) / T) := by
  unfold quotient
  rw [if_neg (by omega)]
  push_cast
  rw [abs_of_neg h]

/-- The quotient is the rounded magnitude with the sign of the element; where the element is 0 so is the magnitude. -/
theorem quotient_eq_sign_mul (c : Word) {T : Nat} (hT : 0 < T) :
    quotient c T = c.toInt.sign * ((c.toInt.natAbs + T / 2) / T : Nat) := by
  unfold quotient
  obtain h | h | h := lt_trichotomy c.toInt 0
  · rw [if_neg (by omega), Int.sign_eq_neg_one_of_neg h, neg_one_mul]
  · rw [if_pos (by omega), h, Int.sign_zero, zero_mul, Int.natAbs_zero, zero_add, Nat.div_eq_of_lt (by omega),
      Nat.cast_zero]
  · rw [if_pos (by omega), Int.sign_eq_one_of_pos h, one_mul]

theorem quotient_neg {c : Word} (hc : c ≠ 0x80000000) {T : Nat} (hT : 0 < T) :
    quotient (-c) T = -quotient c T := by
  rw [quotient_eq_sign_mul _ hT, quotient_eq_sign_mul _ hT, BitVec.toInt_neg_of_ne_intMin hc, Int.sign_neg,
    Int.natAbs_neg, neg_mul]

theorem natAbs_quotient (c : Word) (T : Nat) : (quotient c T).natAbs = (c.toInt.natAbs + T / 2) / T := by
  unfold quotient
  split_ifs
  · rw [Int.natAbs_natCast]
  · rw [Int.natAbs_neg, Int.natAbs_natCast]

/-- The quotient fits 16 bits, its negation too, where the magnitude it is rounded from is below 32768 steps. -/
theorem natAbs_quotient_le {c : Word} {T : Nat} (h : c.toInt.natAbs + T / 2 < 32768 * T) :
    (quotient c T).natAbs ≤ 32767 := by
  rw [natAbs_quotient]
  exact Nat.le_of_lt_succ (Nat.div_lt_of_lt_mul (by omega))

theorem sext16_neg {z : Int} (h : z.natAbs ≤ 32767) : sext16 (-z) = -sext16 z := by
  have hz : (sext16 z).toInt = z := sext16_toInt (by omega) (by omega)
  apply BitVec.eq_of_toInt_eq
  rw [sext16_toInt (by omega) (by omega), BitVec.toInt_neg, hz, Int.bmod_eq_of_le (by omega) (by omega)]

/-- Settles O21: the quotient is odd, and so is the sign extension of a quotient that fits. -/
theorem quantizeIsOdd : Obligations.QuantizeIsOdd := by
  intro c T hT hc hfit
  rw [quantize_of_pos _ hT, quantize_of_pos _ hT, quotient_neg hc hT, sext16_neg (natAbs_quotient_le hfit)]

/-- Settles O20: QUANT writes `quantBlock` and nothing else, and each element is the sign-extended quotient. -/
theorem quantRoundsToNearestTiesAway : Obligations.QuantRoundsToNearestTiesAway := by
  intro s t hv
  refine ⟨quantBlock (s.table t) s.blk, ?_, fun i hT => ?_⟩
  · rw [exec_eq_complete, effectOf, effQuant_eq_ok hv]
    rfl
  · have hi : (quantBlock (s.table t) s.blk)[i] = sext16 (quotient s.blk[i] (s.table t)[i].toNat) := by
      rw [← quantize_of_pos _ hT]
      simp [quantBlock]
    rw [hi]
    exact ⟨fun hc => congrArg sext16 (quotient_of_nonneg hc _), fun hc => congrArg sext16 (quotient_of_neg hc _)⟩

/-! ### The dequantizer -/

/-- The product modulo 2^32, as integers (rule R103). -/
theorem dequantize_eq_ofInt (q : Word) (T : Entry) : dequantize q T = BitVec.ofInt 32 (q.toInt * T.toNat) := by
  rw [BitVec.ofInt_mul, BitVec.ofInt_toInt, BitVec.ofInt_natCast, BitVec.ofNat_toNat, dequantize]

theorem dequantize_zero (T : Entry) : dequantize 0 T = 0 := BitVec.zero_mul

/-- Settles O23: DEQUANT writes `dequantBlock` and nothing else, and each element is the wrapped product. -/
theorem dequantMultipliesWithWrap : Obligations.DequantMultipliesWithWrap := by
  intro s t hv
  refine ⟨dequantBlock (s.table t) s.blk, ?_, fun i => ?_⟩
  · rw [exec_eq_complete, effectOf, effDequant_eq_ok hv]
    rfl
  · have hi : (dequantBlock (s.table t) s.blk)[i] = dequantize s.blk[i] (s.table t)[i] := by simp [dequantBlock]
    rw [hi]
    exact ⟨dequantize_eq_ofInt _ _, fun h0 => by rw [h0, dequantize_zero]⟩

/-! ### Quantize, then dequantize -/

/-- For an even divisor the quotient's multiple is nearest to the element, and farther from zero on a tie. -/
theorem quotient_mul_nearest (c : Word) {T : Nat} (hT : 0 < T) (heven : T % 2 = 0) :
    2 * (quotient c T * T - c.toInt).natAbs ≤ T ∧
    (2 * (quotient c T * T - c.toInt).natAbs = T → c.toInt.natAbs < (quotient c T * T).natAbs) := by
  have hle : (c.toInt.natAbs + T / 2) / T * T ≤ c.toInt.natAbs + T / 2 := Nat.div_mul_le_self _ _
  have hlt : c.toInt.natAbs + T / 2 < (c.toInt.natAbs + T / 2) / T * T + T := Nat.lt_div_mul_add hT
  unfold quotient
  generalize (c.toInt.natAbs + T / 2) / T = n at *
  split_ifs
  · rw [← Nat.cast_mul]
    omega
  · rw [neg_mul, ← Nat.cast_mul]
    omega

/-- Where the quotient and its multiple fit, neither the sign extension nor the product loses anything. -/
theorem dequantize_quantize_toInt {c : Word} {T : Entry} (hT : 0 < T.toNat) (hle : T.toNat ≤ 2040)
    (hfit : (quotient c T.toNat).natAbs ≤ 32767) :
    (dequantize (quantize c T) T).toInt = quotient c T.toNat * T.toNat := by
  have hprod : (quotient c T.toNat * T.toNat).natAbs ≤ 32767 * 2040 := by
    rw [Int.natAbs_mul, Int.natAbs_natCast]
    exact Nat.mul_le_mul hfit hle
  rw [dequantize_eq_ofInt, quantize_of_pos _ hT, sext16_toInt (by omega) (by omega), BitVec.toInt_ofInt,
    Int.bmod_eq_of_le (by omega) (by omega)]

/-- Settles O22: the round trip is the nearest multiple of `T`, which `quotient_mul_nearest` describes. -/
theorem quantizeDequantizeErrorIsHalfAStep : Obligations.QuantizeDequantizeErrorIsHalfAStep := by
  rintro c T ⟨hmod, hlo, hhi⟩ hc
  have hT : 0 < T.toNat := by omega
  obtain ⟨hnear, htie⟩ := quotient_mul_nearest c hT (by omega)
  rw [dequantize_quantize_toInt hT hhi (natAbs_quotient_le (by omega))]
  refine ⟨Dvd.intro_left _ rfl, hnear, htie, ?_⟩
  rintro rfl
  have h8 : (8 : Entry).toNat = 8 := rfl
  rw [h8] at hnear ⊢
  omega

end Sys2Proof.Machine

/-! PROOFS. Family 41_dct: the butterflies in direct form, on eight equal values and on a first value alone, the blocks
that FDCT and IDCT leave element by element, and XFORM as the run of its four commands (41_dct.md). -/

namespace Sys2Proof.Machine

/-! ### Octets -/

/-- Eight equal values. -/
def Oct.all (v : Word) : Oct := ⟨v, v, v, v, v, v, v, v⟩

/-- A first value alone, the others zero. -/
def Oct.dc (v : Word) : Oct := ⟨v, 0, 0, 0, 0, 0, 0, 0⟩

@[simp] theorem Oct.get_all (v : Word) (j : Nat) : (Oct.all v).get j = v := by
  unfold Oct.get
  split <;> rfl

@[simp] theorem Oct.get_dc_zero (v : Word) : (Oct.dc v).get 0 = v := rfl

theorem Oct.get_dc_of_pos (v : Word) {j : Nat} (h : 0 < j) : (Oct.dc v).get j = 0 := by
  unfold Oct.get
  split
  · omega
  all_goals rfl

@[simp] theorem Oct.get_zeros (j : Nat) : (Oct.dc 0).get j = 0 := Oct.get_all 0 j

theorem blockRow_replicate (v : Word) {r : Nat} (hr : r < 8) : blockRow (Vector.replicate 64 v) r = Oct.all v := by
  unfold blockRow Oct.all
  simp (disch := omega) only [blockElem_replicate]

/-! ### The commands that write `BLK` and `DCONLY` only -/

/-- The state after such a command, its completion included (rules R182 and R193). -/
def State.withBlk (s : State) (b : Block) (d : Bool) : State :=
  { s with blk := b, dconly := d, busy := false, done := true }

@[simp] theorem State.withBlk_cfg (s : State) (b : Block) (d : Bool) : (s.withBlk b d).cfg = s.cfg := rfl

@[simp] theorem State.withBlk_blk (s : State) (b : Block) (d : Bool) : (s.withBlk b d).blk = b := rfl

@[simp] theorem State.withBlk_dconly (s : State) (b : Block) (d : Bool) : (s.withBlk b d).dconly = d := rfl

@[simp] theorem State.withBlk_table (s : State) (b : Block) (d : Bool) (t : TSel) :
    (s.withBlk b d).table t = s.table t := by cases t <;> rfl

@[simp] theorem State.withBlk_valid (s : State) (b : Block) (d : Bool) (t : TSel) :
    (s.withBlk b d).valid t = s.valid t := by cases t <;> rfl

@[simp] theorem State.withBlk_withBlk (s : State) (b c : Block) (d e : Bool) :
    (s.withBlk b d).withBlk c e = s.withBlk c e := rfl

theorem completed_withBlk (s : State) (b : Block) (d : Bool) : Completed (s.withBlk b d) := ⟨rfl, rfl⟩

theorem noNewError_withBlk (s : State) (b : Block) (d : Bool) : NoNewError s (s.withBlk b d) := ⟨rfl, rfl⟩

theorem exec_fdct (s : State) : exec .fdct s = .next (s.withBlk (fdctBlock s.cfg.num s.blk) s.dconly) := by
  rw [exec_eq_complete, effectOf, effFdct, complete_ok, State.finish, State.withBlk]

theorem exec_idct (s : State) :
    exec .idct s = .next (s.withBlk (idctBlock s.cfg.num s.blk).1 (idctBlock s.cfg.num s.blk).2) := by
  rw [exec_eq_complete, effectOf, effIdct, complete_ok, State.finish, State.withBlk]

section
variable {s : State} {t : TSel} (h : s.valid t = true)
include h

theorem exec_quant : exec (.quant t) s = .next (s.withBlk (quantBlock (s.table t) s.blk) s.dconly) := by
  rw [exec_eq_complete, effectOf, effQuant_eq_ok h, complete_ok, State.finish, State.withBlk]

theorem exec_dequant : exec (.dequant t) s = .next (s.withBlk (dequantBlock (s.table t) s.blk) s.dconly) := by
  rw [exec_eq_complete, effectOf, effDequant_eq_ok h, complete_ok, State.finish, State.withBlk]

theorem exec_xform :
    exec (.xform t) s = .next (s.withBlk (transformBlock s.cfg.num (s.table t) s.blk).1
      (transformBlock s.cfg.num (s.table t) s.blk).2) := by
  rw [exec_eq_complete, effectOf, effXform, if_pos h, complete_ok, State.finish, State.withBlk]

end

/-- Settles O28: no command of the sequence writes a table or a valid bit, so each finds its own as they stood. -/
theorem xformEqualsItsFourCommands : Obligations.XformEqualsItsFourCommands := by
  intro s t hv
  refine ⟨_, exec_xform hv, completed_withBlk _ _ _, noNewError_withBlk _ _ _, ?_⟩
  simp [Pseudo.expand, runCommands, exec_fdct, exec_quant, exec_dequant, exec_idct, hv, transformBlock]

/-! ### The forward butterfly -/

/-- The scaling of outputs 0 and 4 of the forward butterfly, which the pass selects (rule R111). -/
def fwdScale (k : Num) (first : Bool) (a : Word) : Word :=
  if first then shl32 a k.pass1Bits else descale a k.pass1Bits

/-- Settles O24: under each output's scaling the two forms agree as polynomials over the ring of words. -/
theorem forwardButterflyIsTheDirectForm : Obligations.ForwardButterflyIsTheDirectForm := by
  intro k d n first
  refine ⟨congrArg (fwdScale k first) ?_, congrArg (fwdScale k first) ?_, congrArg (descale · n) ?_,
    congrArg (descale · n) ?_, congrArg (descale · n) ?_, congrArg (descale · n) ?_, congrArg (descale · n) ?_,
    congrArg (descale · n) ?_⟩ <;> ring

/-- The forward butterfly of eight equal values: the differences cancel, and only the sum of output 0 is left. -/
theorem fwdButterfly_all (k : Num) (v : Word) (n : Nat) (first : Bool) :
    fwdButterfly k (Oct.all v) n first =
      ⟨fwdScale k first (8 * v), descale 0 n, descale 0 n, descale 0 n, fwdScale k first 0, descale 0 n, descale 0 n,
       descale 0 n⟩ := by
  rw [fwdButterfly]
  congr 1
  case e_x0 | e_x4 => exact congrArg (fwdScale k first) (by simp only [Oct.all]; ring)
  all_goals exact congrArg (descale · n) (by simp only [Oct.all]; ring)

theorem descale_zero {n : Nat} (h0 : 1 ≤ n) (h1 : n ≤ 31) : descale 0 n = 0 := by
  interval_cases n <;> rfl

theorem fwdScale_reference_zero (first : Bool) : fwdScale referenceNum first 0 = 0 := by cases first <;> rfl

/-- With the reference constants what cancels is scaled to zero. -/
theorem fwdButterfly_reference_all (v : Word) {n : Nat} (h0 : 1 ≤ n) (h1 : n ≤ 31) (first : Bool) :
    fwdButterfly referenceNum (Oct.all v) n first = Oct.dc (fwdScale referenceNum first (8 * v)) := by
  rw [fwdButterfly_all, descale_zero h0 h1, fwdScale_reference_zero, Oct.dc]

/-- The two scalings of the DC element of a constant block: 256 v is descaled by 2, and at this magnitude neither the sum
nor the rounding add wraps (rule R114). -/
theorem fwdScale_twice {v : Word} (h : v.toInt.natAbs ≤ 512) :
    fwdScale referenceNum false (8 * fwdScale referenceNum true (8 * v)) = 64 * v := by
  have hsum : 8 * ((8 * v) <<< 2) + 2 = BitVec.ofInt 32 (256 * v.toInt + 2) := by
    rw [BitVec.ofInt_add, BitVec.ofInt_mul, BitVec.ofInt_toInt, BitVec.shiftLeft_eq_mul_twoPow]
    change 8 * (8 * v * 4) + 2 = 256 * v + 2
    ring
  have hprod : 64 * v = BitVec.ofInt 32 (64 * v.toInt) := by
    rw [BitVec.ofInt_mul, BitVec.ofInt_toInt]
    rfl
  change sar32 (8 * ((8 * v) <<< 2) + 2) 2 = 64 * v
  apply BitVec.eq_of_toInt_eq
  rw [sar32_toInt, hsum, hprod, BitVec.toInt_ofInt, BitVec.toInt_ofInt, Int.bmod_eq_of_le (by omega) (by omega),
    Int.bmod_eq_of_le (by omega) (by omega)]
  omega

/-! ### FDCT -/

/-- Element (v, c) of the transformed block (rules R112 to R114). -/
theorem blockElem_fdctBlock (k : Num) (b : Block) {v c : Nat} (hv : v < 8) (hc : c < 8) :
    let row := fun r => fwdButterfly k (blockRow b r) (k.constBits - k.pass1Bits) true
    blockElem (fdctBlock k b) (8 * v + c) =
      (fwdButterfly k
        ⟨(row 0).get c, (row 1).get c, (row 2).get c, (row 3).get c,
         (row 4).get c, (row 5).get c, (row 6).get c, (row 7).get c⟩ (k.constBits + k.pass1Bits) false).get v := by
  rw [fdctBlock, fwdPass2, blockElem_ofCols _ hv hc, fwdPass1, blockCol_ofRows _ hc]

/-- Settles O25: the reference shifts are 13 - 2 and 13 + 2. -/
theorem fdctTransformsRowsThenColumns : Obligations.FdctTransformsRowsThenColumns := by
  intro s hnum
  refine ⟨fdctBlock referenceNum s.blk, ?_, fun v hv c hc => blockElem_fdctBlock referenceNum s.blk hv hc⟩
  rw [exec_fdct, hnum, State.withBlk]

/-- The rows of a constant block are equal, so each column of the first pass is constant too. -/
theorem blockElem_fdctBlock_replicate (v : Word) {r c : Nat} (hr : r < 8) (hc : c < 8) :
    blockElem (fdctBlock referenceNum (Vector.replicate 64 v)) (8 * r + c) =
      (Oct.dc (fwdScale referenceNum false (8 * (Oct.dc (fwdScale referenceNum true (8 * v))).get c))).get r := by
  rw [blockElem_fdctBlock _ _ hr hc, ← fwdButterfly_reference_all v (n := 11) (by omega) (by omega),
    ← fwdButterfly_reference_all _ (n := 15) (by omega) (by omega)]
  simp (disch := omega) only [blockRow_replicate]
  rfl

/-- Column 0 of the first pass is constant, which leaves nothing below row 0; its other columns are zero. -/
theorem fdctBlock_replicate_ac (v : Word) {i : Fin 64} (hi : 0 < i.val) :
    (fdctBlock referenceNum (Vector.replicate 64 v))[i] = 0 := by
  have helem := blockElem_fdctBlock_replicate v (r := i / 8) (c := i % 8) (by omega) (by omega)
  rw [show 8 * (i.val / 8) + i.val % 8 = i by omega, blockElem_eq_get _ i.isLt] at helem
  refine helem.trans ?_
  obtain hc | hc := Nat.eq_zero_or_pos (i.val % 8)
  · exact Oct.get_dc_of_pos _ (by omega)
  · rw [Oct.get_dc_of_pos _ hc, mul_zero, fwdScale_reference_zero, Oct.get_zeros]

/-- Settles O26: element (0, 0) is the twice-scaled sum, and every other element is scaled from a sum of zeros or cancels
in the second pass. -/
theorem fdctOfAConstantBlock : Obligations.FdctOfAConstantBlock := by
  intro s v hnum hv hblk
  refine ⟨fdctBlock referenceNum (Vector.replicate 64 v), ?_, ?_, fun i hi => fdctBlock_replicate_ac v hi⟩
  · rw [exec_fdct, hnum, hblk, State.withBlk]
  · have helem := blockElem_fdctBlock_replicate v (r := 0) (c := 0) (by omega) (by omega)
    rw [Oct.get_dc_zero, Oct.get_dc_zero, fwdScale_twice hv] at helem
    exact (blockElem_eq_get _ (by omega)).symm.trans helem

/-! ### The inverse butterfly and IDCT -/

/-- The inverse butterfly of a first value alone: all eight outputs are equal (rule R122). -/
theorem invButterfly_dc (k : Num) (x : Word) (n : Nat) :
    invButterfly k (Oct.dc x) n = Oct.all (descale (shl32 x k.constBits) n) := by
  simp [invButterfly, Oct.dc, Oct.all]

theorem idctBlock_of_acZero (k : Num) {b : Block} (h : AcZero b) : idctBlock k b = (idctFast k b, true) := if_pos h

theorem idctBlock_of_not_acZero (k : Num) {b : Block} (h : ¬ AcZero b) : idctBlock k b = (idctGeneral k b, false) :=
  if_neg h

theorem idctBlock_dconly (k : Num) (b : Block) : (idctBlock k b).2 = decide (AcZero b) := by
  by_cases h : AcZero b
  · rw [idctBlock_of_acZero k h, decide_eq_true h]
  · rw [idctBlock_of_not_acZero k h, decide_eq_false h]

/-- On either path every element is a level shift and clamp. -/
theorem idctBlock_eq_levelUp (k : Num) (b : Block) (i : Fin 64) : ∃ v, (idctBlock k b).1[i] = levelUp v := by
  by_cases h : AcZero b
  · exact ⟨_, by rw [idctBlock_of_acZero k h]; exact Vector.getElem_replicate _⟩
  · exact ⟨_, by rw [idctBlock_of_not_acZero k h]; exact Vector.getElem_ofFn _⟩

theorem idctBlock_toInt_mem (k : Num) (b : Block) (i : Fin 64) :
    0 ≤ (idctBlock k b).1[i].toInt ∧ (idctBlock k b).1[i].toInt ≤ 255 := by
  obtain ⟨v, hv⟩ := idctBlock_eq_levelUp k b i
  rw [hv, levelUp_toInt]
  exact ⟨clamp8_nonneg _, clamp8_le _⟩

/-- Element (r, j) of the general path (rule R120). -/
theorem blockElem_idctGeneral (k : Num) (b : Block) {r j : Nat} (hr : r < 8) (hj : j < 8) :
    let col := fun c => invButterfly k (blockCol b c) (invShift1 k)
    blockElem (idctGeneral k b) (8 * r + j) =
      levelUp ((invButterfly k
        ⟨(col 0).get r, (col 1).get r, (col 2).get r, (col 3).get r,
         (col 4).get r, (col 5).get r, (col 6).get r, (col 7).get r⟩ (invShift2 k)).get j) := by
  have hrow := blockElem_ofRows (fun r => invButterfly k (blockRow (invPass1 k b) r) (invShift2 k)) hr hj
  rw [blockElem_eq_get _ (by omega)] at hrow
  rw [idctGeneral, blockElem_ofFn _ (by omega)]
  refine congrArg levelUp (hrow.trans ?_)
  rw [invPass1, blockRow_ofCols _ hr]

theorem blockElem_of_acZero {b : Block} (h : AcZero b) {i : Nat} (h0 : 0 < i) (hi : i < 64) : blockElem b i = 0 :=
  (blockElem_eq_get b hi).trans (h ⟨i, hi⟩ h0)

/-- The columns of a DC-only block: column 0 holds its DC element, the others are zero. -/
theorem blockCol_zero_of_acZero {b : Block} (h : AcZero b) : blockCol b 0 = Oct.dc b[0] := by
  unfold blockCol Oct.dc
  simp (disch := omega) only [blockElem_of_acZero h]
  rw [blockElem_eq_get b (by omega)]

theorem blockCol_of_acZero {b : Block} (h : AcZero b) {c : Nat} (h0 : 0 < c) (hc : c < 8) :
    blockCol b c = Oct.dc 0 := by
  unfold blockCol Oct.dc
  simp (disch := omega) only [blockElem_of_acZero h]

/-- Rule R122 with the reference constants: the first pass leaves eight equal elements in column 0 and zeros beside it,
so each row is again a first value alone. -/
theorem idctGeneral_eq_idctFast {b : Block} (h : AcZero b) : idctGeneral referenceNum b = idctFast referenceNum b := by
  have hzero : descale (shl32 0 referenceNum.constBits) (invShift1 referenceNum) = 0 := rfl
  apply block_ext
  intro r hr j hj
  rw [blockElem_idctGeneral _ _ hr hj, idctFast, blockElem_replicate _ (by omega)]
  simp (disch := omega) only [blockCol_zero_of_acZero h, blockCol_of_acZero h, invButterfly_dc, Oct.get_all, hzero]
  rw [← Oct.dc, invButterfly_dc, Oct.get_all, dcSample]

theorem idctBlock_reference (b : Block) : (idctBlock referenceNum b).1 = idctGeneral referenceNum b := by
  by_cases h : AcZero b
  · rw [idctBlock_of_acZero _ h, idctGeneral_eq_idctFast h]
  · rw [idctBlock_of_not_acZero _ h]

/-- Settles O27: the direct form by the ring laws, the range and `DCONLY` on either path, and with the reference constants
the general path for every block. -/
theorem idctEqualsTheGeneralPath : Obligations.IdctEqualsTheGeneralPath := by
  refine ⟨fun k x n => ?_, fun s =>
    ⟨(idctBlock s.cfg.num s.blk).1, ?_, fun i => idctBlock_toInt_mem _ _ i, fun hnum => ?_⟩⟩
  · simp only [invButterfly]
    congr 1 <;> exact congrArg (descale · n) (by ring)
  · rw [exec_idct, idctBlock_dconly, State.withBlk]
  · rw [hnum]
    refine ⟨fun r hr j hj => ?_, fun h => ?_⟩
    · rw [idctBlock_reference]
      exact blockElem_idctGeneral _ _ hr hj
    · rw [idctBlock_of_acZero _ h]
      rfl

end Sys2Proof.Machine

/-! PROOFS. Family 42_colour: what the checks of SPLIT and MERGE raise, the colour transforms as integer formulas, and the
bytes that SPLIT and MERGE leave (42_colour.md). -/

namespace Sys2Proof.Machine

/-! ### What the checks of SPLIT and MERGE answer (rule R146)

`colourChecked_legal` is the case where all pass. -/

section
variable {s : State}

theorem colourChecked_eq_dim (h : s.imgW = 0 ∨ s.imgH = 0) : s.colourChecked = .error .dim := if_pos h

theorem colourChecked_eq_fmt (hw : s.imgW ≠ 0) (hh : s.imgH ≠ 0) (h : s.ch ≠ 3 ∨ s.subsamp = 7) :
    s.colourChecked = .error .fmt := by
  unfold State.colourChecked
  rw [if_neg (not_or.2 ⟨hw, hh⟩)]
  by_cases hch : s.ch = 3
  · rw [if_neg (not_not.2 hch), ratio_none (h.resolve_left (not_not.2 hch))]
  · rw [if_pos hch]

theorem colourChecked_eq_size (hw : s.imgW ≠ 0) (hh : s.imgH ≠ 0) (hch : s.ch = 3) (hsub : s.subsamp ≠ 7)
    (h : s.cfg.pixBytes < 3 * s.imgW * s.imgH ∨ s.cfg.planeBytes < s.imgW * s.imgH) :
    s.colourChecked = .error .size := by
  obtain ⟨r, hr⟩ := ratio_some hsub
  unfold State.colourChecked
  rw [if_neg (not_or.2 ⟨hw, hh⟩), if_neg (not_not.2 hch), hr]
  exact if_pos h

/-- What the checks raise both commands raise (rules R146 and R149). -/
theorem colourCommands_raise {e : ErrCode} (he : s.err = false) (h : s.colourChecked = .error e) :
    Raises .split s (ecodeOf e) ∧ Raises .merge s (ecodeOf e) := by
  have hsplit : effSplit s = .error e := by rw [effSplit, h]
  have hmerge : effMerge s = .error e := by rw [effMerge, h]
  exact ⟨raises_of (i := .split) he hsplit, raises_of (i := .merge) he hmerge⟩

end

/-- Settles O15: both commands make the one list of checks, and each clause is one of its errors. -/
theorem colourCommandsRaiseByRule : Obligations.ColourCommandsRaiseByRule := fun _ he =>
  ⟨fun h => colourCommands_raise he (colourChecked_eq_dim h),
   fun hw hh h => colourCommands_raise he (colourChecked_eq_fmt hw hh h),
   fun hw hh hch hsub h => colourCommands_raise he (colourChecked_eq_size hw hh hch hsub h)⟩

/-! ### The colour transforms with the reference weights -/

/-- A triple is known from its three bytes as integers. -/
theorem Triple.eq_mk_of_toNat {p : Triple} {a b c : Byte} (ha : (p.fst.toNat : Int) = a.toNat)
    (hb : (p.snd.toNat : Int) = b.toNat) (hc : (p.trd.toNat : Int) = c.toNat) : p = ⟨a, b, c⟩ := by
  have byte_eq {x y : Byte} (h : (x.toNat : Int) = y.toNat) : x = y := BitVec.eq_of_toNat_eq (Int.ofNat.inj h)
  rw [← byte_eq ha, ← byte_eq hb, ← byte_eq hc]

theorem lumaOf_reference (r g b : Int) :
    lumaOf referenceNum r g b = (19595 * r + 38470 * g + 7471 * b + 32767) / 65536 := rfl

theorem cbOf_reference (r g b : Int) :
    cbOf referenceNum r g b = (-11059 * r - 21709 * g + 32768 * b + 8388608 + 32767) / 65536 := by
  simp only [cbOf, fdiv, referenceNum]
  omega

theorem crOf_reference (r g b : Int) :
    crOf referenceNum r g b = (32768 * r - 27439 * g - 5329 * b + 8388608 + 32767) / 65536 := by
  simp only [crOf, fdiv, referenceNum]
  omega

/-- Rule R144: the weights of each row add up so that no value leaves 0..255. -/
theorem forward_reference_mem {r g b : Int} (hr0 : 0 ≤ r) (hr : r ≤ 255) (hg0 : 0 ≤ g) (hg : g ≤ 255) (hb0 : 0 ≤ b)
    (hb : b ≤ 255) :
    (0 ≤ lumaOf referenceNum r g b ∧ lumaOf referenceNum r g b ≤ 255) ∧
    (0 ≤ cbOf referenceNum r g b ∧ cbOf referenceNum r g b ≤ 255) ∧
    (0 ≤ crOf referenceNum r g b ∧ crOf referenceNum r g b ≤ 255) := by
  rw [lumaOf_reference, cbOf_reference, crOf_reference]
  omega

/-- Rule R143: the three bytes are the three values, which need no clamp. -/
theorem rgb2ycc_reference_toNat (p : Triple) :
    ((rgb2ycc referenceNum p).fst.toNat : Int) = lumaOf referenceNum p.fst.toNat p.snd.toNat p.trd.toNat ∧
    ((rgb2ycc referenceNum p).snd.toNat : Int) = cbOf referenceNum p.fst.toNat p.snd.toNat p.trd.toNat ∧
    ((rgb2ycc referenceNum p).trd.toNat : Int) = crOf referenceNum p.fst.toNat p.snd.toNat p.trd.toNat := by
  have hr := p.fst.isLt
  have hg := p.snd.isLt
  have hb := p.trd.isLt
  obtain ⟨⟨hy0, hy⟩, ⟨hcb0, hcb⟩, hcr0, hcr⟩ := forward_reference_mem (r := p.fst.toNat) (g := p.snd.toNat)
    (b := p.trd.toNat) (by omega) (by omega) (by omega) (by omega) (by omega) (by omega)
  exact ⟨toByte_toNat hy0 hy, toByte_toNat hcb0 hcb, toByte_toNat hcr0 hcr⟩

theorem clamp8_eq_max_min (v : Int) : clamp8 v = max 0 (min 255 v) := by
  unfold clamp8 clamp
  split_ifs <;> omega

theorem redOf_reference (y v : Int) : redOf referenceNum y v = y + (91881 * v + 32768) / 65536 := rfl

theorem greenOf_reference (y u v : Int) :
    greenOf referenceNum y u v = y + (-22554 * u - 46802 * v + 32768) / 65536 := by
  simp only [greenOf, fdiv, referenceNum]
  omega

theorem blueOf_reference (y u : Int) : blueOf referenceNum y u = y + (116130 * u + 32768) / 65536 := rfl

/-- Rule R148: the three bytes are the three formulas, clamped. -/
theorem ycc2rgb_reference_toNat (p : Triple) :
    let y : Int := p.fst.toNat
    let u : Int := p.snd.toNat - 128
    let v : Int := p.trd.toNat - 128
    ((ycc2rgb referenceNum p).fst.toNat : Int) = max 0 (min 255 (y + (91881 * v + 32768) / 65536)) ∧
    ((ycc2rgb referenceNum p).snd.toNat : Int) = max 0 (min 255 (y + (-22554 * u - 46802 * v + 32768) / 65536)) ∧
    ((ycc2rgb referenceNum p).trd.toNat : Int) = max 0 (min 255 (y + (116130 * u + 32768) / 65536)) := by
  intro y u v
  rw [← redOf_reference, ← greenOf_reference, ← blueOf_reference, ← clamp8_eq_max_min, ← clamp8_eq_max_min,
    ← clamp8_eq_max_min]
  exact ⟨clampedByte_toNat _, clampedByte_toNat _, clampedByte_toNat _⟩

theorem rgb2ycc_reference_grey (v : Byte) : rgb2ycc referenceNum ⟨v, v, v⟩ = ⟨v, 128, 128⟩ := by
  obtain ⟨hy, hcb, hcr⟩ := rgb2ycc_reference_toNat ⟨v, v, v⟩
  simp only [lumaOf_reference, cbOf_reference, crOf_reference] at hy hcb hcr
  have h128 : ((128 : Byte).toNat : Int) = 128 := rfl
  exact Triple.eq_mk_of_toNat (by omega) (by omega) (by omega)

theorem ycc2rgb_reference_grey (v : Byte) : ycc2rgb referenceNum ⟨v, 128, 128⟩ = ⟨v, v, v⟩ := by
  have hv := v.isLt
  obtain ⟨hred, hgreen, hblue⟩ := ycc2rgb_reference_toNat ⟨v, 128, 128⟩
  have h128 : ((128 : Byte).toNat : Int) = 128 := rfl
  simp only [h128] at hred hgreen hblue
  exact Triple.eq_mk_of_toNat (by omega) (by omega) (by omega)

/-- Settles O36: the formulas and the range of the weights; grey is the formulas at three equal bytes. -/
theorem colourStaysInRangeAndGreyIsKept : Obligations.ColourStaysInRangeAndGreyIsKept := by
  refine ⟨fun p => ?_, ycc2rgb_reference_toNat, fun _ _ _ => forward_reference_mem,
    fun v => ⟨rgb2ycc_reference_grey v, ycc2rgb_reference_grey v⟩⟩
  obtain ⟨hy, hcb, hcr⟩ := rgb2ycc_reference_toNat p
  exact ⟨hy, hcb.trans (cbOf_reference _ _ _), hcr.trans (crOf_reference _ _ _)⟩

/-! ### The store loops of SPLIT and MERGE -/

/-- A loop that stores byte k at index k writes the first n bytes and leaves the others. -/
theorem Memory.read_writeMany_some (m : Memory) (n : Nat) (val : Nat → Byte) (a : Nat) :
    Memory.read (Memory.writeMany m n some val) a = if a < n then val a else Memory.read m a := by
  split
  case isTrue h => exact Memory.read_writeMany_same h rfl fun j _ hj => Option.some.inj hj
  case isFalse h => exact Memory.read_writeMany_other fun k hk hka => h (Option.some.inj hka ▸ hk)

section
variable {w h hor ver : Nat} (hhor : 0 < hor) (hver : 0 < ver)
include hhor hver

/-- After the chroma loop, cell (cx, cy) holds the value of its top-left pixel (rule R145). -/
theorem read_chromaStore_cell (m : Memory) (val : Nat → Byte) {cx cy : Nat} (hx : cx < cdiv w hor)
    (hy : cy < cdiv h ver) :
    Memory.read (Memory.writeMany m (w * h) (chromaStore w hor ver) val) (cy * cdiv w hor + cx) =
      val (cy * ver * w + cx * hor) := by
  have hxw : cx * hor < w := (lt_cdiv_iff hhor).1 hx
  have hyh : cy * ver < h := (lt_cdiv_iff hver).1 hy
  exact Memory.read_writeMany_same (raster_lt hxw hyh) (chromaStore_at cy hx hhor hver) fun _ _ hj =>
    chromaStore_inj (Nat.zero_lt_of_lt hxw) hx hhor hj

/-- The chroma loop leaves the bytes beyond the chroma plane (rule R142). -/
theorem read_chromaStore_beyond (m : Memory) (val : Nat → Byte) {a : Nat} (ha : cdiv w hor * cdiv h ver ≤ a) :
    Memory.read (Memory.writeMany m (w * h) (chromaStore w hor ver) val) a = Memory.read m a :=
  Memory.read_writeMany_other fun _ hk hka => absurd (chromaStore_lt hhor hver hk hka) (Nat.not_lt.2 ha)

end

section
variable {s : State} {hor ver : Nat}

theorem colourLegal_ratio_pos (hl : ColourLegal s hor ver) : 0 < hor ∧ 0 < ver := by
  obtain ⟨-, -, -, hratio, -, -⟩ := hl
  exact ratioOf_pos hratio

/-- With legal checks SPLIT is its three store loops and completion. -/
theorem exec_split (hl : ColourLegal s hor ver) : exec .split s = .next (splitPlanes hor ver s).finish := by
  rw [exec_eq_complete, effectOf, effSplit, colourChecked_legal hl, complete_ok]

/-- With legal checks MERGE is its store loop and completion. -/
theorem exec_merge (hl : ColourLegal s hor ver) : exec .merge s = .next (mergePlanes hor ver s).finish := by
  rw [exec_eq_complete, effectOf, effMerge, colourChecked_legal hl, complete_ok]

end

section
variable (hor ver : Nat) {s : State}

/-- The luma plane after SPLIT (rule R146). -/
theorem splitPlanes_read_yp (a : Nat) :
    Memory.read (splitPlanes hor ver s).yp a =
      if a < s.imgW * s.imgH then (rgb2ycc s.cfg.num (pixelAt s.pix a)).fst else Memory.read s.yp a :=
  Memory.read_writeMany_some _ _ _ a

/-- Byte c of pixel n after MERGE (rule R149). -/
theorem mergePlanes_read_pix {n c : Nat} (hn : n < s.imgW * s.imgH) (hc : c < 3) :
    Memory.read (mergePlanes hor ver s).pix (3 * n + c) = (mergedPixel hor ver s n).get c := by
  have hdiv : (3 * n + c) / 3 = n := by omega
  have hmod : (3 * n + c) % 3 = c := by omega
  rw [mergePlanes, Memory.read_writeMany_some, if_pos (by omega), hdiv, hmod]

theorem mergePlanes_read_pix_beyond {a : Nat} (ha : 3 * (s.imgW * s.imgH) ≤ a) :
    Memory.read (mergePlanes hor ver s).pix a = Memory.read s.pix a := by
  rw [mergePlanes, Memory.read_writeMany_some, if_neg (Nat.not_lt.2 ha)]

/-- Pixel (x, y) after MERGE, from its luma sample and its cell's chroma pair (rule R147). -/
theorem mergedPixel_at {x : Nat} (y : Nat) (hx : x < s.imgW) :
    mergedPixel hor ver s (y * s.imgW + x) =
      ycc2rgb s.cfg.num
        ⟨Memory.read s.yp (y * s.imgW + x), Memory.read s.cbp (y / ver * cdiv s.imgW hor + x / hor),
         Memory.read s.crp (y / ver * cdiv s.imgW hor + x / hor)⟩ := by
  rw [mergedPixel, chromaLookup_at y hx]

end

/-! ### SPLIT and MERGE -/

/-- Settles O37: the luma loop stores every pixel's sample, the chroma loops one pair per cell. -/
theorem splitSamplesTheTopLeftPixelOfEachCell : Obligations.SplitSamplesTheTopLeftPixelOfEachCell := by
  intro s hor ver hl
  obtain ⟨hhor, hver⟩ := colourLegal_ratio_pos hl
  obtain ⟨hpix, hblk, htables, hnoop, hdconly⟩ := splitPlanes_keeps hor ver s
  have hq := quiet_splitPlanes hor ver s
  refine ⟨_, exec_split hl, ⟨rfl, rfl⟩, ⟨fun x hx y hy => ?_, fun cx hx cy hy => ⟨?_, ?_⟩, fun a ha => ?_,
    fun a ha => ⟨?_, ?_⟩⟩, hpix, hblk, htables, ⟨hq.err, hq.ecode⟩, hnoop, hdconly, hq.hostSide⟩
  · exact (splitPlanes_read_yp hor ver _).trans (if_pos (raster_lt hx hy))
  · exact read_chromaStore_cell hhor hver _ _ hx hy
  · exact read_chromaStore_cell hhor hver _ _ hx hy
  · exact (splitPlanes_read_yp hor ver a).trans (if_neg (Nat.not_lt.2 ha))
  · exact read_chromaStore_beyond hhor hver _ _ ha
  · exact read_chromaStore_beyond hhor hver _ _ ha

/-- Settles O38: the loop stores the three bytes of every pixel, and the pixel's cell lies in the chroma grid. -/
theorem mergeReplicatesTheChromaOfEachCell : Obligations.MergeReplicatesTheChromaOfEachCell := by
  intro s hor ver hl
  obtain ⟨hhor, hver⟩ := colourLegal_ratio_pos hl
  obtain ⟨hmem, hblk, htables, hnoop, hdconly⟩ := mergePlanes_keeps hor ver s
  have hq := quiet_mergePlanes hor ver s
  refine ⟨_, exec_merge hl, ⟨rfl, rfl⟩, ⟨fun x hx y hy => ?_, fun x hx y hy => ?_, fun a ha => ?_⟩,
    hmem .y nofun, hmem .cb nofun, hmem .cr nofun, hblk, htables, ⟨hq.err, hq.ecode⟩, hnoop, hdconly, hq.hostSide⟩
  · have hbyte {c : Nat} (hc : c < 3) := mergePlanes_read_pix hor ver (raster_lt hx hy) hc
    rw [mergedPixel_at hor ver y hx] at hbyte
    exact ⟨hbyte (c := 0) (by omega), hbyte (c := 1) (by omega), hbyte (c := 2) (by omega)⟩
  · exact raster_lt (div_lt_cdiv hhor hx) (div_lt_cdiv hver hy)
  · exact mergePlanes_read_pix_beyond hor ver ha

end Sys2Proof.Machine

/-! PROOFS. Family 43_tiler: that no step stores outside a memory, what the checks of LDBLK, STBLK and CPLANE raise, the
gathered and the written-back tile, and CPLANE as the run of its tiles in any order (43_tiler.md). -/

namespace Sys2Proof.Machine

/-! ### Stores inside a memory's capacity -/

/-- What `MemoriesOk` says of one memory of capacity `c`. -/
abbrev Memory.Inside (m : Memory) (c : Nat) : Prop := Memory.wf m ∧ Memory.Within m c

/-- A store loop whose addresses are below the capacity keeps a memory canonical and inside it. -/
theorem Memory.writeMany_inside {m : Memory} {c n : Nat} {addr : Nat → Option Nat}
    (hm : Memory.Inside m c) (ha : ∀ k < n, ∀ a, addr k = some a → a < c) (val : Nat → Byte) :
    Memory.Inside (Memory.writeMany m n addr val) c :=
  ⟨Memory.wf_writeMany hm.1 n addr val, Memory.within_writeMany hm.2 ha val⟩

/-- Storing byte k at index k, as far as index n, needs a capacity of n. -/
theorem Memory.writeMany_some_inside {m : Memory} {c n : Nat} (hm : Memory.Inside m c) (hn : n ≤ c)
    (val : Nat → Byte) :
    Memory.Inside (Memory.writeMany m n some val) c :=
  Memory.writeMany_inside hm (fun _ hk _ ha => Option.some.inj ha ▸ hk.trans_le hn) val

/-- A block is written back inside its plane (rules R164 and R170). -/
theorem scatter_inside {m : Memory} {c w h : Nat} (hm : Memory.Inside m c) (hc : w * h ≤ c)
    (br bc : Nat) (b : Block) :
    Memory.Inside (scatter m w h br bc b) c :=
  Memory.writeMany_inside hm (fun _ _ _ ha => (scatterAddr_lt ha).trans_le hc) _

/-- What every block keeps, the loop of CPLANE keeps. -/
theorem planeLoop_keeps {P : PlaneRun → Prop} {k : Num} {t : Table} {w h : Nat} {r : PlaneRun}
    (hblock : ∀ br bc r, P r → P (planeBlock k t w h br bc r)) (hr : P r) : P (planeLoop k t w h r) :=
  List.foldlRecOn _ _ hr fun r hr _ _ => hblock _ _ r hr

theorem planeLoop_inside {c w h : Nat} {r : PlaneRun} (hr : Memory.Inside r.mem c) (hc : w * h ≤ c)
    (k : Num) (t : Table) :
    Memory.Inside (planeLoop k t w h r).mem c :=
  planeLoop_keeps (P := fun r => Memory.Inside r.mem c)
    (fun br bc _ hr => scatter_inside hr hc br bc _) hr

/-! ### A quiet change keeps the frame size -/

theorem Quiet.imgW {s u : State} (h : Quiet s u) : u.imgW = s.imgW := by rw [State.imgW, State.imgW, h.width]

theorem Quiet.imgH {s u : State} (h : Quiet s u) : u.imgH = s.imgH := by rw [State.imgH, State.imgH, h.height]

/-! ### The operations that keep the memories inside their capacity -/

section
variable {s : State} (hs : MemoriesOk s)
include hs

theorem MemoriesOk.of_same {t : State} (hmem : ∀ p, t.mem p = s.mem p) (hcfg : t.cfg = s.cfg) : MemoriesOk t := by
  intro p
  rw [hmem, hcfg]
  exact hs p

theorem MemoriesOk.setMem {p : PSel} {m : Memory} (hm : Memory.Inside m (capacity s.cfg p)) :
    MemoriesOk (s.setMem p m) := by
  intro q
  rw [State.setMem_mem, State.setMem_cfg]
  split
  · subst q; exact hm
  · exact hs q

theorem MemoriesOk.finish : MemoriesOk s.finish := hs.of_same s.finish_mem s.finish_cfg

theorem MemoriesOk.noopWrite (b : Bool) : MemoriesOk { s with noop := b } :=
  hs.of_same (fun p => by cases p <;> rfl) rfl

theorem MemoriesOk.buildBoth (p : Preset) : MemoriesOk (buildBoth p s) :=
  hs.of_same (fun q => by simp [Machine.buildBoth, buildFrom]) (quiet_buildBoth p s).cfg

/-- CPLANE on a plane that its memory holds. -/
theorem MemoriesOk.compressPlane {p : PSel} {w h : Nat} (hc : w * h ≤ capacity s.cfg p) (t : TSel) :
    MemoriesOk (compressPlane p t w h s) := by
  intro q
  rw [(quiet_compressPlane p t w h s).cfg]
  by_cases hq : q = p
  · subst hq
    rw [compressPlane_mem]
    exact planeLoop_inside (hs q) hc _ _
  · obtain ⟨-, -, hmem⟩ := compressPlane_keeps p t w h s
    rw [hmem q hq]
    exact hs q

/-- SPLIT on a frame that a plane memory holds: the chroma planes are no larger than the luma plane. -/
theorem MemoriesOk.splitPlanes {hor ver : Nat} (hhor : 0 < hor) (hver : 0 < ver)
    (hc : s.imgW * s.imgH ≤ s.cfg.planeBytes) : MemoriesOk (splitPlanes hor ver s) := by
  have hchroma : ∀ k < s.imgW * s.imgH, ∀ a, chromaStore s.imgW hor ver k = some a → a < s.cfg.planeBytes :=
    fun k hk a ha => (chromaStore_lt hhor hver hk ha).trans_le ((chroma_size_le hhor hver).trans hc)
  intro p
  cases p with
  | y => exact Memory.writeMany_some_inside (hs .y) hc _
  | cb => exact Memory.writeMany_inside (hs .cb) hchroma _
  | cr => exact Memory.writeMany_inside (hs .cr) hchroma _
  | pix => exact hs .pix

theorem MemoriesOk.mergePlanes {hor ver : Nat} (hc : 3 * (s.imgW * s.imgH) ≤ s.cfg.pixBytes) :
    MemoriesOk (mergePlanes hor ver s) := by
  intro p
  cases p with
  | pix => exact Memory.writeMany_some_inside (hs .pix) hc _
  | y => exact hs .y
  | cb => exact hs .cb
  | cr => exact hs .cr

end

/-- A plane compressed after quiet changes, on the capacity the frame began with. -/
theorem memoriesOk_compressPlane_of_quiet {s u : State} (h : Quiet s u ∧ MemoriesOk u) {p : PSel} {w ht : Nat}
    (hc : w * ht ≤ capacity s.cfg p) (t : TSel) :
    Quiet s (compressPlane p t w ht u) ∧ MemoriesOk (compressPlane p t w ht u) :=
  ⟨h.1.trans (quiet_compressPlane p t w ht u), h.2.compressPlane (h.1.cfg ▸ hc) t⟩

section
variable {s : State} (hs : MemoriesOk s)
include hs

/-- Every stage of the colour path runs with the configuration and the size of the frame it began with (rule R187). -/
theorem MemoriesOk.colourPath {hor ver : Nat} (hl : ColourLegal s hor ver) (p : Preset) :
    MemoriesOk (colourPath p hor ver s) := by
  obtain ⟨hhor, hver⟩ := colourLegal_ratio_pos hl
  obtain ⟨-, -, -, -, hpix, hplane⟩ := hl
  have hchroma : cdiv s.imgW hor * cdiv s.imgH ver ≤ s.cfg.planeBytes := (chroma_size_le hhor hver).trans hplane
  have qnoop : Quiet s { s with noop := false } := by constructor <;> rfl
  have hbuilt := And.intro ((qnoop.trans (quiet_splitPlanes hor ver _)).trans (quiet_buildBoth p _))
    (((hs.noopWrite false).splitPlanes hhor hver hplane).buildBoth p)
  have hy := memoriesOk_compressPlane_of_quiet hbuilt (p := .y) hplane .l
  have hcb := memoriesOk_compressPlane_of_quiet hy (p := .cb) hchroma .c
  obtain ⟨qcr, hcr⟩ := memoriesOk_compressPlane_of_quiet hcb (p := .cr) hchroma .c
  exact hcr.mergePlanes (by rw [qcr.imgW, qcr.imgH, qcr.cfg, ← mul_assoc]; exact hpix)

/-! ### The commands -/

theorem MemoriesOk.blkWrite (b : Block) (d : Bool) : MemoriesOk { s with blk := b, dconly := d } :=
  hs.of_same (fun p => by cases p <;> rfl) rfl

theorem effect_memoriesOk {i : Instr} {u : State} (h : effectOf i s = .ok u) : MemoriesOk u := by
  have hq := effect_quiet h
  cases i <;> simp only [effectOf] at h
  case nop => cases h; exact hs
  case qtgen t => obtain ⟨p, -, rfl⟩ := effQtgen_ok h; exact hs.of_same (buildFrom_keeps p t s).2.1 hq.cfg
  case fdct => cases h; exact hs.blkWrite _ s.dconly
  case quant t => obtain ⟨-, rfl⟩ := effQuant_ok h; exact hs.blkWrite _ s.dconly
  case dequant t => obtain ⟨-, rfl⟩ := effDequant_ok h; exact hs.blkWrite _ s.dconly
  case idct => cases h; exact hs.blkWrite _ _
  case xform t => obtain ⟨-, rfl⟩ := effXform_ok h; exact hs.blkWrite _ _
  case ldblk p br bc => obtain ⟨_, _, -, -, -, rfl⟩ := effLdblk_ok h; exact hs.blkWrite _ s.dconly
  case stblk p br bc =>
    obtain ⟨_, _, ⟨-, -, -, -, hc⟩, -, -, rfl⟩ := effStblk_ok h
    exact hs.setMem (scatter_inside (hs p) hc br bc _)
  case cplane p t =>
    obtain ⟨_, _, ⟨-, -, -, -, hc⟩, -, rfl⟩ := effCplane_ok h
    exact hs.compressPlane hc t
  case split =>
    obtain ⟨_, _, hl, rfl⟩ := effSplit_ok h
    obtain ⟨hhor, hver⟩ := colourLegal_ratio_pos hl
    obtain ⟨-, -, -, -, -, hc⟩ := hl
    exact hs.splitPlanes hhor hver hc
  case merge =>
    obtain ⟨_, _, ⟨-, -, -, -, hc, -⟩, rfl⟩ := effMerge_ok h
    exact hs.mergePlanes (mul_assoc 3 s.imgW s.imgH ▸ hc)
  case compress =>
    rcases effCompress_ok h with ⟨-, -, -, rfl⟩ | ⟨-, p, -, -, -, hc, rfl⟩ | ⟨p, hor, ver, hl, -, rfl⟩
    · exact hs.noopWrite true
    · exact ((hs.noopWrite false).buildBoth p).compressPlane (by rw [(quiet_buildBoth p _).cfg]; exact hc) .l
    · exact hs.colourPath hl p

theorem UnitChange.memoriesOk {t : State} (h : UnitChange s t) : MemoriesOk t := by
  cases h with
  | idle => exact hs
  | command h => exact (effect_memoriesOk hs h).finish
  | error e => exact hs.of_same (s.raiseError_mem e) (s.raiseError_cfg e)

/-! ### The resets -/

theorem MemoriesOk.loseBlk : MemoriesOk s.loseBlk := hs.of_same s.loseBlk_mem s.loseBlk_cfg

theorem MemoriesOk.loseTable (t : TSel) : MemoriesOk (s.loseTable t) :=
  hs.of_same (s.loseTable_mem t) (s.loseTable_cfg t)

theorem MemoriesOk.loseBytes (p : PSel) (n : Nat) : MemoriesOk (s.loseBytes p n) :=
  hs.setMem (Memory.writeMany_some_inside (hs p) (Nat.min_le_right _ _) _)

theorem MemoriesOk.loseMemory (p : PSel) : MemoriesOk (s.loseMemory p) := hs.loseBytes p _

theorem MemoriesOk.losePlane (p : PSel) : MemoriesOk (s.losePlane p) := by
  unfold State.losePlane
  split
  · exact hs.loseMemory p
  · exact hs.loseBytes p _

/-- The cells of a lost tile are those below the capacity. -/
theorem MemoriesOk.loseTile (p : PSel) (br bc : Nat) : MemoriesOk (s.loseTile p br bc) := by
  unfold State.loseTile
  split
  · exact hs.loseMemory p
  · exact hs.setMem (Memory.writeMany_inside (hs p)
      (fun k _ a ha => of_decide_eq_true (Option.filter_eq_some_iff.1 ha).2) _)

theorem MemoriesOk.loseColourPath : MemoriesOk s.loseColourPath :=
  (((hs.loseBytes .pix _).loseMemory .y).loseMemory .cb).loseMemory .cr

theorem MemoriesOk.loseWritesOf (i : Instr) : MemoriesOk (s.loseWritesOf i) := by
  cases i with
  | nop => exact hs
  | qtgen t => exact hs.loseTable t
  | fdct | quant | dequant | idct | xform | ldblk => exact hs.loseBlk
  | stblk p br bc => exact hs.loseTile p br bc
  | cplane p t => exact (hs.losePlane p).loseBlk
  | split => exact ((hs.losePlane .y).losePlane .cb).losePlane .cr
  | merge => exact hs.loseBytes .pix _
  | compress =>
    unfold State.loseWritesOf
    simp only
    split
    · exact hs
    · exact (((hs.losePlane .pix).loseTable .l).loseTable .c).loseBlk
    · exact ((hs.loseColourPath.loseTable .l).loseTable .c).loseBlk

theorem MemoriesOk.abandon : MemoriesOk s.abandon := by
  unfold State.abandon
  split
  · split
    · exact (hs.loseWritesOf _).of_same (fun p => by cases p <;> rfl) rfl
    · exact hs
  · exact hs

theorem MemoriesOk.softReset : MemoriesOk s.softReset :=
  hs.abandon.of_same s.abandon.resetRegisters_mem s.abandon.resetRegisters_cfg

theorem HostChange.memoriesOk {t : State} (h : HostChange s t) : MemoriesOk t := by
  cases h with
  | softReset => exact hs.softReset
  | status v =>
    rw [State.clearStatus_eq]
    exact hs.of_same (fun p => by cases p <;> rfl) rfl
  | mem m a v _ inside => exact hs.setMem ⟨Memory.wf_write (hs m).1 a v, Memory.within_write (hs m).2 inside v⟩
  | _ => exact hs.of_same (fun p => by cases p <;> rfl) rfl

end

theorem lostMemory_inside (c : Config) (draw : Nat) (p : PSel) :
    Memory.Inside (lostMemory c draw p) (capacity c p) :=
  Memory.writeMany_some_inside ⟨Memory.wf_nil, fun _ hc => absurd hc List.not_mem_nil⟩ le_rfl _

theorem memoriesOk_hardReset (s : State) : MemoriesOk s.hardReset := by
  intro p
  have hmem : s.hardReset.mem p = lostMemory s.cfg s.draw p := by cases p <;> rfl
  rw [hmem, State.hardReset_cfg]
  exact lostMemory_inside s.cfg s.draw p

/-- Settles O58: the stores of every command, of the host and of the resets are below the capacity of their memory. -/
theorem stepKeepsMemoriesInsideTheirCapacity : Obligations.StepKeepsMemoriesInsideTheirCapacity := fun _ _ hs h =>
  step_keeps (fun _ _ hs => hs.of_same (fun p => by cases p <;> rfl) rfl) (fun _ _ hs hc => hc.memoriesOk hs)
    (fun _ _ hs hc => hc.memoriesOk hs) (fun s _ => memoriesOk_hardReset s) hs h

/-! ### What the checks of the tiler commands answer (rule R165)

`planeChecked_legal` is the case where all pass. -/

section
variable {s : State} {p : PSel}

theorem planeChecked_eq_dim (h : s.imgW = 0 ∨ s.imgH = 0) : s.planeChecked p = .error .dim := if_pos h

theorem planeChecked_eq_fmt_of_ch (hw : s.imgW ≠ 0) (hh : s.imgH ≠ 0) (hp : p = .pix) (h0 : s.ch ≠ 0) (h1 : s.ch ≠ 1) :
    s.planeChecked p = .error .fmt := by
  unfold State.planeChecked
  rw [if_neg (not_or.2 ⟨hw, hh⟩), if_pos ⟨hp, not_or.2 ⟨h0, h1⟩⟩]

/-- At the reserved ratio a chroma plane has no size (rule R34). -/
theorem planeDims_chroma_reserved (hp : p = .cb ∨ p = .cr) (h : s.subsamp = 7) : s.planeDims p = none := by
  obtain rfl | rfl := hp <;> rw [State.planeDims, State.chromaDims, ratio_none h]

theorem planeChecked_eq_fmt_of_ratio (hw : s.imgW ≠ 0) (hh : s.imgH ≠ 0) (hp : p = .cb ∨ p = .cr) (h : s.subsamp = 7) :
    s.planeChecked p = .error .fmt := by
  have hpix : p ≠ .pix := by obtain rfl | rfl := hp <;> decide
  unfold State.planeChecked
  rw [if_neg (not_or.2 ⟨hw, hh⟩), if_neg fun hf => hpix hf.1, planeDims_chroma_reserved hp h]

theorem planeChecked_eq_size {w h : Nat} (hw : s.imgW ≠ 0) (hh : s.imgH ≠ 0) (hp : p = .pix → s.ch = 0 ∨ s.ch = 1)
    (hd : s.planeDims p = some (w, h)) (hc : capacity s.cfg p < w * h) : s.planeChecked p = .error .size := by
  unfold State.planeChecked
  rw [if_neg (not_or.2 ⟨hw, hh⟩), if_neg fun hf => hf.2 (hp hf.1), hd]
  exact if_pos hc

section
variable {e : ErrCode} (h : s.planeChecked p = .error e) (br bc : Nat) (t : TSel)
include h

theorem effLdblk_eq_error : effLdblk p br bc s = .error e := by rw [effLdblk, h]

theorem effStblk_eq_error : effStblk p br bc s = .error e := by rw [effStblk, h]

theorem effCplane_eq_error : effCplane p t s = .error e := by rw [effCplane, h]

/-- What the checks of the plane raise all three commands raise. -/
theorem tilerCommands_raise (he : s.err = false) :
    Raises (.ldblk p br bc) s (ecodeOf e) ∧ Raises (.stblk p br bc) s (ecodeOf e) ∧
      Raises (.cplane p t) s (ecodeOf e) :=
  ⟨raises_of (i := .ldblk p br bc) he (effLdblk_eq_error h br bc),
   raises_of (i := .stblk p br bc) he (effStblk_eq_error h br bc),
   raises_of (i := .cplane p t) he (effCplane_eq_error h t)⟩

end

section
variable {w h br bc : Nat} (hl : PlaneLegal s p w h)
include hl

theorem effLdblk_eq_range (hr : cdiv h 8 ≤ br ∨ cdiv w 8 ≤ bc) : effLdblk p br bc s = .error .range := by
  rw [effLdblk, planeChecked_legal hl]
  exact if_pos hr

theorem effStblk_eq_range (hr : cdiv h 8 ≤ br ∨ cdiv w 8 ≤ bc) : effStblk p br bc s = .error .range := by
  rw [effStblk, planeChecked_legal hl]
  exact if_pos hr

theorem effCplane_eq_noTable {t : TSel} (hv : s.valid t = false) : effCplane p t s = .error .noTable := by
  rw [effCplane, planeChecked_legal hl]
  exact if_neg (by simp [hv])

/-- With a legal geometry and a block inside the plane LDBLK is its gather and completion. -/
theorem exec_ldblk (hr : br < cdiv h 8) (hc : bc < cdiv w 8) :
    exec (.ldblk p br bc) s = .next (s.withBlk (gather (s.mem p) w h br bc) s.dconly) := by
  have heff : effLdblk p br bc s = .ok { s with blk := gather (s.mem p) w h br bc } := by
    rw [effLdblk, planeChecked_legal hl]
    exact if_neg (not_or.2 ⟨Nat.not_le.2 hr, Nat.not_le.2 hc⟩)
  rw [exec_eq_complete, effectOf, heff, complete_ok, State.finish, State.withBlk]

/-- With a legal geometry and a block inside the plane STBLK is its write-back and completion. -/
theorem exec_stblk (hr : br < cdiv h 8) (hc : bc < cdiv w 8) :
    exec (.stblk p br bc) s = .next (s.setMem p (scatter (s.mem p) w h br bc s.blk)).finish := by
  have heff : effStblk p br bc s = .ok (s.setMem p (scatter (s.mem p) w h br bc s.blk)) := by
    rw [effStblk, planeChecked_legal hl]
    exact if_neg (not_or.2 ⟨Nat.not_le.2 hr, Nat.not_le.2 hc⟩)
  rw [exec_eq_complete, effectOf, heff, complete_ok]

/-- With a legal geometry and its table built CPLANE is its loop and completion. -/
theorem exec_cplane {t : TSel} (hv : s.valid t = true) :
    exec (.cplane p t) s = .next (compressPlane p t w h s).finish := by
  have heff : effCplane p t s = .ok (compressPlane p t w h s) := by
    rw [effCplane, planeChecked_legal hl]
    exact if_pos hv
  rw [exec_eq_complete, effectOf, heff, complete_ok]

/-- A legal plane has a sample (rules R34 and R165). -/
theorem planeLegal_pos : 0 < w ∧ 0 < h := by
  obtain ⟨hw, hh, -, hd, -⟩ := hl
  have hchroma (hd : s.chromaDims = some (w, h)) : 0 < w ∧ 0 < h := by
    unfold State.chromaDims at hd
    split at hd
    · rename_i hor ver hratio
      obtain ⟨hhor, hver⟩ := ratioOf_pos hratio
      cases hd
      exact ⟨cdiv_pos (Nat.pos_of_ne_zero hw) hhor, cdiv_pos (Nat.pos_of_ne_zero hh) hver⟩
    · cases hd
  cases p with
  | y | pix => cases hd; exact ⟨Nat.pos_of_ne_zero hw, Nat.pos_of_ne_zero hh⟩
  | cb | cr => exact hchroma hd

end

end

/-- Settles O14: the three commands make the one list of checks, then CPLANE asks for its table and LDBLK and STBLK for
a block inside the plane. -/
theorem tilerCommandsRaiseByRule : Obligations.TilerCommandsRaiseByRule := fun _ p br bc t he =>
  ⟨fun h => tilerCommands_raise (planeChecked_eq_dim h) br bc t he,
   fun hw hh hp h0 h1 => tilerCommands_raise (planeChecked_eq_fmt_of_ch hw hh hp h0 h1) br bc t he,
   fun hw hh hp h => tilerCommands_raise (planeChecked_eq_fmt_of_ratio hw hh hp h) br bc t he,
   fun _ _ hw hh hp hd hc => tilerCommands_raise (planeChecked_eq_size hw hh hp hd hc) br bc t he,
   fun _ _ hl hv => raises_of (i := .cplane p t) he (effCplane_eq_noTable hl hv),
   fun _ _ hl hr => ⟨raises_of (i := .ldblk p br bc) he (effLdblk_eq_range hl hr),
    raises_of (i := .stblk p br bc) he (effStblk_eq_range hl hr)⟩⟩

/-! ### The gathered tile -/

/-- Element (i, j) of a gathered tile (rule R162). -/
theorem blockElem_gather (m : Memory) (w h br bc : Nat) {i j : Nat} (hi : i < 8) (hj : j < 8) :
    blockElem (gather m w h br bc) (8 * i + j) =
      (Memory.read m (min (8 * br + i) (h - 1) * w + min (8 * bc + j) (w - 1))).setWidth 32 - 128 := by
  have hdiv : (8 * i + j) / 8 = i := by omega
  have hmod : (8 * i + j) % 8 = j := by omega
  rw [gather, blockElem_ofFn _ (by omega), gatherAddr, hdiv, hmod]

/-- A level-shifted sample lies in -128..127 (rule R162). -/
theorem levelShift_toInt_mem (v : Byte) : -128 ≤ (v.setWidth 32 - 128 : Word).toInt ∧
    (v.setWidth 32 - 128 : Word).toInt ≤ 127 := by
  have hv := v.isLt
  have hwide : (v.setWidth 32).toInt = v.toNat := by
    rw [BitVec.toInt_setWidth, Int.bmod_eq_of_le (by omega) (by omega)]
  rw [BitVec.toInt_sub, hwide]
  have h128 : (128 : Word).toInt = 128 := rfl
  rw [h128, Int.bmod_eq_of_le (by omega) (by omega)]
  omega

/-- Settles O29: LDBLK is its gather, whose address is `gatherAddr`. -/
theorem ldblkGathersTheClampedTile : Obligations.LdblkGathersTheClampedTile := by
  intro s p br bc w h hl hr hc
  obtain ⟨hw, hh⟩ := planeLegal_pos hl
  refine ⟨gather (s.mem p) w h br bc, ?_, fun i hi j hj => ?_⟩
  · rw [exec_ldblk hl hr hc, State.withBlk]
  · rw [blockElem_gather _ _ _ _ _ hi hj]
    exact ⟨rfl, raster_lt (by omega) (by omega), levelShift_toInt_mem _⟩

/-- Settles O30: the position and its nearest valid one are clamped to the same coordinates. -/
theorem tilePositionsOutsideThePlaneReplicateTheEdge : Obligations.TilePositionsOutsideThePlaneReplicateTheEdge := by
  intro m w h br bc i j hw hh hr hc hi hj
  rw [lt_cdiv_iff (by omega)] at hr hc
  have hrow : min (8 * br + min i (h - 1 - 8 * br)) (h - 1) = min (8 * br + i) (h - 1) := by omega
  have hcol : min (8 * bc + min j (w - 1 - 8 * bc)) (w - 1) = min (8 * bc + j) (w - 1) := by omega
  rw [blockElem_gather _ _ _ _ _ hi hj, blockElem_gather _ _ _ _ _ (by omega) (by omega), hrow, hcol]

/-! ### The tile written back -/

/-- Cell (i, j) of the plane after its tile is written back (rule R164). -/
theorem read_scatter_cell (m : Memory) {w h br bc i j : Nat} (b : Block) (hi : i < 8) (hj : j < 8)
    (hy : 8 * br + i < h) (hx : 8 * bc + j < w) :
    Memory.read (scatter m w h br bc b) ((8 * br + i) * w + (8 * bc + j)) =
      (blockElem b (8 * i + j)).setWidth 8 := by
  have hdiv : (8 * i + j) / 8 = i := by omega
  have hmod : (8 * i + j) % 8 = j := by omega
  have haddr : scatterAddr w h br bc (8 * i + j) = some ((8 * br + i) * w + (8 * bc + j)) := by
    rw [scatterAddr, hdiv, hmod, if_pos ⟨hy, hx⟩]
  exact Memory.read_writeMany_same (by omega) haddr fun _ _ hk => scatterAddr_inj hk haddr

/-- Settles O31: the store loop writes the in-bounds cells, each once, and `setMem` leaves everything else. -/
theorem stblkStoresOnlyTheInBoundsCells : Obligations.StblkStoresOnlyTheInBoundsCells := by
  intro s p br bc w h hl hr hc
  have hq := quiet_setMem s p (scatter (s.mem p) w h br bc s.blk)
  refine ⟨_, exec_stblk hl hr hc, ⟨rfl, rfl⟩, fun i hi j hj hy hx => ?_, fun a ha => ?_, fun q hq => ?_,
    State.setMem_blk _ _ _, fun u => ?_, ⟨hq.err, hq.ecode⟩, State.setMem_noop _ _ _, State.setMem_dconly _ _ _,
    hq.hostSide⟩
  · rw [State.finish_mem, State.setMem_mem_same]
    exact read_scatter_cell _ _ hi hj hy hx
  · rw [State.finish_mem, State.setMem_mem_same]
    exact Memory.read_writeMany_other ha
  · rw [State.finish_mem, State.setMem_mem_other _ _ hq]
  · rw [State.finish_table, State.finish_valid]
    exact ⟨State.setMem_table _ _ _ _, State.setMem_valid _ _ _ _⟩

/-! ### The blocks of a plane are independent (rule R171) -/

/-- Writing back one block leaves every address outside its own 8 × 8 region. -/
theorem read_scatter_other {m : Memory} {w h br bc a : Nat} (b : Block) (ha : (a / w / 8, a % w / 8) ≠ (br, bc)) :
    Memory.read (scatter m w h br bc b) a = Memory.read m a :=
  Memory.read_writeMany_other fun _ hk hs => ha (Prod.ext_iff.2 (scatterAddr_block hk hs))

/-- Writing back leaves the addresses beyond the plane. -/
theorem read_scatter_beyond {m : Memory} {w h a : Nat} (br bc : Nat) (b : Block) (ha : w * h ≤ a) :
    Memory.read (scatter m w h br bc b) a = Memory.read m a :=
  Memory.read_writeMany_other fun _ _ hs => Nat.not_lt.2 ha (scatterAddr_lt hs)

/-- Settles O32: what a block gathers lies in its own region. -/
theorem blocksOfAPlaneAreIndependent : Obligations.BlocksOfAPlaneAreIndependent := by
  intro m w h br bc br' bc' b hr hc hr' hc' hne
  refine congrArg Vector.ofFn (funext fun k => ?_)
  rw [read_scatter_other b]
  obtain ⟨hrow, hcol⟩ := gatherAddr_block k.isLt hr hc
  rwa [hrow, hcol]

/-- After the same stores to two memories an address reads alike in both where it did before. -/
theorem Memory.read_writeMany_congr {m m' : Memory} {a : Nat} (hm : Memory.read m a = Memory.read m' a) (n : Nat)
    (addr : Nat → Option Nat) (val : Nat → Byte) :
    Memory.read (Memory.writeMany m n addr val) a = Memory.read (Memory.writeMany m' n addr val) a := by
  induction n with
  | zero => exact hm
  | succ n ih =>
    rw [Memory.writeMany_succ, Memory.writeMany_succ]
    cases addr n with
    | none => exact ih
    | some b => simp only [Memory.read_write, ih]

section
variable (k : Num) (t : Table) (w h : Nat)

/-- Block number n of the plane, in raster order (rule R167). -/
def numberedBlock (r : PlaneRun) (n : Nat) : PlaneRun := planeBlock k t w h (n / cdiv w 8) (n % cdiv w 8) r

theorem numberedBlock_mem (r : PlaneRun) (n : Nat) :
    (numberedBlock k t w h r n).mem =
      scatter r.mem w h (n / cdiv w 8) (n % cdiv w 8)
        (transformBlock k t (gather r.mem w h (n / cdiv w 8) (n % cdiv w 8))).1 := rfl

theorem numberedBlock_blk (r : PlaneRun) (n : Nat) :
    (numberedBlock k t w h r n).blk =
      (transformBlock k t (gather r.mem w h (n / cdiv w 8) (n % cdiv w 8))).1 := by
  simp only [numberedBlock, planeBlock]

theorem planeLoop_eq_foldl (r : PlaneRun) :
    planeLoop k t w h r = (List.range (cdiv h 8 * cdiv w 8)).foldl (numberedBlock k t w h) r := rfl

end

/-- The number of the block whose 8 × 8 region holds an address. -/
def blockNumberAt (w a : Nat) : Nat := a / w / 8 * cdiv w 8 + a % w / 8

theorem numberedBlock_inside {w h n : Nat} (hn : n < cdiv h 8 * cdiv w 8) :
    n / cdiv w 8 < cdiv h 8 ∧ n % cdiv w 8 < cdiv w 8 :=
  ⟨Nat.div_lt_of_lt_mul (Nat.mul_comm _ _ ▸ hn), Nat.mod_lt _ (Nat.pos_of_lt_mul_left hn)⟩

section
variable {k : Num} {t : Table} {w h n : Nat}

/-- A block leaves the addresses of the other blocks' regions. -/
theorem numberedBlock_read_other (r : PlaneRun) {a : Nat} (ha : blockNumberAt w a ≠ n) :
    Memory.read (numberedBlock k t w h r n).mem a = Memory.read r.mem a := by
  refine read_scatter_other _ fun he => ha ?_
  obtain ⟨hrow, hcol⟩ := Prod.mk.inj he
  rw [blockNumberAt, hrow, hcol, Nat.div_add_mod']

/-- A block leaves in its region the same bytes whether another block ran before it or not: it gathers the same tile. -/
theorem numberedBlock_read_after {n' : Nat} (hn : n < cdiv h 8 * cdiv w 8) (hn' : n' < cdiv h 8 * cdiv w 8)
    (hne : n ≠ n') (r : PlaneRun) {a : Nat} (ha : blockNumberAt w a = n) :
    Memory.read (numberedBlock k t w h (numberedBlock k t w h r n') n).mem a =
      Memory.read (numberedBlock k t w h r n).mem a := by
  obtain ⟨hr, hc⟩ := numberedBlock_inside hn
  obtain ⟨hr', hc'⟩ := numberedBlock_inside hn'
  have hdiff : (n / cdiv w 8, n % cdiv w 8) ≠ (n' / cdiv w 8, n' % cdiv w 8) := fun he => hne <| by
    obtain ⟨hdiv, hmod⟩ := Prod.mk.inj he
    rw [← Nat.div_add_mod' n (cdiv w 8), ← Nat.div_add_mod' n' (cdiv w 8)]
    exact congrArg₂ (· * cdiv w 8 + ·) hdiv hmod
  have hgather : gather (numberedBlock k t w h r n').mem w h (n / cdiv w 8) (n % cdiv w 8) =
      gather r.mem w h (n / cdiv w 8) (n % cdiv w 8) :=
    numberedBlock_mem k t w h r n' ▸ blocksOfAPlaneAreIndependent _ _ _ _ _ _ _ _ hr hc hr' hc' hdiff
  have hread := numberedBlock_read_other (k := k) (t := t) (h := h) r (ha ▸ hne)
  rw [numberedBlock_mem, hgather, numberedBlock_mem (r := r)]
  exact Memory.read_writeMany_congr hread _ _ _

end

/-- After a list of different blocks of the plane, an address reads what its own block leaves there where that block is
in the list, and what it read before where it is not: the order of the list does not enter. -/
theorem read_foldl_numberedBlock {k : Num} {t : Table} {w h : Nat} {order : List Nat} (hnodup : order.Nodup)
    (hin : ∀ n ∈ order, n < cdiv h 8 * cdiv w 8) (r : PlaneRun) (a : Nat) :
    Memory.read (order.foldl (numberedBlock k t w h) r).mem a =
      if blockNumberAt w a ∈ order then Memory.read (numberedBlock k t w h r (blockNumberAt w a)).mem a
      else Memory.read r.mem a := by
  induction order generalizing r with
  | nil => rfl
  | cons n rest ih =>
    obtain ⟨hn, hrest⟩ := List.nodup_cons.1 hnodup
    have hnin : n < cdiv h 8 * cdiv w 8 := hin n List.mem_cons_self
    rw [List.foldl_cons, ih hrest fun m hm => hin m (List.mem_cons_of_mem _ hm)]
    by_cases hmem : blockNumberAt w a ∈ rest
    · have hne : blockNumberAt w a ≠ n := fun he => hn (he ▸ hmem)
      rw [if_pos hmem, if_pos (List.mem_cons_of_mem _ hmem),
        numberedBlock_read_after (hin _ (List.mem_cons_of_mem _ hmem)) hnin hne r rfl]
    · rw [if_neg hmem]
      by_cases he : blockNumberAt w a = n
      · rw [if_pos (he ▸ List.mem_cons_self), he]
      · rw [if_neg (List.not_mem_cons_of_ne_of_not_mem he hmem), numberedBlock_read_other r he]

/-- Settles O33: a permutation lists the same blocks, each once. -/
theorem blockOrderDoesNotMatter : Obligations.BlockOrderDoesNotMatter := by
  intro k t w h r order hperm a
  have hin (n : Nat) (hn : n ∈ List.range (cdiv h 8 * cdiv w 8)) : n < cdiv h 8 * cdiv w 8 := List.mem_range.1 hn
  change Memory.read (order.foldl (numberedBlock k t w h) r).mem a = _
  rw [planeLoop_eq_foldl, read_foldl_numberedBlock List.nodup_range hin,
    read_foldl_numberedBlock (hperm.nodup_iff.2 List.nodup_range) fun n hn => hin n (hperm.mem_iff.1 hn)]
  simp only [hperm.mem_iff]

/-! ### CPLANE as the run of its tiles (rule R166) -/

/-- What the loop of CPLANE starts from. -/
def State.planeRun (s : State) (p : PSel) : PlaneRun := { mem := s.mem p, blk := s.blk, dconly := s.dconly }

/-- The state with what the loop of CPLANE carries put back, and the command completed. -/
def State.afterRun (s : State) (p : PSel) (r : PlaneRun) : State :=
  { s.setMem p r.mem with blk := r.blk, dconly := r.dconly }.finish

theorem compressPlane_finish (p : PSel) (t : TSel) (w h : Nat) (s : State) :
    (compressPlane p t w h s).finish = s.afterRun p (planeLoop s.cfg.num (s.table t) w h (s.planeRun p)) := rfl

section
variable (s : State) (p : PSel) (r : PlaneRun)

@[simp] theorem State.afterRun_cfg : (s.afterRun p r).cfg = s.cfg := by cases p <;> rfl

@[simp] theorem State.afterRun_table (t : TSel) : (s.afterRun p r).table t = s.table t := by cases p <;> cases t <;> rfl

@[simp] theorem State.afterRun_valid (t : TSel) : (s.afterRun p r).valid t = s.valid t := by cases p <;> cases t <;> rfl

@[simp] theorem State.afterRun_planeRun : (s.afterRun p r).planeRun p = r := by cases p <;> rfl

@[simp] theorem State.afterRun_afterRun (r' : PlaneRun) : (s.afterRun p r).afterRun p r' = s.afterRun p r' := by
  cases p <;> rfl

/-- Writing back after `BLK` and `DCONLY` are left is what the loop carries. -/
theorem State.withBlk_setMem_finish (m : Memory) (b : Block) (d : Bool) :
    ((s.withBlk b d).setMem p m).finish = s.afterRun p { mem := m, blk := b, dconly := d } := by cases p <;> rfl

@[simp] theorem State.withBlk_mem (b : Block) (d : Bool) : (s.withBlk b d).mem p = s.mem p := by cases p <;> rfl

end

section
variable {s : State} {p : PSel} {w h : Nat} (hl : PlaneLegal s p w h)
include hl

theorem planeLegal_withBlk (b : Block) (d : Bool) : PlaneLegal (s.withBlk b d) p w h := by cases p <;> exact hl

theorem planeLegal_afterRun (r : PlaneRun) : PlaneLegal (s.afterRun p r) p w h := by cases p <;> exact hl

end

/-- A run of commands is continued by the next commands. -/
theorem runCommands_append {is : List Instr} {s t : State} (h : runCommands is s = .next t) (js : List Instr) :
    runCommands (is ++ js) s = runCommands js t := by
  induction is generalizing s with
  | nil =>
    cases h
    rfl
  | cons i is ih =>
    rw [List.cons_append]
    rw [runCommands] at h ⊢
    cases he : exec i s with
    | next u => rw [he] at h; exact ih h
    | fault r => nomatch r
    | refused r => rw [he] at h; cases h

section
variable {s : State} {p : PSel} {t : TSel} {w h : Nat} (hl : PlaneLegal s p w h) (hv : s.valid t = true)
include hl hv

/-- LDBLK, XFORM, STBLK of one block is one turn of the loop. -/
theorem runCommands_tile {n : Nat} (hn : n < cdiv h 8 * cdiv w 8) :
    runCommands (Pseudo.tile p t (n / cdiv w 8) (n % cdiv w 8)).expand s =
      .next (s.afterRun p (numberedBlock s.cfg.num (s.table t) w h (s.planeRun p) n)) := by
  obtain ⟨hr, hc⟩ := numberedBlock_inside hn
  have hxform (b : Block) (d : Bool) := exec_xform (s := s.withBlk b d) ((State.withBlk_valid s b d t).trans hv)
  have hstblk (b : Block) (d : Bool) := exec_stblk (planeLegal_withBlk hl b d) hr hc
  simp only [Pseudo.expand, runCommands, exec_ldblk hl hr hc, hxform, State.withBlk_withBlk, hstblk,
    State.withBlk_setMem_finish, State.withBlk_mem, State.withBlk_blk, State.withBlk_cfg, State.withBlk_table,
    numberedBlock, planeBlock, State.planeRun]

/-- From a state the loop has left, the commands of a list of blocks are the loop over that list. -/
theorem runCommands_tiles {order : List Nat} (hin : ∀ n ∈ order, n < cdiv h 8 * cdiv w 8) (r : PlaneRun) :
    runCommands (order.flatMap fun n => (Pseudo.tile p t (n / cdiv w 8) (n % cdiv w 8)).expand) (s.afterRun p r) =
      .next (s.afterRun p (order.foldl (numberedBlock s.cfg.num (s.table t) w h) r)) := by
  induction order generalizing r with
  | nil => rfl
  | cons n rest ih =>
    have htile := runCommands_tile (planeLegal_afterRun hl r) ((s.afterRun_valid p r t).trans hv)
      (hin n List.mem_cons_self)
    simp only [State.afterRun_cfg, State.afterRun_table, State.afterRun_planeRun, State.afterRun_afterRun] at htile
    rw [List.flatMap_cons, runCommands_append htile, ih fun m hm => hin m (List.mem_cons_of_mem _ hm),
      List.foldl_cons]

end

/-- A legal plane has at least one block. -/
theorem planeLegal_blocks {s : State} {p : PSel} {w h : Nat} (hl : PlaneLegal s p w h) :
    ∃ n, cdiv h 8 * cdiv w 8 = n + 1 := by
  obtain ⟨hw, hh⟩ := planeLegal_pos hl
  exact Nat.exists_eq_succ_of_ne_zero (Nat.mul_pos (cdiv_pos hh (by omega)) (cdiv_pos hw (by omega))).ne'

/-- Settles O34: the first tile leaves `BUSY` and `DONE` as a completion does, and every further tile keeps them so. -/
theorem cplaneEqualsItsTilesInRasterOrder : Obligations.CplaneEqualsItsTilesInRasterOrder := by
  intro s p t w h hl hv
  have hq := quiet_compressPlane p t w h s
  refine ⟨_, exec_cplane hl hv, ⟨rfl, rfl⟩, ⟨hq.err, hq.ecode⟩, ?_⟩
  obtain ⟨n, hn⟩ := planeLegal_blocks hl
  have hin (m : Nat) (hm : m ∈ (List.range n).map Nat.succ) : m < cdiv h 8 * cdiv w 8 := by
    obtain ⟨i, hi, rfl⟩ := List.mem_map.1 hm
    have := List.mem_range.1 hi
    omega
  rw [compressPlane_finish, planeLoop_eq_foldl, hn, List.range_succ_eq_map, List.flatMap_cons,
    runCommands_append (runCommands_tile hl hv (by omega)), runCommands_tiles hl hv hin, List.foldl_cons]

/-! ### What CPLANE leaves -/

/-- The block left by a loop over at least one block is a transformed one. -/
theorem planeLoop_blk {k : Num} {t : Table} {w h n : Nat} (hn : cdiv h 8 * cdiv w 8 = n + 1) (r : PlaneRun) :
    ∃ b, (planeLoop k t w h r).blk = (transformBlock k t b).1 := by
  rw [planeLoop_eq_foldl, hn, List.range_succ, List.foldl_concat]
  exact ⟨_, numberedBlock_blk k t w h _ n⟩

/-- Settles O35: no block is written back beyond the plane, and the last block is an inverse transform's samples. -/
theorem cplaneTouchesOnlyItsPlane : Obligations.CplaneTouchesOnlyItsPlane := by
  intro s u p t w h hl hv hu
  obtain rfl : (compressPlane p t w h s).finish = u := Host.Outcome.next.inj ((exec_cplane hl hv).symm.trans hu)
  have hq := quiet_compressPlane p t w h s
  obtain ⟨htables, hnoop, hmem⟩ := compressPlane_keeps p t w h s
  refine ⟨fun a ha => ?_, fun q hq => ?_, fun v => ?_, hnoop, ⟨hq.err, hq.ecode⟩, hq.hostSide, fun i => ?_⟩
  · rw [State.finish_mem, compressPlane_mem]
    exact planeLoop_keeps (P := fun r => Memory.read r.mem a = Memory.read (s.mem p) a)
      (fun br bc _ hr => (read_scatter_beyond br bc _ ha).trans hr) rfl
  · rw [State.finish_mem, hmem q hq]
  · rw [State.finish_table, State.finish_valid]
    exact htables v
  · obtain ⟨n, hn⟩ := planeLegal_blocks hl
    obtain ⟨b, hb⟩ := planeLoop_blk (k := s.cfg.num) (t := s.table t) hn (s.planeRun p)
    have hblk : (compressPlane p t w h s).finish.blk = (transformBlock s.cfg.num (s.table t) b).1 := hb
    rw [hblk]
    exact idctBlock_toInt_mem _ _ i

end Sys2Proof.Machine

/-! PROOFS. Family 44_sequencer: how a step gives the unit its turn, what every command keeps, what the checks of
COMPRESS raise, and its two working paths as the runs of their commands (44_sequencer.md). -/

namespace Sys2Proof.Machine

/-! ### The turns of a step and the completion of every command -/

/-- Settles O5: a step is the unit's turn, scheduled or not, or the scheduled operation of the host. -/
theorem completionStepRunsTheDecodedCommand : Obligations.CompletionStepRunsTheDecodedCommand :=
  ⟨fun s _ hb hd => ⟨fun hs => (step_unscheduled hs).trans (unitStep_command hb hd),
    fun rest hs => (step_unit hs).trans (unitStep_command (s := { s with schedule := rest }) hb hd)⟩,
   fun s hb => ⟨fun hs => (step_unscheduled hs).trans (unitStep_idle hb),
    fun rest hs => (step_unit hs).trans (unitStep_idle (s := { s with schedule := rest }) hb)⟩,
   fun _ _ _ hs => step_host hs⟩

/-- No command is refused and none faults. -/
theorem exec_next (i : Instr) (s : State) : ∃ t, exec i s = .next t := ⟨_, exec_eq_complete i s⟩

/-- Every completion, an error's too, ends the command and keeps the host side. -/
theorem exec_completes {i : Instr} {s t : State} (h : exec i s = .next t) : Completed t ∧ SameHostSide s t := by
  obtain ⟨u, hu, rfl⟩ | ⟨e, -, rfl⟩ := exec_cases h
  · exact ⟨⟨rfl, rfl⟩, (effect_quiet hu).hostSide⟩
  · rw [raiseError_eq]
    exact ⟨⟨rfl, rfl⟩, rfl, rfl, rfl, rfl, rfl, rfl, rfl, rfl, rfl, rfl, rfl⟩

/-- Settles O8: by `exec_completes`. -/
theorem everyCommandCompletes : Obligations.EveryCommandCompletes := by
  intro i s
  obtain ⟨t, ht⟩ := exec_next i s
  exact ⟨t, ht, exec_completes ht⟩

/-- Settles O9: of what a host operation can do, a busy unit allows an answer, a `CTRL` or `STATUS` write, an overrun,
and the soft reset, which does not leave the unit busy. -/
theorem hostCannotDisturbARunningCommand : Obligations.HostCannotDisturbARunningCommand := by
  intro s t op hb h hbt
  cases hostStep_change h with
  | softReset => cases hbt
  | status v =>
    rw [State.clearStatus_eq]
    exact ⟨rfl, rfl, fun u => by cases u <;> exact ⟨rfl, rfl⟩, fun p => by cases p <;> rfl, rfl, rfl, rfl, rfl, rfl⟩
  | answered _ | ignored | ctrl _ | overrun _ =>
    exact ⟨rfl, rfl, fun u => by cases u <;> exact ⟨rfl, rfl⟩, fun p => by cases p <;> rfl, rfl, rfl, rfl, rfl, rfl⟩
  | launched _ idle | width _ idle | height _ idle | fmt _ idle | qcfg _ idle | blk _ _ idle | mem _ _ _ idle _ =>
    rw [hb] at idle
    cases idle

/-! ### NOP and the dispatch of COMPRESS -/

/-- Settles O39: NOP is its completion. -/
theorem nopOnlyCompletes : Obligations.NopOnlyCompletes := fun _ => rfl

section
variable {s : State}

theorem effCompress_gray (h : s.ch = 0 ∨ s.ch = 1) : effCompress s = effGray s := by
  rw [effCompress, compressPath, if_neg (by omega), if_pos h]

theorem effCompress_colour (h : s.ch = 3) : effCompress s = effColour s := by
  rw [effCompress, compressPath, if_pos h]

theorem effCompress_passThrough (h0 : s.ch ≠ 0) (h1 : s.ch ≠ 1) (h3 : s.ch ≠ 3) :
    effCompress s = .ok { s with noop := true } := by
  rw [effCompress, compressPath, if_neg h3, if_neg (not_or.2 ⟨h0, h1⟩)]

end

/-- Settles O40: the pass-through makes no check and writes `NOOP` only. -/
theorem compressPassThroughLeavesTheBuffer : Obligations.CompressPassThroughLeavesTheBuffer := by
  intro s h0 h1 h3
  rw [exec_eq_complete, effectOf, effCompress_passThrough h0 h1 h3, complete_ok, State.finish]

/-! ### What the checks of COMPRESS answer (rules R185 and R187) -/

section
variable {s : State}

theorem effGray_eq_dim (h : s.imgW = 0 ∨ s.imgH = 0) : effGray s = .error .dim := if_pos h

theorem effColour_eq_dim (h : s.imgW = 0 ∨ s.imgH = 0) : effColour s = .error .dim := if_pos h

section
variable (hw : s.imgW ≠ 0) (hh : s.imgH ≠ 0)
include hw hh

theorem effColour_eq_fmt (h : s.subsamp = 7) : effColour s = .error .fmt := by
  rw [effColour, if_neg (not_or.2 ⟨hw, hh⟩), ratio_none h]

theorem effGray_eq_preset (h : 2 + s.cfg.extraPresets.length ≤ s.preset) : effGray s = .error .preset := by
  rw [effGray, if_neg (not_or.2 ⟨hw, hh⟩), presetOf_none h]

theorem effColour_eq_preset (hsub : s.subsamp ≠ 7) (h : 2 + s.cfg.extraPresets.length ≤ s.preset) :
    effColour s = .error .preset := by
  obtain ⟨r, hr⟩ := ratio_some hsub
  rw [effColour, if_neg (not_or.2 ⟨hw, hh⟩), hr, presetOf_none h]

theorem effGray_eq_size (hp : s.preset < 2 + s.cfg.extraPresets.length) (h : s.cfg.pixBytes < s.imgW * s.imgH) :
    effGray s = .error .size := by
  obtain ⟨p, hp⟩ := presetOf_some hp
  rw [effGray, if_neg (not_or.2 ⟨hw, hh⟩), hp]
  exact if_pos h

theorem effColour_eq_size (hsub : s.subsamp ≠ 7) (hp : s.preset < 2 + s.cfg.extraPresets.length)
    (h : s.cfg.pixBytes < 3 * s.imgW * s.imgH ∨ s.cfg.planeBytes < s.imgW * s.imgH) :
    effColour s = .error .size := by
  obtain ⟨r, hr⟩ := ratio_some hsub
  obtain ⟨p, hp⟩ := presetOf_some hp
  rw [effColour, if_neg (not_or.2 ⟨hw, hh⟩), hr]
  simp only [hp]
  exact if_pos h

theorem effGray_eq_ok {p : Preset} (hp : presetOf s.cfg s.preset = some p) (h : s.imgW * s.imgH ≤ s.cfg.pixBytes) :
    effGray s = .ok (compressPlane .pix .l s.imgW s.imgH (buildBoth p { s with noop := false })) := by
  rw [effGray, if_neg (not_or.2 ⟨hw, hh⟩), hp]
  exact if_neg (Nat.not_lt.2 h)

end

theorem effColour_eq_ok {hor ver : Nat} {p : Preset} (hl : ColourLegal s hor ver)
    (hp : presetOf s.cfg s.preset = some p) : effColour s = .ok (colourPath p hor ver s) := by
  obtain ⟨hw, hh, -, hratio, hpix, hplane⟩ := hl
  rw [effColour, if_neg (not_or.2 ⟨hw, hh⟩), hratio]
  simp only [hp]
  exact if_neg (not_or.2 ⟨Nat.not_lt.2 hpix, Nat.not_lt.2 hplane⟩)

/-- What the gray path raises COMPRESS raises. -/
theorem compress_raises_of_gray {e : ErrCode} (he : s.err = false) (hch : s.ch = 0 ∨ s.ch = 1)
    (h : effGray s = .error e) : Raises .compress s (ecodeOf e) :=
  raises_of (i := .compress) he ((effCompress_gray hch).trans h)

/-- What the colour path raises COMPRESS raises. -/
theorem compress_raises_of_colour {e : ErrCode} (he : s.err = false) (hch : s.ch = 3) (h : effColour s = .error e) :
    Raises .compress s (ecodeOf e) :=
  raises_of (i := .compress) he ((effCompress_colour hch).trans h)

end

/-- Settles O16: each clause is one error of the path that the channel count selects. -/
theorem compressRaisesByRule : Obligations.CompressRaisesByRule := by
  intro s he
  refine ⟨fun hch hz => ?_, fun hch hw hh hsub => compress_raises_of_colour he hch (effColour_eq_fmt hw hh hsub),
    fun hch hw hh hp => ?_, fun hch hw hh hp hc => compress_raises_of_gray he hch (effGray_eq_size hw hh hp hc),
    fun hch hsub hw hh hp hc => compress_raises_of_colour he hch (effColour_eq_size hw hh hsub hp hc)⟩
  · obtain hgray | hcolour := or_assoc.2 hch
    · exact compress_raises_of_gray he hgray (effGray_eq_dim hz)
    · exact compress_raises_of_colour he hcolour (effColour_eq_dim hz)
  · obtain hgray | ⟨hcolour, hsub⟩ := or_assoc.2 hch
    · exact compress_raises_of_gray he hgray (effGray_eq_preset hw hh hp)
    · exact compress_raises_of_colour he hcolour (effColour_eq_preset hw hh hsub hp)

/-! ### What a command keeps (rule R193) -/

/-- `u` has what the write column of rule R193 leaves out for command `i` as it was in `s`. -/
structure KeepsUnwritten (i : Instr) (s u : State) : Prop where
  mem : storesNothing i = true → ∀ p, u.mem p = s.mem p
  blk : keepsBlk i = true → u.blk = s.blk
  tables : ∀ v, writesTable i v = false → u.table v = s.table v ∧ u.valid v = s.valid v
  dconly : writesDconly i = false → u.dconly = s.dconly
  noop : i ≠ .compress → u.noop = s.noop

/-- A command that writes `BLK`, and `DCONLY` only with an inverse transform. -/
theorem keepsUnwritten_blkWrite {i : Instr} (s : State) (b : Block) {d : Bool} (hblk : keepsBlk i = false)
    (hd : writesDconly i = false → d = s.dconly) : KeepsUnwritten i s { s with blk := b, dconly := d } where
  mem _ p := by cases p <;> rfl
  blk h := absurd h (by simp [hblk])
  tables v _ := blkWrite_keeps_table s b d v
  dconly := hd
  noop _ := rfl

theorem keepsUnwritten_buildFrom (p : Preset) (t : TSel) (s : State) :
    KeepsUnwritten (.qtgen t) s (buildFrom p t s) := by
  obtain ⟨hblk, hmem, hnoop, hdconly⟩ := buildFrom_keeps p t s
  refine ⟨fun _ => hmem, fun _ => hblk, fun v hv => ?_, fun _ => hdconly, fun _ => hnoop⟩
  have hne : v ≠ t := fun he => of_decide_eq_false hv he.symm
  obtain ⟨htable, hvalid⟩ := buildFrom_table p t v s
  exact ⟨htable.trans (if_neg hne), hvalid.trans (if_neg hne)⟩

theorem keepsUnwritten_setMem (s : State) (p : PSel) (m : Memory) (br bc : Nat) :
    KeepsUnwritten (.stblk p br bc) s (s.setMem p m) :=
  ⟨nofun, fun _ => s.setMem_blk p m, fun v _ => ⟨s.setMem_table p m v, s.setMem_valid p m v⟩,
   fun _ => s.setMem_dconly p m, fun _ => s.setMem_noop p m⟩

theorem keepsUnwritten_compressPlane (p : PSel) (t : TSel) (w h : Nat) (s : State) :
    KeepsUnwritten (.cplane p t) s (compressPlane p t w h s) := by
  obtain ⟨htables, hnoop, -⟩ := compressPlane_keeps p t w h s
  exact ⟨nofun, nofun, fun v _ => htables v, nofun, fun _ => hnoop⟩

theorem keepsUnwritten_splitPlanes (hor ver : Nat) (s : State) : KeepsUnwritten .split s (splitPlanes hor ver s) := by
  obtain ⟨-, hblk, htables, hnoop, hdconly⟩ := splitPlanes_keeps hor ver s
  exact ⟨nofun, fun _ => hblk, fun v _ => htables v, fun _ => hdconly, fun _ => hnoop⟩

theorem keepsUnwritten_mergePlanes (hor ver : Nat) (s : State) : KeepsUnwritten .merge s (mergePlanes hor ver s) := by
  obtain ⟨-, hblk, htables, hnoop, hdconly⟩ := mergePlanes_keeps hor ver s
  exact ⟨nofun, fun _ => hblk, fun v _ => htables v, fun _ => hdconly, fun _ => hnoop⟩

/-- Without an error each command keeps what is not in its write column. -/
theorem effect_keepsUnwritten {i : Instr} {s u : State} (h : effectOf i s = .ok u) : KeepsUnwritten i s u := by
  cases i with
  | nop => cases h; exact ⟨fun _ _ => rfl, fun _ => rfl, fun _ _ => ⟨rfl, rfl⟩, fun _ => rfl, fun _ => rfl⟩
  | qtgen t => obtain ⟨p, -, rfl⟩ := effQtgen_ok h; exact keepsUnwritten_buildFrom p t s
  | fdct => cases h; exact keepsUnwritten_blkWrite s _ rfl fun _ => rfl
  | quant t => obtain ⟨-, rfl⟩ := effQuant_ok h; exact keepsUnwritten_blkWrite s _ rfl fun _ => rfl
  | dequant t => obtain ⟨-, rfl⟩ := effDequant_ok h; exact keepsUnwritten_blkWrite s _ rfl fun _ => rfl
  | idct => cases h; exact keepsUnwritten_blkWrite s _ rfl nofun
  | xform t => obtain ⟨-, rfl⟩ := effXform_ok h; exact keepsUnwritten_blkWrite s _ rfl nofun
  | ldblk p br bc =>
    obtain ⟨_, _, -, -, -, rfl⟩ := effLdblk_ok h
    exact keepsUnwritten_blkWrite s _ rfl fun _ => rfl
  | stblk p br bc => obtain ⟨_, _, -, -, -, rfl⟩ := effStblk_ok h; exact keepsUnwritten_setMem s p _ br bc
  | cplane p t => obtain ⟨_, _, -, -, rfl⟩ := effCplane_ok h; exact keepsUnwritten_compressPlane p t _ _ s
  | split => obtain ⟨_, _, -, rfl⟩ := effSplit_ok h; exact keepsUnwritten_splitPlanes _ _ s
  | merge => obtain ⟨_, _, -, rfl⟩ := effMerge_ok h; exact keepsUnwritten_mergePlanes _ _ s
  | compress => exact ⟨nofun, nofun, nofun, nofun, fun hne => absurd rfl hne⟩

/-- A completion keeps what the effect keeps, and an error keeps everything. -/
theorem exec_keepsUnwritten {i : Instr} {s t : State} (h : exec i s = .next t) : KeepsUnwritten i s t := by
  obtain ⟨u, hu, rfl⟩ | ⟨e, -, rfl⟩ := exec_cases h
  · obtain ⟨hmem, hblk, htables, hdconly, hnoop⟩ := effect_keepsUnwritten hu
    exact ⟨fun hs p => (u.finish_mem p).trans (hmem hs p), hblk,
      fun v hv => by rw [State.finish_table, State.finish_valid]; exact htables v hv, hdconly, hnoop⟩
  · exact ⟨fun _ => s.raiseError_mem e, fun _ => s.raiseError_blk e,
      fun v _ => ⟨s.raiseError_table e v, s.raiseError_valid e v⟩, fun _ => s.raiseError_dconly e,
      fun _ => s.raiseError_noop e⟩

/-- Settles O43: the memories themselves are kept. -/
theorem nonStoringCommandsKeepTheMemories : Obligations.NonStoringCommandsKeepTheMemories := fun _ _ _ hi h p a =>
  congrArg (Memory.read · a) ((exec_keepsUnwritten h).mem hi p)

/-- Settles O44: by `exec_keepsUnwritten`, and the host side by `exec_completes`. -/
theorem commandsKeepWhatTheyDoNotWrite : Obligations.CommandsKeepWhatTheyDoNotWrite := by
  intro i s t h
  obtain ⟨-, hblk, htables, hdconly, hnoop⟩ := exec_keepsUnwritten h
  obtain ⟨-, hhost⟩ := exec_completes h
  exact ⟨hblk, htables, hdconly, hnoop, hhost⟩

/-! ### What every stage of COMPRESS has in common

COMPRESS differs from the run of its commands in `BUSY`, `DONE` and `NOOP` only, and no stage reads one of these. -/

/-- The state with the three flags of `STATUS` set that no stage of COMPRESS reads. -/
def State.setFlags (s : State) (busy done noop : Bool) : State := { s with busy := busy, done := done, noop := noop }

theorem State.finish_eq_setFlags (s : State) : s.finish = s.setFlags false true s.noop := rfl

theorem State.noopWrite_eq_setFlags (s : State) (n : Bool) : { s with noop := n } = s.setFlags s.busy s.done n := rfl

theorem State.setFlags_setFlags (s : State) (b d n b' d' n' : Bool) :
    (s.setFlags b d n).setFlags b' d' n' = s.setFlags b' d' n' := rfl

/-- An operation that leaves alone what `Quiet` lists, and neither reads nor writes `BUSY`, `DONE` and `NOOP`. -/
structure Stage (f : State → State) : Prop where
  quiet : ∀ s, Quiet s (f s)
  setFlags : ∀ s b d n, f (s.setFlags b d n) = (f s).setFlags b d n

theorem stage_buildFrom (p : Preset) (t : TSel) : Stage (buildFrom p t) :=
  ⟨quiet_buildFrom p t, fun _ _ _ _ => by cases t <;> rfl⟩

theorem stage_compressPlane (p : PSel) (t : TSel) (w h : Nat) : Stage (compressPlane p t w h) :=
  ⟨quiet_compressPlane p t w h, fun _ _ _ _ => by cases p <;> cases t <;> rfl⟩

theorem stage_splitPlanes (hor ver : Nat) : Stage (splitPlanes hor ver) :=
  ⟨quiet_splitPlanes hor ver, fun _ _ _ _ => rfl⟩

theorem stage_mergePlanes (hor ver : Nat) : Stage (mergePlanes hor ver) :=
  ⟨quiet_mergePlanes hor ver, fun _ _ _ _ => rfl⟩

section
variable {f g : State → State} (hf : Stage f)
include hf

theorem Stage.comp (hg : Stage g) : Stage (g ∘ f) :=
  ⟨fun s => (hf.quiet s).trans (hg.quiet (f s)), fun s b d n => by
    rw [Function.comp_apply, hf.setFlags, hg.setFlags, Function.comp_apply]⟩

theorem Stage.noop (s : State) : (f s).noop = s.noop := by
  have hsame : f s = (f s).setFlags s.busy s.done s.noop := hf.setFlags s s.busy s.done s.noop
  rw [hsame]
  rfl

/-- A stage after a write of `NOOP` is the write after the stage. -/
theorem Stage.noopWrite (s : State) (n : Bool) : f { s with noop := n } = { f s with noop := n } := by
  have hq := hf.quiet s
  rw [State.noopWrite_eq_setFlags, hf.setFlags, State.noopWrite_eq_setFlags, hq.busy, hq.done]

/-- A stage between two completions. -/
theorem Stage.finish (s : State) : (f s.finish).finish = (f s).finish := by
  rw [State.finish_eq_setFlags s, hf.setFlags, State.finish_eq_setFlags, State.setFlags_setFlags,
    State.finish_eq_setFlags, hf.noop]
  rfl

end

/-! ### What the checks read after a quiet change and its completion -/

section
variable {s u : State} (hq : Quiet s u)
include hq

theorem Quiet.ch : u.ch = s.ch := by rw [State.ch, State.ch, hq.fmt]

theorem Quiet.ratio : u.ratio = s.ratio := by rw [State.ratio, State.ratio, State.subsamp, State.subsamp, hq.fmt]

theorem Quiet.preset : u.preset = s.preset := by rw [State.preset, State.preset, hq.qcfg]

theorem Quiet.chromaDims : u.chromaDims = s.chromaDims := by
  rw [State.chromaDims, State.chromaDims, hq.ratio, hq.imgW, hq.imgH]

theorem Quiet.planeDims (p : PSel) : u.planeDims p = s.planeDims p := by
  cases p with
  | y | pix => rw [State.planeDims, State.planeDims, hq.imgW, hq.imgH]
  | cb | cr => exact hq.chromaDims

theorem Quiet.planeLegal_finish {p : PSel} {w h : Nat} (hl : PlaneLegal s p w h) : PlaneLegal u.finish p w h := by
  unfold PlaneLegal
  rw [State.finish_imgW, State.finish_imgH, State.finish_ch, State.finish_planeDims, State.finish_cfg, hq.imgW,
    hq.imgH, hq.ch, hq.planeDims, hq.cfg]
  exact hl

theorem Quiet.colourLegal_finish {hor ver : Nat} (hl : ColourLegal s hor ver) : ColourLegal u.finish hor ver := by
  unfold ColourLegal
  rw [State.finish_imgW, State.finish_imgH, State.finish_ch, State.finish_ratio, State.finish_cfg, hq.imgW, hq.imgH,
    hq.ch, hq.ratio, hq.cfg]
  exact hl

theorem Quiet.presetOf_finish {p : Preset} (hp : presetOf s.cfg s.preset = some p) :
    presetOf u.finish.cfg u.finish.preset = some p := by
  rw [State.finish_cfg, State.finish_preset, hq.cfg, hq.preset]
  exact hp

end

/-! ### Runs of commands as compositions of stages -/

/-- The commands `is`, issued one by one from s, leave what stage `f` makes of s, completed. -/
structure RunIsStage (s : State) (is : List Instr) (f : State → State) : Prop where
  stage : Stage f
  run : runCommands is s = .next (f s).finish

/-- With its preset in the ROM QTGEN is the building of its table and completion. -/
theorem exec_qtgen {s : State} {p : Preset} (hp : presetOf s.cfg s.preset = some p) (t : TSel) :
    exec (.qtgen t) s = .next (buildFrom p t s).finish := by
  rw [exec_eq_complete, effectOf, effQtgen_eq_ok hp, complete_ok]

theorem runCommands_single {i : Instr} {s t : State} (h : exec i s = .next t) : runCommands [i] s = .next t := by
  simp only [runCommands, h]

section
variable {s : State} {is : List Instr} {f : State → State}

/-- One more command, which on the completed state is one more stage. -/
theorem RunIsStage.append (hrun : RunIsStage s is f) {i : Instr} {g : State → State} (hg : Stage g)
    (h : exec i (f s).finish = .next (g (f s).finish).finish) : RunIsStage s (is ++ [i]) (g ∘ f) where
  stage := hrun.stage.comp hg
  run := by rw [runCommands_append hrun.run, runCommands_single h, hg.finish, Function.comp_apply]

theorem RunIsStage.qtgen (hrun : RunIsStage s is f) {p : Preset} (hp : presetOf s.cfg s.preset = some p) (t : TSel) :
    RunIsStage s (is ++ [.qtgen t]) (buildFrom p t ∘ f) :=
  hrun.append (stage_buildFrom p t) (exec_qtgen ((hrun.stage.quiet s).presetOf_finish hp) t)

theorem RunIsStage.cplane (hrun : RunIsStage s is f) {p : PSel} {w h : Nat} (hl : PlaneLegal s p w h) {t : TSel}
    (hv : (f s).valid t = true) : RunIsStage s (is ++ [.cplane p t]) (compressPlane p t w h ∘ f) :=
  hrun.append (stage_compressPlane p t w h)
    (exec_cplane ((hrun.stage.quiet s).planeLegal_finish hl) ((State.finish_valid _ t).trans hv))

theorem RunIsStage.merge (hrun : RunIsStage s is f) {hor ver : Nat} (hl : ColourLegal s hor ver) :
    RunIsStage s (is ++ [.merge]) (mergePlanes hor ver ∘ f) :=
  hrun.append (stage_mergePlanes hor ver) (exec_merge ((hrun.stage.quiet s).colourLegal_finish hl))

end

/-- The first command of the gray path. -/
theorem runIsStage_qtgen {s : State} {p : Preset} (hp : presetOf s.cfg s.preset = some p) (t : TSel) :
    RunIsStage s [.qtgen t] (buildFrom p t) :=
  ⟨stage_buildFrom p t, runCommands_single (exec_qtgen hp t)⟩

/-- The first command of the colour path. -/
theorem runIsStage_split {s : State} {hor ver : Nat} (hl : ColourLegal s hor ver) :
    RunIsStage s [.split] (splitPlanes hor ver) :=
  ⟨stage_splitPlanes hor ver, runCommands_single (exec_split hl)⟩

@[simp] theorem compressPlane_valid (p : PSel) (t : TSel) (w h : Nat) (s : State) (v : TSel) :
    (compressPlane p t w h s).valid v = s.valid v := by
  obtain ⟨htables, -⟩ := compressPlane_keeps p t w h s
  exact (htables v).2

@[simp] theorem buildBoth_valid (p : Preset) (s : State) (v : TSel) : (buildBoth p s).valid v = true := by
  cases v <;> rfl

/-- Where COMPRESS is a stage begun with `NOOP` cleared, and the run of some commands is that stage, COMPRESS completes
with `NOOP` = 0, raises nothing, and leaves all else as the commands do. -/
theorem compress_eq_run {s : State} {is : List Instr} {f : State → State} (hrun : RunIsStage s is f)
    (h : effCompress s = .ok (f { s with noop := false })) :
    ∃ u, exec .compress s = .next u ∧ Completed u ∧ u.noop = false ∧ NoNewError s u ∧
      runCommands is s = .next { u with noop := s.noop } := by
  have hq := hrun.stage.quiet s
  have hexec : exec .compress s = .next (State.finish { f s with noop := false }) := by
    rw [exec_eq_complete, effectOf, h, complete_ok, hrun.stage.noopWrite]
  refine ⟨_, hexec, ⟨rfl, rfl⟩, rfl, ⟨hq.err, hq.ecode⟩, ?_⟩
  rw [hrun.run, State.finish_eq_setFlags, hrun.stage.noop]
  rfl

/-- Settles O41: the gray path is the composition of its commands' stages. -/
theorem compressGrayEqualsItsCommands : Obligations.CompressGrayEqualsItsCommands := by
  intro s hch hw hh hp hc
  obtain ⟨p, hp⟩ := presetOf_some hp
  have hrun := ((runIsStage_qtgen hp .l).qtgen hp .c).cplane (p := .pix) (t := .l) ⟨hw, hh, fun _ => hch, rfl, hc⟩
    (buildBoth_valid p s .l)
  exact compress_eq_run hrun ((effCompress_gray hch).trans (effGray_eq_ok hw hh hp hc))

/-- With legal checks the three planes that the colour path compresses are legal (rules R165 and R187). -/
theorem ColourLegal.planeLegal {s : State} {hor ver : Nat} (hl : ColourLegal s hor ver) :
    PlaneLegal s .y s.imgW s.imgH ∧ PlaneLegal s .cb (cdiv s.imgW hor) (cdiv s.imgH ver) ∧
      PlaneLegal s .cr (cdiv s.imgW hor) (cdiv s.imgH ver) := by
  obtain ⟨hhor, hver⟩ := colourLegal_ratio_pos hl
  obtain ⟨hw, hh, -, hratio, -, hplane⟩ := hl
  have hdims : s.chromaDims = some (cdiv s.imgW hor, cdiv s.imgH ver) := by rw [State.chromaDims, hratio]
  have hchroma := (chroma_size_le hhor hver).trans hplane
  exact ⟨⟨hw, hh, nofun, rfl, hplane⟩, ⟨hw, hh, nofun, hdims, hchroma⟩, ⟨hw, hh, nofun, hdims, hchroma⟩⟩

/-- Settles O42: the colour path is the composition of its seven commands' stages. -/
theorem compressColourEqualsItsSevenCommands : Obligations.CompressColourEqualsItsSevenCommands := by
  intro s hor ver hl hp
  obtain ⟨p, hp⟩ := presetOf_some hp
  obtain ⟨hy, hcb, hcr⟩ := ColourLegal.planeLegal hl
  have hch : s.ch = 3 := by obtain ⟨-, -, hch, -⟩ := hl; exact hch
  have hbuilt := buildBoth_valid p (splitPlanes hor ver s)
  have htables := ((runIsStage_split hl).qtgen hp .l).qtgen hp .c
  have hluma := htables.cplane hy (hbuilt .l)
  have hblue := hluma.cplane hcb ((compressPlane_valid _ _ _ _ _ _).trans (hbuilt .c))
  have hred := hblue.cplane hcr (by simp only [Function.comp_apply, compressPlane_valid]; exact hbuilt .c)
  exact compress_eq_run (hred.merge hl) ((effCompress_colour hch).trans (effColour_eq_ok hl hp))

/-! ### The bytes that COMPRESS leaves (rules R185, R187 and R193) -/

/-- CPLANE leaves the bytes beyond its plane, and every other memory. -/
theorem compressPlane_read_beyond {p q : PSel} {w h a : Nat} (ha : q = p → w * h ≤ a) (t : TSel) (s : State) :
    Memory.read ((compressPlane p t w h s).mem q) a = Memory.read (s.mem q) a := by
  by_cases hq : q = p
  · subst hq
    rw [compressPlane_mem]
    exact planeLoop_keeps (P := fun r => Memory.read r.mem a = Memory.read (s.mem q) a)
      (fun br bc _ hr => (read_scatter_beyond br bc _ (ha rfl)).trans hr) rfl
  · obtain ⟨-, -, hmem⟩ := compressPlane_keeps p t w h s
    rw [hmem q hq]

theorem State.noopWrite_mem (s : State) (n : Bool) (q : PSel) : { s with noop := n }.mem q = s.mem q := by
  cases q <;> rfl

theorem buildBoth_mem (p : Preset) (s : State) (q : PSel) : (buildBoth p s).mem q = s.mem q :=
  ((buildFrom_keeps p .c _).2.1 q).trans ((buildFrom_keeps p .l s).2.1 q)

/-- How many bytes of each memory the image and its planes take on the colour path (rules R141 and R142). -/
def colourBytes (s : State) (hor ver : Nat) : PSel → Nat
  | .y => s.imgW * s.imgH
  | .cb => cdiv s.imgW hor * cdiv s.imgH ver
  | .cr => cdiv s.imgW hor * cdiv s.imgH ver
  | .pix => 3 * (s.imgW * s.imgH)

section
variable {s : State} {hor ver a : Nat} {q : PSel}

theorem splitPlanes_read_beyond (hhor : 0 < hor) (hver : 0 < ver) (ha : colourBytes s hor ver q ≤ a) :
    Memory.read ((splitPlanes hor ver s).mem q) a = Memory.read (s.mem q) a := by
  cases q with
  | y => exact (splitPlanes_read_yp hor ver a).trans (if_neg (Nat.not_lt.2 ha))
  | cb | cr => exact read_chromaStore_beyond hhor hver _ _ ha
  | pix => rfl

theorem mergePlanes_read_beyond (ha : colourBytes s hor ver q ≤ a) :
    Memory.read ((mergePlanes hor ver s).mem q) a = Memory.read (s.mem q) a := by
  cases q with
  | pix => exact mergePlanes_read_pix_beyond hor ver ha
  | y | cb | cr => rfl

theorem Quiet.colourBytes {u : State} (hq : Quiet s u) : colourBytes u hor ver q = colourBytes s hor ver q := by
  cases q <;> simp only [Machine.colourBytes, hq.imgW, hq.imgH]

/-- No stage of the colour path writes beyond the image and its planes. -/
theorem colourPath_read_beyond (hhor : 0 < hor) (hver : 0 < ver) (ha : colourBytes s hor ver q ≤ a) (p : Preset) :
    Memory.read ((colourPath p hor ver s).mem q) a = Memory.read (s.mem q) a := by
  have hplane (q' : PSel) (he : q = q') : colourBytes s hor ver q' ≤ a := he ▸ ha
  have hnoop : Quiet s { s with noop := false } := by constructor <;> rfl
  have hq := ((((hnoop.trans (quiet_splitPlanes hor ver _)).trans (quiet_buildBoth p _)).trans
    (quiet_compressPlane .y .l s.imgW s.imgH _)).trans
    (quiet_compressPlane .cb .c (cdiv s.imgW hor) (cdiv s.imgH ver) _)).trans
    (quiet_compressPlane .cr .c (cdiv s.imgW hor) (cdiv s.imgH ver) _)
  refine (mergePlanes_read_beyond (hq.colourBytes.trans_le ha)).trans ?_
  rw [compressPlane_read_beyond (hplane .cr), compressPlane_read_beyond (hplane .cb),
    compressPlane_read_beyond (hplane .y), buildBoth_mem]
  exact (splitPlanes_read_beyond (s := { s with noop := false }) hhor hver ha).trans
    (congrArg (Memory.read · a) (s.noopWrite_mem false q))

end

/-- The gray path leaves the planes. -/
theorem grayPath_mem {q : PSel} (hq : q ≠ .pix) (p : Preset) (s : State) :
    (compressPlane .pix .l s.imgW s.imgH (buildBoth p { s with noop := false })).mem q = s.mem q := by
  obtain ⟨-, -, hmem⟩ := compressPlane_keeps .pix .l s.imgW s.imgH (buildBoth p { s with noop := false })
  rw [hmem q hq, buildBoth_mem]
  exact s.noopWrite_mem false q

/-- The gray path leaves the bytes of `PIX` beyond the image. -/
theorem grayPath_read_beyond {s : State} {a : Nat} (ha : s.imgW * s.imgH ≤ a) (p : Preset) :
    Memory.read ((compressPlane .pix .l s.imgW s.imgH (buildBoth p { s with noop := false })).mem .pix) a =
      Memory.read (s.mem .pix) a := by
  rw [compressPlane_read_beyond fun _ => ha, buildBoth_mem]
  exact congrArg (Memory.read · a) (s.noopWrite_mem false .pix)

/-- Settles O45: an error writes no byte, and the channel count says which path the effect took. -/
theorem compressTouchesOnlyTheImage : Obligations.CompressTouchesOnlyTheImage := by
  intro s u h
  obtain ⟨v, hv, rfl⟩ | ⟨e, -, rfl⟩ := exec_cases h
  · obtain ⟨h0, h1, h3, -⟩ | ⟨hch, p, -, -, -, -, hpath⟩ | ⟨p, hor, ver, ⟨-, -, hch, hratio, -⟩, -, hpath⟩ :=
      effCompress_ok hv
    · exact ⟨fun hgray => absurd hgray (not_or.2 ⟨h0, h1⟩), fun _ _ hcolour => absurd hcolour h3⟩
    · have hmem {q : PSel} (hq : q ≠ .pix) : v.mem q = s.mem q := hpath ▸ grayPath_mem hq p s
      have hread {a : Nat} (ha : s.imgW * s.imgH ≤ a) : Memory.read (v.mem .pix) a = Memory.read (s.mem .pix) a :=
        hpath ▸ grayPath_read_beyond ha p
      exact ⟨fun _ => ⟨hmem (q := .y) nofun, hmem (q := .cb) nofun, hmem (q := .cr) nofun, fun _ => hread⟩,
        fun _ _ hcolour => by omega⟩
    · refine ⟨fun hgray => by omega, fun hor' ver' _ hratio' => ?_⟩
      cases hratio.symm.trans hratio'
      obtain ⟨hhor, hver⟩ := ratioOf_pos hratio
      have hread {q : PSel} {a : Nat} (ha : colourBytes s hor ver q ≤ a) :
          Memory.read (v.mem q) a = Memory.read (s.mem q) a := hpath ▸ colourPath_read_beyond hhor hver ha p
      exact ⟨fun _ => hread (q := .pix), fun _ => hread (q := .y),
        fun _ ha => ⟨hread (q := .cb) ha, hread (q := .cr) ha⟩⟩
  · simp

end Sys2Proof.Machine

/-! PROOFS. Family 60_exceptions: which errors a command can raise, that its checks do not read `ERR`, the latched error
through commands, steps and acknowledgement, the bits of `STATUS`, and the interrupt line (60_exceptions.md). -/

namespace Sys2Proof.Machine

/-! ### The number of an error code (rule R201) -/

@[simp] theorem ecodeOf_toNat (e : ErrCode) : (ecodeOf e).toNat = errNumber e := by cases e <;> rfl

theorem errNumber_le (e : ErrCode) : errNumber e ≤ 8 := by cases e <;> decide

theorem ecodeOf_ne_zero (e : ErrCode) : ecodeOf e ≠ 0 := by cases e <;> decide

/-! ### The errors of a command (rule R210) -/

/-- Rule R165 raises `E_DIM`, `E_FMT` and `E_SIZE`. -/
theorem planeChecked_errNumber {s : State} {p : PSel} {e : ErrCode} (h : s.planeChecked p = .error e) :
    errNumber e ∈ [3, 4, 6] := by
  unfold State.planeChecked at h
  split at h
  · cases h; decide
  · split at h
    · cases h; decide
    · split at h
      · cases h; decide
      · split at h <;> cases h
        decide

/-- Rule R146 raises `E_DIM`, `E_FMT` and `E_SIZE`. -/
theorem colourChecked_errNumber {s : State} {e : ErrCode} (h : s.colourChecked = .error e) :
    errNumber e ∈ [3, 4, 6] := by
  unfold State.colourChecked at h
  split at h
  · cases h; decide
  · split at h
    · cases h; decide
    · split at h
      · cases h; decide
      · split at h <;> cases h
        decide

/-- The gray path raises `E_DIM`, `E_PRESET` and `E_SIZE` (rule R185). -/
theorem effGray_errNumber {s : State} {e : ErrCode} (h : effGray s = .error e) : errNumber e ∈ [3, 5, 6] := by
  unfold effGray at h
  split at h
  · cases h; decide
  · split at h
    · cases h; decide
    · split at h <;> cases h
      decide

/-- The colour path raises `E_DIM`, `E_FMT`, `E_PRESET` and `E_SIZE` (rule R187). -/
theorem effColour_errNumber {s : State} {e : ErrCode} (h : effColour s = .error e) : errNumber e ∈ [3, 4, 5, 6] := by
  unfold effColour at h
  split at h
  · cases h; decide
  · split at h
    · cases h; decide
    · split at h
      · cases h; decide
      · split at h <;> cases h
        decide

/-- What the rule of a command can raise: each check answers its own code, in the command's row of rule R210. -/
theorem effect_errNumber {i : Instr} {s : State} {e : ErrCode} (h : effectOf i s = .error e) :
    errNumber e ∈ errorNumbersOf i := by
  cases i <;> simp only [effectOf, errorNumbersOf] at h ⊢
  case nop | fdct | idct => cases h
  case qtgen | quant | dequant | xform =>
    simp only [effQtgen, effQuant, effDequant, effXform] at h
    split at h <;> cases h
    decide
  case ldblk | stblk | cplane =>
    simp only [effLdblk, effStblk, effCplane] at h
    split at h
    · cases h
      exact List.subset_def.1 (by decide) (planeChecked_errNumber ‹_›)
    · split at h <;> cases h
      decide
  case split | merge =>
    simp only [effSplit, effMerge] at h
    split at h <;> cases h
    exact colourChecked_errNumber ‹_›
  case compress =>
    unfold effCompress at h
    split at h
    · exact effColour_errNumber h
    · exact List.subset_def.1 (by decide) (effGray_errNumber h)
    · cases h

/-- Settles O12: a command that ends with a new error latched took the error its rule raised. -/
theorem commandRaisesOnlyItsErrors : Obligations.CommandRaisesOnlyItsErrors := by
  intro i s t hs h ht
  obtain ⟨u, hu, rfl⟩ | ⟨e, he, rfl⟩ := exec_cases h
  · cases hs.symm.trans ((effect_quiet hu).err.symm.trans ht)
  · rw [State.raiseError_ecode, hs, if_neg Bool.false_ne_true, ecodeOf_toNat]
    exact effect_errNumber he

/-- Settles O11: a success leaves both alone, and a failure keeps the first error. -/
theorem firstErrorIsKept : Obligations.FirstErrorIsKept := by
  intro i s t hs h
  obtain ⟨u, hu, rfl⟩ | ⟨e, -, rfl⟩ := exec_cases h
  · exact ⟨(effect_quiet hu).err.trans hs, (effect_quiet hu).ecode⟩
  · exact ⟨s.raiseError_err e, by rw [State.raiseError_ecode, if_pos hs]⟩

/-! ### The checks do not read `ERR` (rule R213) -/

/-- The state with another `ERR`. -/
def State.setErr (s : State) (b : Bool) : State := { s with err := b }

section
variable {s : State} {t : TSel}

theorem effXform_isOk (h : s.valid t = true) : ∃ u, effXform t s = .ok u := ⟨_, if_pos h⟩

section
variable {p : PSel} {w h : Nat} (hl : PlaneLegal s p w h)
include hl

theorem effLdblk_isOk {br bc : Nat} (hr : br < cdiv h 8) (hc : bc < cdiv w 8) : ∃ u, effLdblk p br bc s = .ok u := by
  rw [effLdblk, planeChecked_legal hl]
  exact ⟨_, if_neg (not_or.2 ⟨Nat.not_le.2 hr, Nat.not_le.2 hc⟩)⟩

theorem effStblk_isOk {br bc : Nat} (hr : br < cdiv h 8) (hc : bc < cdiv w 8) : ∃ u, effStblk p br bc s = .ok u := by
  rw [effStblk, planeChecked_legal hl]
  exact ⟨_, if_neg (not_or.2 ⟨Nat.not_le.2 hr, Nat.not_le.2 hc⟩)⟩

theorem effCplane_isOk (hv : s.valid t = true) : ∃ u, effCplane p t s = .ok u := by
  rw [effCplane, planeChecked_legal hl]
  exact ⟨_, if_pos hv⟩

end

section
variable {hor ver : Nat} (hl : ColourLegal s hor ver)
include hl

theorem effSplit_isOk : ∃ u, effSplit s = .ok u := by
  rw [effSplit, colourChecked_legal hl]
  exact ⟨_, rfl⟩

theorem effMerge_isOk : ∃ u, effMerge s = .ok u := by
  rw [effMerge, colourChecked_legal hl]
  exact ⟨_, rfl⟩

end
end

/-- A command whose checks pass passes them with any other `ERR`: each condition is one on fields that are the same. -/
theorem effect_isOk_setErr {i : Instr} {s u : State} (h : effectOf i s = .ok u) (b : Bool) :
    ∃ v, effectOf i (s.setErr b) = .ok v := by
  cases i <;> simp only [effectOf] at h ⊢
  case nop | fdct | idct => exact ⟨_, rfl⟩
  case qtgen t => obtain ⟨p, hp, -⟩ := effQtgen_ok h; exact ⟨_, effQtgen_eq_ok (s := s.setErr b) hp t⟩
  case quant t => obtain ⟨hv, -⟩ := effQuant_ok h; exact ⟨_, effQuant_eq_ok hv⟩
  case dequant t => obtain ⟨hv, -⟩ := effDequant_ok h; exact ⟨_, effDequant_eq_ok hv⟩
  case xform t => obtain ⟨hv, -⟩ := effXform_ok h; exact effXform_isOk hv
  case ldblk p br bc => obtain ⟨_, _, hl, hr, hc, -⟩ := effLdblk_ok h; exact effLdblk_isOk (s := s.setErr b) hl hr hc
  case stblk p br bc => obtain ⟨_, _, hl, hr, hc, -⟩ := effStblk_ok h; exact effStblk_isOk (s := s.setErr b) hl hr hc
  case cplane p t => obtain ⟨_, _, hl, hv, -⟩ := effCplane_ok h; exact effCplane_isOk hl hv
  case split => obtain ⟨_, _, hl, -⟩ := effSplit_ok h; exact effSplit_isOk hl
  case merge => obtain ⟨_, _, hl, -⟩ := effMerge_ok h; exact effMerge_isOk hl
  case compress =>
    obtain ⟨h0, h1, h3, -⟩ | ⟨hch, p, hw, hh, hp, hsize, -⟩ | ⟨p, hor, ver, hl, hp, -⟩ := effCompress_ok h
    · exact ⟨_, effCompress_passThrough h0 h1 h3⟩
    · exact ⟨_, (effCompress_gray (s := s.setErr b) hch).trans (effGray_eq_ok (s := s.setErr b) hw hh hp hsize)⟩
    · obtain ⟨-, -, hch, -⟩ := id hl
      exact ⟨_, (effCompress_colour (s := s.setErr b) hch).trans (effColour_eq_ok (s := s.setErr b) hl hp)⟩

/-- With an error latched a command that fails completes and changes nothing else (rule R208). -/
theorem exec_error_latched {i : Instr} {s : State} {e : ErrCode} (hs : s.err = true) (h : effectOf i s = .error e) :
    exec i s = .next { s with busy := false, done := true } := by
  rw [exec_eq_complete, h, complete_error, State.raiseError, if_pos hs, State.finish]

/-- Settles O10: the new error is one the checks raised, and with an error latched the same checks raise one again. -/
theorem errorIsLatchedAndChangesNothingElse : Obligations.ErrorIsLatchedAndChangesNothingElse := by
  intro i s t h ht
  obtain ⟨u, hu, rfl⟩ | ⟨e, he, rfl⟩ := exec_cases h
  · cases (effect_quiet hu).err.symm.trans ht
  · rw [raiseError_eq]
    refine ⟨ecodeOf_ne_zero e, rfl, fun hs => ?_⟩
    cases hi : effectOf i s with
    | error e' => exact exec_error_latched hs hi
    | ok u =>
      obtain ⟨v, hv⟩ := effect_isOk_setErr hi false
      cases he.symm.trans hv

/-! ### `STATUS` stays sound -/

theorem statusOk_resetRegisters (s : State) : StatusOk s.resetRegisters :=
  ⟨iff_of_false Bool.false_ne_true fun h => h rfl, Nat.zero_le 8, nofun⟩

theorem statusOk_hardReset (s : State) : StatusOk s.hardReset :=
  s.hardReset_resetRegisters ▸ statusOk_resetRegisters s.hardReset

/-- The acknowledgement clears `ERR` and `ECODE` together (rule R212). -/
theorem statusOk_clearStatus {s : State} (hs : StatusOk s) (v : Word) : StatusOk (s.clearStatus v) := by
  obtain ⟨herr, hcode, hdone⟩ := hs
  rw [State.clearStatus_eq]
  refine ⟨?_, ?_, fun hb => by simp [hdone hb]⟩ <;> cases v.getLsbD 2
  · simpa using herr
  · simp
  · exact hcode
  · exact Nat.zero_le 8

theorem HostChange.statusOk {s t : State} (hs : StatusOk s) (h : HostChange s t) : StatusOk t := by
  obtain ⟨herr, hcode, hdone⟩ := id hs
  cases h with
  | softReset => exact statusOk_resetRegisters _
  | status v => exact statusOk_clearStatus hs v
  | launched w _ => exact ⟨herr, hcode, fun _ => rfl⟩
  | mem m a v _ _ => simpa [StatusOk] using hs
  | _ => exact hs

/-- A taken error latches a code of 1 to 8, or keeps the latched one (rules R201 and R208). -/
theorem statusOk_raiseError {s : State} (hs : StatusOk s) (e : ErrCode) : StatusOk (s.raiseError e) := by
  obtain ⟨herr, hcode, -⟩ := hs
  rw [raiseError_eq]
  cases he : s.err with
  | false => exact ⟨iff_of_true rfl (ecodeOf_ne_zero e), (ecodeOf_toNat e).trans_le (errNumber_le e), nofun⟩
  | true => exact ⟨iff_of_true rfl (herr.1 he), hcode, nofun⟩

theorem UnitChange.statusOk {s t : State} (hs : StatusOk s) (h : UnitChange s t) : StatusOk t := by
  cases h with
  | idle => exact hs
  | error e => exact statusOk_raiseError hs e
  | command h =>
    obtain ⟨herr, hcode, -⟩ := hs
    have q := effect_quiet h
    exact ⟨by simpa [q.err, q.ecode] using herr, by simpa [q.ecode] using hcode, nofun⟩

/-- Settles O57: an error is latched with its code, acknowledged with it, and a launch clears `DONE`. -/
theorem stepKeepsStatusOk : Obligations.StepKeepsStatusOk := fun _ _ hs h =>
  step_keeps (P := StatusOk) (fun _ _ hs => hs) (fun _ _ hs hc => hc.statusOk hs)
    (fun _ _ hs hc => hc.statusOk hs) (fun s _ => statusOk_hardReset s) hs h

/-! ### The bits of `STATUS` (rule R30) -/

/-- A bit of a word given by its number is the flag its binary digit stands for. -/
theorem getLsbD_of_digit {n k : Nat} {b : Bool} (hk : k < 32) (h : n / 2 ^ k % 2 = bitOf b) :
    (BitVec.ofNat 32 n).getLsbD k = b := by
  rw [BitVec.getLsbD_ofNat, Nat.testBit_eq_decide_div_mod_eq, h]
  cases b <;> simp [hk, bitOf]

/-- A field of a word given by its number is the word its binary digits stand for. -/
theorem extractLsb'_of_digits {n start len : Nat} {x : BitVec len} (hn : n < 2 ^ 32)
    (h : n / 2 ^ start % 2 ^ len = x.toNat) : (BitVec.ofNat 32 n).extractLsb' start len = x :=
  BitVec.eq_of_toNat_eq (by
    rw [BitVec.extractLsb'_toNat, BitVec.toNat_ofNat, Nat.mod_eq_of_lt hn, Nat.shiftRight_eq_div_pow, h])

theorem bitOf_le_one (b : Bool) : bitOf b ≤ 1 := by cases b <;> decide

/-- Each flag in its bit, `ECODE` in bits 8 to 11, and 0 above. -/
theorem State.statusWord_fields (s : State) :
    s.statusWord.getLsbD 0 = s.busy ∧ s.statusWord.getLsbD 1 = s.done ∧ s.statusWord.getLsbD 2 = s.err ∧
    s.statusWord.getLsbD 3 = s.ovr ∧ s.statusWord.getLsbD 4 = s.noop ∧ s.statusWord.getLsbD 5 = s.dconly ∧
    s.statusWord.getLsbD 6 = s.valid .l ∧ s.statusWord.getLsbD 7 = s.valid .c ∧
    s.statusWord.extractLsb' 8 4 = s.ecode ∧ s.statusWord.extractLsb' 12 20 = 0 := by
  have hbusy := bitOf_le_one s.busy
  have hdone := bitOf_le_one s.done
  have herr := bitOf_le_one s.err
  have hovr := bitOf_le_one s.ovr
  have hnoop := bitOf_le_one s.noop
  have hdconly := bitOf_le_one s.dconly
  have hqtv0 := bitOf_le_one s.qtv0
  have hqtv1 := bitOf_le_one s.qtv1
  have hecode := s.ecode.isLt
  have hzero : (0 : BitVec 20).toNat = 0 := rfl
  refine ⟨getLsbD_of_digit (by decide) ?_, getLsbD_of_digit (by decide) ?_, getLsbD_of_digit (by decide) ?_,
    getLsbD_of_digit (by decide) ?_, getLsbD_of_digit (by decide) ?_, getLsbD_of_digit (by decide) ?_,
    getLsbD_of_digit (b := s.qtv0) (by decide) ?_, getLsbD_of_digit (b := s.qtv1) (by decide) ?_,
    extractLsb'_of_digits ?_ ?_, extractLsb'_of_digits ?_ ?_⟩
  all_goals omega

/-- Settles O17: the read answers `statusWord`, and the write is `clearStatus`. -/
theorem statusWriteClearsOnlyTheWrittenFlags : Obligations.StatusWriteClearsOnlyTheWrittenFlags := fun s v =>
  ⟨⟨s.statusWord, rfl, s.statusWord_fields⟩, congrArg Host.Outcome.next (s.clearStatus_eq v)⟩

/-! ### The interrupt line (rule R214) -/

/-- With `DONE` set the line is `CTRL.IE`. -/
theorem irq_of_done {t : State} (h : t.done = true) : t.irq = t.ctrl.getLsbD 0 := by
  rw [State.irq, h, Bool.and_true]

/-- `IE` is a writable bit of `CTRL`. -/
theorem ie_of_masked_write (v : Word) : (v &&& ctrlMask).getLsbD 0 = v.getLsbD 0 := by
  have hie : ctrlMask.getLsbD 0 = true := by decide
  rw [BitVec.getLsbD_and, hie, Bool.and_true]

/-- Settles O52: the line follows `DONE`, which a completion sets and a launch and a write to `STATUS` clear, under the
`IE` that only a write to `CTRL` changes. -/
theorem interruptFollowsCompletion : Obligations.InterruptFollowsCompletion := by
  intro s
  refine ⟨?_, fun i t h => ?_, fun e hb hd => ⟨_, unitStep_illegal hb hd, ?_⟩, fun w => Bool.and_false _,
    fun v => ⟨_, congrArg Host.Outcome.next (s.clearStatus_eq v), (Bool.and_assoc ..).symm⟩,
    fun v hv => ⟨_, hostWriteReg_ctrl hv, congrArg (· && s.done) (ie_of_masked_write v), rfl⟩⟩
  · obtain ⟨-, hdone, -⟩ := s.statusWord_fields
    exact congrArg (s.ctrl.getLsbD 0 && ·) hdone.symm
  · obtain ⟨⟨-, hdone⟩, -, hctrl, -⟩ := exec_completes h
    rw [irq_of_done hdone, hctrl]
  · rw [irq_of_done (s.raiseError_done e), State.raiseError_ctrl]

end Sys2Proof.Machine

/-! PROOFS. Family 70_reset_and_hazards: the write to `CTRL` that takes a soft reset, what `BLK`, the tables and the pixel
memories hold after it, what of them an abandoned command leaves, and the statements about soft resets. Depends on the laws
of the resets and on the reset values of the registers in family 10_state. -/

namespace Sys2Proof.Machine

/-! ### Soft reset -/

/-- A write to `CTRL` with `SRST` set is a soft reset, whether or not a command runs (rule R231). -/
theorem hostStep_softReset {v : Word} (hv : v.getLsbD 1 = true) (s : State) :
    hostStep (.writeReg 0 v) s = .next s.softReset :=
  congrArg Host.Outcome.next (if_pos hv : s.writeCtrl v = s.softReset)

/-- `t` holds the `BLK`, the table contents and the pixel memories of `s` (rule R233). -/
structure SameContents (s t : State) : Prop where
  blk : t.blk = s.blk
  table : ∀ u, t.table u = s.table u
  mem : ∀ p, t.mem p = s.mem p

theorem sameContents_resetRegisters (s : State) : SameContents s s.resetRegisters :=
  ⟨rfl, fun u => by cases u <;> rfl, s.resetRegisters_mem⟩

theorem softReset_idle {s : State} (hb : s.busy = false) : SameContents s s.softReset := by
  have habandon : s.abandon = s := if_neg (by rw [hb]; exact Bool.false_ne_true)
  rw [State.softReset, habandon]
  exact sameContents_resetRegisters s

theorem softReset_illegal {s : State} {e : ErrCode} (hb : s.busy = true) (hd : decode s.cmd = .error e) :
    SameContents s s.softReset := by
  have habandon : s.abandon = s := by simp [State.abandon, hb, State.runningCommand, hd]
  rw [State.softReset, habandon]
  exact sameContents_resetRegisters s

/-- What an abandoned command leaves is what `State.loseWritesOf` says (rule R232). -/
theorem softReset_command {s : State} {i : Instr} (hb : s.busy = true) (hd : decode s.cmd = .ok i) :
    SameContents (s.loseWritesOf i) s.softReset := by
  have habandon : s.abandon = { s.loseWritesOf i with draw := s.draw + 1 } := by
    simp [State.abandon, hb, State.runningCommand, hd]
  rw [State.softReset, habandon]
  exact ⟨rfl, fun u => by cases u <;> rfl, fun p => by cases p <;> rfl⟩

/-- Settles O53: an idle unit has no command to abandon. -/
theorem softResetWhileIdleKeepsTheContents : Obligations.SoftResetWhileIdleKeepsTheContents := by
  intro s v hb hv
  obtain ⟨hblk, htable, hmem⟩ := softReset_idle hb
  exact ⟨s.softReset, hostStep_softReset hv s, State.resetRegisters_readReg _, s.softReset_valid, hblk, htable, hmem,
    s.softReset_cfg, State.resetRegisters_irq _⟩

/-! ### What COMPRESS leaves when it is abandoned, by its path (rule R184) -/

section
variable {s : State}

theorem loseWritesOf_passThrough (h0 : s.ch ≠ 0) (h1 : s.ch ≠ 1) (h3 : s.ch ≠ 3) : s.loseWritesOf .compress = s := by
  rw [State.loseWritesOf, compressPath, if_neg h3, if_neg (not_or.2 ⟨h0, h1⟩)]

theorem loseWritesOf_gray (h : s.ch = 0 ∨ s.ch = 1) :
    s.loseWritesOf .compress = (((s.losePlane .pix).loseTable .l).loseTable .c).loseBlk := by
  rw [State.loseWritesOf, compressPath, if_neg (by omega), if_pos h]

theorem loseWritesOf_colour (h : s.ch = 3) :
    s.loseWritesOf .compress = ((s.loseColourPath.loseTable .l).loseTable .c).loseBlk := by
  rw [State.loseWritesOf, compressPath, if_pos h]

end

/-! ### The bytes outside the write column (rules R193 and R232) -/

section
variable {s : State} {p q : PSel} {a : Nat}

/-- Where not every size `p` can have reaches beyond byte `a`, it has a size, and `a` lies beyond it. -/
theorem planeDims_of_beyond (h : ¬ ∀ w ht, s.planeDims p = some (w, ht) → a < w * ht) :
    ∃ w ht, s.planeDims p = some (w, ht) ∧ w * ht ≤ a := by
  push Not at h
  exact h

theorem loseTile_read {br bc : Nat} (h : ¬ inWriteColumn s (.stblk q br bc) p a) :
    Memory.read ((s.loseTile q br bc).mem p) a = Memory.read (s.mem p) a :=
  State.loseTile_other fun hpq => by
    have hcell := not_and.1 h hpq
    push Not at hcell
    exact hcell

theorem losePlane_read {t : TSel} (h : ¬ inWriteColumn s (.cplane q t) p a) :
    Memory.read ((s.losePlane q).mem p) a = Memory.read (s.mem p) a :=
  State.losePlane_other fun hpq => planeDims_of_beyond (not_and.1 h hpq)

/-- Each of the three planes keeps its size while the ones before it are lost. -/
theorem loseColour_read (h : ¬ inWriteColumn s .split p a) :
    Memory.read (s.loseColour.mem p) a = Memory.read (s.mem p) a := by
  have hbeyond (hp : p ≠ .pix) := planeDims_of_beyond (not_and.1 h hp)
  rw [State.loseColour, State.losePlane_other (q := .cr) fun hp => by simpa using hbeyond (hp ▸ nofun),
    State.losePlane_other (q := .cb) fun hp => by simpa using hbeyond (hp ▸ nofun),
    State.losePlane_other (q := .y) fun hp => hbeyond (hp ▸ nofun)]

theorem loseMemory_read_other (h : p ≠ q) : Memory.read ((s.loseMemory q).mem p) a = Memory.read (s.mem p) a :=
  State.loseBytes_other fun hpq => absurd hpq h

/-- The buffer beyond the image is all that the colour path leaves. -/
theorem loseColourPath_read (hp : p = .pix) (ha : 3 * (s.imgW * s.imgH) ≤ a) :
    Memory.read (s.loseColourPath.mem p) a = Memory.read (s.mem p) a := by
  subst hp
  rw [State.loseColourPath, loseMemory_read_other (p := .pix) (q := .cr) nofun,
    loseMemory_read_other (p := .pix) (q := .cb) nofun, loseMemory_read_other (p := .pix) (q := .y) nofun,
    State.loseBytes_other fun _ => ha]

theorem loseCompress_read (h : ¬ inWriteColumn s .compress p a) :
    Memory.read ((s.loseWritesOf .compress).mem p) a = Memory.read (s.mem p) a := by
  obtain ⟨hcolour, hgray⟩ := not_or.1 h
  by_cases h3 : s.ch = 3
  · have hbuffer := not_and.1 hcolour h3
    push Not at hbuffer
    obtain ⟨hp, ha⟩ := hbuffer
    simp only [loseWritesOf_colour h3, State.loseBlk_mem, State.loseTable_mem]
    exact loseColourPath_read hp ha
  · by_cases h01 : s.ch = 0 ∨ s.ch = 1
    · simp only [loseWritesOf_gray h01, State.loseBlk_mem, State.loseTable_mem]
      exact State.losePlane_other fun hp =>
        ⟨s.imgW, s.imgH, hp ▸ rfl, Nat.le_of_not_lt fun ha => hgray ⟨h01, hp, ha⟩⟩
    · rw [loseWritesOf_passThrough (h01 ∘ .inl) (h01 ∘ .inr) h3]

/-- An abandoned command leaves every byte outside its write column. -/
theorem loseWritesOf_read {i : Instr} (h : ¬ inWriteColumn s i p a) :
    Memory.read ((s.loseWritesOf i).mem p) a = Memory.read (s.mem p) a := by
  cases i with
  | nop => rfl
  | qtgen t => exact congrArg (Memory.read · a) (s.loseTable_mem t p)
  | fdct | quant | dequant | idct | xform | ldblk => exact congrArg (Memory.read · a) (s.loseBlk_mem p)
  | stblk q br bc => exact loseTile_read h
  | cplane q t => exact (congrArg (Memory.read · a) ((s.losePlane q).loseBlk_mem p)).trans (losePlane_read h)
  | split => exact loseColour_read h
  | merge => exact State.loseBytes_other fun hp => Nat.le_of_not_lt fun ha => h ⟨hp, ha⟩
  | compress => exact loseCompress_read h

end

/-! ### The contents outside the write column -/

section
variable {s : State} {i : Instr}

theorem loseWritesOf_mem (h : storesNothing i = true) (p : PSel) : (s.loseWritesOf i).mem p = s.mem p := by
  cases i with
  | nop => rfl
  | qtgen t => exact s.loseTable_mem t p
  | fdct | quant | dequant | idct | xform | ldblk => exact s.loseBlk_mem p
  | stblk | cplane | split | merge | compress => cases h

theorem loseWritesOf_blk (h : keepsBlk i = true) : (s.loseWritesOf i).blk = s.blk := by
  cases i with
  | nop => rfl
  | qtgen t => exact s.loseTable_blk t
  | stblk q br bc => exact s.loseTile_blk q br bc
  | split => simp [State.loseWritesOf, State.loseColour]
  | merge => exact s.loseBytes_blk .pix _
  | fdct | quant | dequant | idct | xform | ldblk | cplane | compress => cases h

theorem loseWritesOf_table {u : TSel} (h : writesTable i u = false) : (s.loseWritesOf i).table u = s.table u := by
  cases i with
  | nop => rfl
  | qtgen t => exact s.setTable_table_other _ (Ne.symm (of_decide_eq_false h))
  | fdct | quant | dequant | idct | xform | ldblk => exact s.loseBlk_table u
  | stblk q br bc => exact s.loseTile_table q br bc u
  | cplane q t => exact ((s.losePlane q).loseBlk_table u).trans (s.losePlane_table q u)
  | split => simp [State.loseWritesOf, State.loseColour]
  | merge => exact s.loseBytes_table .pix _ u
  | compress => cases h

end

/-- Settles O54: an illegal word and the pass-through lose nothing, and a command only what is in its write column. -/
theorem abandonedCommandKeepsWhatItDoesNotWrite : Obligations.AbandonedCommandKeepsWhatItDoesNotWrite := by
  intro s v hb hv
  refine ⟨s.softReset, hostStep_softReset hv s, fun i hd => ?_, fun e hd => ?_, State.resetRegisters_readReg _,
    s.softReset_valid, rfl, State.resetRegisters_irq _, s.softReset_cfg⟩
  · obtain ⟨hblk, htable, hmem⟩ := softReset_command hb hd
    have hpass (h : i = .compress ∧ s.ch ≠ 0 ∧ s.ch ≠ 1 ∧ s.ch ≠ 3) : s.loseWritesOf i = s := by
      obtain ⟨rfl, h0, h1, h3⟩ := h
      exact loseWritesOf_passThrough h0 h1 h3
    exact ⟨fun p a ha => (congrArg (Memory.read · a) (hmem p)).trans (loseWritesOf_read ha),
      fun h p => (hmem p).trans (h.elim (loseWritesOf_mem · p) fun hp => by rw [hpass hp]),
      fun h => hblk.trans (h.elim loseWritesOf_blk fun hp => by rw [hpass hp]),
      fun u h => (htable u).trans (h.elim loseWritesOf_table fun hp => by rw [hpass hp])⟩
  · obtain ⟨hblk, htable, hmem⟩ := softReset_illegal hb hd
    exact ⟨hmem, hblk, htable⟩

end Sys2Proof.Machine
